-- ==== Sys2Proof/Word.lean ====
section
/-! DEFINITION. The word types of the QOI codec core: bytes, register words, and the pixel record (spec 00_scope.md R5, R7, R10). -/

namespace Sys2Proof

/-- One byte of IN, of OUT or of the chunk stream; bit 7 is the most significant bit (R7). -/
abbrev Byte := BitVec 8

/-- A 32-bit host register: CTRL, STATUS, WIDTH, HEIGHT, RES_WIDTH, RES_HEIGHT (R14). -/
abbrev Word32 := BitVec 32

/-- A 64-bit host register: IN_LEN, OUT_CAP, OUT_LEN (R14). -/
abbrev Word64 := BitVec 64

/-- A pixel: four 8-bit unsigned components; two pixels are equal when all four are equal (R10). -/
structure Pixel where
  r : Byte
  g : Byte
  b : Byte
  a : Byte
deriving DecidableEq, Repr

/-- The color-index cache: exactly 64 slots of one pixel each, addressed by a 6-bit index (R27). -/
abbrev Cache := Vector Pixel 64

end Sys2Proof
end

