-- ==== Sys2Proof/Syntax.lean ====
section
/-! DEFINITION. The syntax of a QOI stream: the six chunk types (every row of spec/opcode_table.json) and the image descriptor a header carries. Operands are the VALUES of 30_encoding.md R60 and R65, not the biased fields. -/

namespace Sys2Proof

/-- A chunk of the stream, in the listing notation of R65: `RUN n` names the run length, deltas are signed. -/
inductive Instr where
  /-- `RGB r, g, b` (R54): full update of r, g, b; alpha from the previous pixel. -/
  | rgb (r g b : Byte)
  /-- `RGBA r, g, b, a` (R55): full update of all four components. -/
  | rgba (r g b a : Byte)
  /-- `INDEX i` (R56): the pixel of cache slot `i`, 0..63. -/
  | index (i : BitVec 6)
  /-- `DIFF dr, dg, db` (R57): signed deltas, each -2..1. -/
  | diff (dr dg db : Int)
  /-- `LUMA dg, dr_dg, db_dg` (R58): the green delta -32..31, the red and blue deltas relative to it -8..7. -/
  | luma (dg drdg dbdg : Int)
  /-- `RUN n` (R59): the previous pixel `n` times, 1..62. -/
  | run (n : Nat)
deriving DecidableEq, Repr

/-- The image descriptor of R11, as the 14-byte header of R49 carries it. -/
structure Header where
  width : Word32
  height : Word32
  channels : Byte
  colorspace : Byte
deriving DecidableEq, Repr

end Sys2Proof
end

