-- ==== Sys2Proof/WellFormed.lean ====
section
/-! DEFINITION. Well-formed listing lines (30_encoding.md R66): a chunk or a header whose operands are in range; a line outside these ranges spells no chunk. -/

namespace Sys2Proof

/-- R66. Components and the slot number are in range by their types; the signed deltas and the run length are checked. -/
def Instr.wf : Instr → Bool
  | .rgb _ _ _ => true
  | .rgba _ _ _ _ => true
  | .index _ => true
  | .diff dr dg db =>
    decide (-2 ≤ dr ∧ dr ≤ 1) && decide (-2 ≤ dg ∧ dg ≤ 1) && decide (-2 ≤ db ∧ db ≤ 1)
  | .luma dg drdg dbdg =>
    decide (-32 ≤ dg ∧ dg ≤ 31) && decide (-8 ≤ drdg ∧ drdg ≤ 7) && decide (-8 ≤ dbdg ∧ dbdg ≤ 7)
  | .run n => decide (1 ≤ n ∧ n ≤ 62)

/-- R66, R11: width and height at least 1, channels 3 or 4; every colorspace value is accepted (R63). -/
def Header.wf (h : Header) : Bool :=
  decide (h.width ≠ 0) && decide (h.height ≠ 0) && decide (h.channels = 3 ∨ h.channels = 4)

end Sys2Proof
end

