-- ==== Sys2Proof/Decode.lean ====
section
/-! DEFINITION. The byte format of 30_encoding.md: the decoder of one chunk (total on any bytes, rejecting by name), the encoder of a chunk, the header and the end marker, and the host's view of a chunk as one numbered word. -/

namespace Sys2Proof

/-- The field of `len` bits of a byte whose lowest bit is `lo` (R7). -/
def bitField (b : Byte) (lo len : Nat) : BitVec len := b.extractLsb' lo len

/-- An unsigned field with its bias taken off (R60): none is sign-extended, none is scaled. -/
def unbias {w : Nat} (f : BitVec w) (bias : Int) : Int := (f.toNat : Int) - bias

/-- The field that holds a value plus its bias (R60, "Encoding is the inverse"). -/
def biased (w : Nat) (v bias : Int) : BitVec w := BitVec.ofInt w (v + bias)

/-- The bytes of a chunk, known from its first byte alone (R52, R61). -/
def chunkLength (b0 : Byte) : Nat :=
  if b0 = 0xFE#8 then 4
  else if b0 = 0xFF#8 then 5
  else if bitField b0 6 2 = 0b10#2 then 2
  else 1

/-- Why the decoder of a chunk refuses bytes: only because there are too few of them (R62, R107). -/
inductive DecodeError where
  /-- The bytes end before the first byte of the chunk, or before its last. -/
  | endOfStream
deriving DecidableEq, Repr

/-- The tag dispatch of R53, in its priority order; the operands are those of R60. Answers the chunk and the bytes after it. -/
def decode : List Byte → Except DecodeError (Instr × List Byte)
  | [] => .error .endOfStream
  | b0 :: tail =>
    if b0 = 0xFE#8 then
      match tail with
      | r :: g :: b :: rest => .ok (.rgb r g b, rest)
      | _ => .error .endOfStream
    else if b0 = 0xFF#8 then
      match tail with
      | r :: g :: b :: a :: rest => .ok (.rgba r g b a, rest)
      | _ => .error .endOfStream
    else if bitField b0 6 2 = 0b00#2 then .ok (.index (bitField b0 0 6), tail)
    else if bitField b0 6 2 = 0b01#2 then
      .ok (.diff (unbias (bitField b0 4 2) 2) (unbias (bitField b0 2 2) 2) (unbias (bitField b0 0 2) 2), tail)
    else if bitField b0 6 2 = 0b10#2 then
      match tail with
      | b1 :: rest =>
        .ok (.luma (unbias (bitField b0 0 6) 32) (unbias (bitField b1 4 4) 8) (unbias (bitField b1 0 4) 8), rest)
      | [] => .error .endOfStream
    else .ok (.run ((bitField b0 0 6).toNat + 1), tail)

/-- The bytes of a chunk, from the same formats R54 to R59 (the table of R65). -/
def encode : Instr → List Byte
  | .rgb r g b => [0xFE#8, r, g, b]
  | .rgba r g b a => [0xFF#8, r, g, b, a]
  | .index i => [0b00#2 ++ i]
  | .diff dr dg db => [0b01#2 ++ biased 2 dr 2 ++ biased 2 dg 2 ++ biased 2 db 2]
  | .luma dg drdg dbdg => [0b10#2 ++ biased 6 dg 32, biased 4 drdg 8 ++ biased 4 dbdg 8]
  | .run n => [0b11#2 ++ biased 6 n (-1)]

/-- The big-endian reading of four bytes, most significant first (R35, `be32` of 42_decoder.md). -/
def be32 (b0 b1 b2 b3 : Byte) : Word32 := b0 ++ b1 ++ b2 ++ b3

/-- A 32-bit word as four bytes, most significant first (R35). -/
def bytes32 (w : Word32) : List Byte :=
  [w.extractLsb' 24 8, w.extractLsb' 16 8, w.extractLsb' 8 8, w.extractLsb' 0 8]

/-- The magic "qoif" (R49; the byte values are general knowledge, passage G1 of 93_implementation_defined.md). -/
def magic : List Byte := [0x71#8, 0x6F#8, 0x69#8, 0x66#8]

/-- The 14 header bytes of a descriptor (R49). -/
def headerBytes (h : Header) : List Byte :=
  magic ++ bytes32 h.width ++ bytes32 h.height ++ [h.channels, h.colorspace]

/-- The 8 bytes that end a stream (R51). -/
def endMarker : List Byte := [0, 0, 0, 0, 0, 0, 0, 1]

/-- `HEADER || CHUNK* || END_MARKER` (R48). -/
def streamBytes (h : Header) (chunks : List Instr) : List Byte :=
  headerBytes h ++ chunks.flatMap encode ++ endMarker

/-- The length of the longest chunk (RGBA, R52). -/
def maxChunkLength : Nat := 5

/-- The bytes of a chunk numbered as the opcode table numbers them (byte `j` is bits `8j+7..8j`), zero from bit `nbits` up, as long as the longest chunk. -/
def wordBytes (nbits w : Nat) : List Byte :=
  (List.range maxChunkLength).map fun j => BitVec.ofNat 8 ((w % 2 ^ nbits) >>> (8 * j))

/-- The instruction the decoder reads from a word of the opcode table. -/
def decodeTableWord (nbits w : Nat) : Option Instr :=
  match decode (wordBytes nbits w) with
  | .ok (i, _) => some i
  | .error _ => none

end Sys2Proof
end

