-- ==== Sys2Proof/Config.lean ====
section
/-! DEFINITION. What one instance of the block fixes and the spec leaves open (the sizes of IN and OUT, R6), and the free values: opaque constants without a body, so that no proof can learn a value of theirs (93_implementation_defined.md "any value"). -/

namespace Sys2Proof

/-- `IN_SIZE` (R6, D3): the number of bytes of IN; any natural number. A state holds its own size, so claims about every state hold for every size. -/
opaque Config.inSize : Nat

/-- `OUT_SIZE` (R6, D3): the number of bytes of OUT; any natural number. -/
opaque Config.outSize : Nat

/-- The byte an OUT address holds after draw number `draw` made it unspecified (R47, R144; U8, U9). -/
opaque Config.freeByte (draw address : Nat) : Byte

/-- The value a register of `w` bits holds after draw number `draw` made it unspecified; `slot` tells the registers of one draw apart (R18, R30; U7, U10). -/
opaque Config.freeBits (w draw slot : Nat) : BitVec w

/-- The same for a position or a run counter, which is an exact natural (R26; U10). -/
opaque Config.freeNat (draw slot : Nat) : Nat

end Sys2Proof
end

