-- ==== Sys2Proof/Machine/State.lean ====
section
/-! DEFINITION. The state of one instance of the block (10_state.md) with its two byte spaces and its host's pending moves, the ways a step can stop, and the state after reset (R30). Plain data throughout. -/

namespace Sys2Proof.Machine

/-- The states of the job state machine (R21). -/
inductive Phase where
  /-- No job runs. -/
  | idle
  /-- An encode job is consuming pixels. -/
  | encPixel
  /-- An encode job has consumed every pixel; its run and the end marker are still to be written. -/
  | encTail
  /-- A decode job is producing pixels. -/
  | decPixel
deriving DecidableEq, Repr

/-- The error results of a job (R127, names; their numbers are `ErrorCode.number` in Flags.lean). -/
inductive ErrorCode where
  | invalidDimensions
  | invalidChannelCount
  | bufferSizeMismatch
  | headerTooShort
  | badMagic
  | unexpectedEndOfStream
  | outputTooSmall
deriving DecidableEq, Repr

/-- The STATUS register's fields (R16). Bit 3 and bits 31:8 read 0 and are not stored. -/
structure Status where
  busy : Bool
  done : Bool
  err : Bool
  code : BitVec 4
deriving DecidableEq, Repr

/-- The configuration registers, plain storage the host writes and START copies (R14 nos. 2 to 8, R17). -/
structure ConfigRegs where
  width : Word32
  height : Word32
  channels : Byte
  colorspace : Byte
  reqChannels : Byte
  inLen : Word64
  outCap : Word64
deriving DecidableEq, Repr

/-- The result registers, written only by the core (R14 nos. 9 to 13, R18). -/
structure ResultRegs where
  outLen : Word64
  width : Word32
  height : Word32
  channels : Byte
  colorspace : Byte
deriving DecidableEq, Repr

/-- The job-local state, hidden from the host (R22 to R29): the parameters latched at START, then the running state. -/
structure Job where
  /-- `J_W` (R22). -/
  jW : Word32
  /-- `J_H` (R22). -/
  jH : Word32
  /-- `J_C`: CHANNELS for encode, the header's channels byte for decode (R22). -/
  jC : Byte
  /-- `J_CS` (R22). -/
  jCS : Byte
  /-- `J_REQ`, decode only (R22). -/
  jReq : Byte
  /-- `J_IN_LEN` (R22). -/
  jInLen : Word64
  /-- The OUT_CAP latched at START (R33, R40). -/
  jOutCap : Word64
  /-- `J_N = J_W * J_H`, exact (R22). -/
  jN : Nat
  /-- The previous pixel (R23). -/
  prev : Pixel
  /-- Pixels of the pending run, encoder only (R24; 0..61 between steps). -/
  run : Nat
  /-- Pixels a RUN chunk still owes, decoder only (R25; 0..61). -/
  runRem : Nat
  /-- Pixels consumed or produced so far (R26). -/
  pixPos : Nat
  /-- Address in IN of the next stream byte, decoder only (R26). -/
  inPos : Nat
  /-- Stream bytes written to OUT so far, encoder only (R26). -/
  outPos : Nat
  /-- The color-index cache RAM (R27). -/
  cache : Cache
deriving DecidableEq, Repr

/-- A byte space (R32, R33). `cells` lists the bytes written, addresses strictly rising; an unlisted address reads 0
(DESIGN CHOICE, log entry 2), unless a layer `(cap, draw)` of `drawn` with the address below `cap` has made it
unspecified: it then reads the free byte of that draw. The newest layer stands first and the caps rise strictly. -/
structure Memory where
  size : Nat
  cells : List Host.Cell
  drawn : List (Nat × Nat)
deriving DecidableEq, Repr

/-- What the host (or the platform, for reset) can do between two steps of the core (R13, R144). -/
inductive HostMove where
  /-- Write register `n`; `v` must fit the register's width (R14). -/
  | writeReg (n : Nat) (v : Word64)
  /-- Read register `n` (R14). -/
  | readReg (n : Nat)
  /-- Fill one byte of IN (R13, R46). -/
  | writeIn (a : Nat) (v : Byte)
  /-- Write one byte of OUT (R30, R46: the host does neither while BUSY). -/
  | writeOut (a : Nat) (v : Byte)
  /-- Read one byte of OUT (R13). -/
  | readOut (a : Nat)
  /-- Assert reset (R144). -/
  | reset
deriving DecidableEq, Repr

/-- Whose turn it is (R13): one step of the core, or one move of the host. -/
inductive Turn where
  | core
  | host (m : HostMove)
deriving DecidableEq, Repr

/-- The machine: the register file, the core's internal state, the two byte spaces, the hand-over between core and host,
and the model's own fields `agenda`, `readData` and `draws` (log entries 4, 5 and 6). -/
structure State where
  /-- WIDTH to OUT_CAP (R17). -/
  cfg : ConfigRegs
  /-- OUT_LEN and the RES registers (R18). -/
  res : ResultRegs
  /-- STATUS (R16). -/
  status : Status
  /-- The job state machine (R21). -/
  phase : Phase
  /-- The job-local state (R29). -/
  job : Job
  /-- The input space IN (R32). -/
  inp : Memory
  /-- The output space OUT (R33). -/
  out : Memory
  /-- A job was started and the host has not yet read STATUS with DONE = 1 since: it has not ordered itself after the job
  (R41 (b), R42, LP3 of R147; log entry 23). -/
  doneUnread : Bool
  /-- The model's own: the turns still to come, first one first; when it is empty every turn is the core's. -/
  agenda : List Turn
  /-- The model's own: what the host's last read returned, zero-extended. -/
  readData : Word64
  /-- The model's own: how many draws of unspecified values have been made. -/
  draws : Nat
deriving DecidableEq, Repr

/-- Where the machine stops with a fault. The core itself never faults in a state a run can reach (R143 (c)). -/
inductive Fault where
  /-- An access to IN at or above IN_SIZE (R32): a host write there, or a core read in a state no run reaches. Safe. -/
  | outsideIn
  /-- An access to OUT at or above OUT_SIZE (R33): a host access there, or a core write in a state no run reaches. Safe. -/
  | outsideOut
deriving DecidableEq, Repr

/-- Where the model has no step for an action (R143 (b)). All are safe: a refused run proves nothing. -/
inductive Refusal where
  /-- An instruction that has no meaning yet, by its mnemonic; raised by the dispatch alone. Safe. -/
  | notModelled (mnemonic : String)
  /-- An access to a register number outside 0..13 (R14, U16); raised by a host register access. Safe. -/
  | noSuchRegister
  /-- A register write whose value does not fit the register's width (R14); raised by a host register write. Safe. -/
  | valueTooWide
  /-- A START with IN_LEN > IN_SIZE or OUT_CAP > OUT_SIZE (R34, U20); raised by a host write of CTRL. Safe. -/
  | buffersMissing
  /-- A host write of IN or access of OUT while BUSY (R46, D18, U12, U13) or before the host has read DONE = 1 of the job
  (LP3 of R147); raised by a host memory move. Safe. -/
  | hostDuty
deriving DecidableEq, Repr

/-- The state after reset of an instance with these sizes (R30). The job-local state, which R30 leaves unspecified,
holds zeros here (DESIGN CHOICE, log entry 1); the byte spaces list nothing (log entry 2). -/
def State.resetSized (inSize outSize : Nat) : State where
  cfg := { width := 0, height := 0, channels := 0, colorspace := 0, reqChannels := 0, inLen := 0, outCap := 0 }
  res := { outLen := 0, width := 0, height := 0, channels := 0, colorspace := 0 }
  status := { busy := false, done := false, err := false, code := 0 }
  phase := .idle
  job :=
    { jW := 0, jH := 0, jC := 0, jCS := 0, jReq := 0, jInLen := 0, jOutCap := 0, jN := 0
      prev := { r := 0, g := 0, b := 0, a := 0 }
      run := 0, runRem := 0, pixPos := 0, inPos := 0, outPos := 0
      cache := Vector.replicate 64 { r := 0, g := 0, b := 0, a := 0 } }
  inp := { size := inSize, cells := [], drawn := [] }
  out := { size := outSize, cells := [], drawn := [] }
  doneUnread := false
  agenda := []
  readData := 0
  draws := 0

/-- The machine right after reset (R30, R144), with the instance's own sizes (R6). -/
def State.reset : State := State.resetSized Config.inSize Config.outSize

end Sys2Proof.Machine
end

