-- ==== Sys2Proof/Machine/Flags.lean ====
section
/-! DEFINITION. The block's only flags (10_state.md R20): the STATUS bits and codes (R16, R127) and the bits of a CTRL write (R15). -/

namespace Sys2Proof.Machine

/-- The status code of an error (R127). -/
def ErrorCode.number : ErrorCode → BitVec 4
  | .invalidDimensions => 1
  | .invalidChannelCount => 2
  | .bufferSizeMismatch => 3
  | .headerTooShort => 4
  | .badMagic => 5
  | .unexpectedEndOfStream => 6
  | .outputTooSmall => 7

/-- STATUS = 0: no job has run since reset (R16, R30). -/
def Status.cleared : Status := { busy := false, done := false, err := false, code := 0 }

/-- BUSY alone: a job runs (R16). -/
def Status.running : Status := { busy := true, done := false, err := false, code := 0 }

/-- DONE alone: the last job ended well (R98, R118). -/
def Status.succeeded : Status := { busy := false, done := true, err := false, code := 0 }

/-- DONE, ERR and the code: the last job ended with an error (R130). -/
def Status.failed (e : ErrorCode) : Status := { busy := false, done := true, err := true, code := e.number }

/-- STATUS as the host reads it (R16): bit 0 BUSY, bit 1 DONE, bit 2 ERR, bits 7:4 CODE, the rest 0. -/
def Status.word (t : Status) : Word32 :=
  0#24 ++ t.code ++ 0#1 ++ BitVec.ofBool t.err ++ BitVec.ofBool t.done ++ BitVec.ofBool t.busy

/-- The START bit of a CTRL write (R15, bit 0). -/
def ctrlStart (v : Word64) : Bool := v.getLsbD 0

/-- The MODE bit of a CTRL write (R15, bit 1): false is encode, true is decode. -/
def ctrlDecodes (v : Word64) : Bool := v.getLsbD 1

end Sys2Proof.Machine
end

