-- ==== Sys2Proof/Machine/Operands.lean ====
section
/-! DEFINITION. The datapath the two state machines share (40_datapath.md): integer readings, the hash, the delta pipeline, the fit tests, the chunk choice and the reconstruction of a pixel. -/

namespace Sys2Proof.Machine

/-- `u8(v) = v mod 256` (R8). -/
def u8 (v : Int) : Byte := BitVec.ofInt 8 v

/-- `s8(v)`: the two's-complement reading of `u8(v)` (R8). -/
def s8 (v : Int) : Int := (u8 v).toInt

/-- A component as a mathematical integer, 0..255 (R8). -/
def comp (b : Byte) : Int := (b.toNat : Int)

/-- (0,0,0,0), the value of a cleared cache slot (R27). -/
def zeroPixel : Pixel := { r := 0, g := 0, b := 0, a := 0 }

/-- (0,0,0,255), the previous pixel before the first (R23). -/
def initialPixel : Pixel := { r := 0, g := 0, b := 0, a := 255 }

/-- A pixel register at a free value: four slots of one draw (R30, U10). -/
def unspecifiedPixel (draw slot : Nat) : Pixel :=
  { r := Config.freeBits 8 draw slot
    g := Config.freeBits 8 draw (slot + 1)
    b := Config.freeBits 8 draw (slot + 2)
    a := Config.freeBits 8 draw (slot + 3) }

/-- `hash(p) = (r*3 + g*5 + b*7 + a*11) mod 64`, the sum exact (R68). -/
def pixelHash (p : Pixel) : BitVec 6 :=
  BitVec.ofNat 6 (p.r.toNat * 3 + p.g.toNat * 5 + p.b.toNat * 7 + p.a.toNat * 11)

/-- The outputs of the delta pipeline (R71). -/
structure Deltas where
  dr : Int
  dg : Int
  db : Int
  drdg : Int
  dbdg : Int
  aeq : Bool
deriving DecidableEq, Repr

/-- The delta pipeline for a current pixel `p` and the previous pixel `q` (R71). -/
def deltas (p q : Pixel) : Deltas :=
  let dr := s8 (comp p.r - comp q.r)
  let dg := s8 (comp p.g - comp q.g)
  let db := s8 (comp p.b - comp q.b)
  { dr := dr, dg := dg, db := db, drdg := dr - dg, dbdg := db - dg, aeq := decide (p.a = q.a) }

/-- The DIFF fit (R73). -/
def fitsDIFF (p q : Pixel) : Bool :=
  let d := deltas p q
  d.aeq && decide (-2 ≤ d.dr ∧ d.dr ≤ 1) && decide (-2 ≤ d.dg ∧ d.dg ≤ 1) && decide (-2 ≤ d.db ∧ d.db ≤ 1)

/-- The LUMA fit (R74). -/
def fitsLUMA (p q : Pixel) : Bool :=
  let d := deltas p q
  d.aeq && decide (-32 ≤ d.dg ∧ d.dg ≤ 31) && decide (-8 ≤ d.drdg ∧ d.drdg ≤ 7) &&
    decide (-8 ≤ d.dbdg ∧ d.dbdg ≤ 7)

/-- The chunk for a pixel `p` that is not part of a run, `q` the previous pixel and `hit` what slot `hash(p)` holds before it (R75, R96). -/
def chooseChunk (p q hit : Pixel) : Instr :=
  if hit = p then .index (pixelHash p)
  else if p.a = q.a then
    if fitsDIFF p q then .diff (deltas p q).dr (deltas p q).dg (deltas p q).db
    else if fitsLUMA p q then .luma (deltas p q).dg (deltas p q).drdg (deltas p q).dbdg
    else .rgb p.r p.g p.b
  else .rgba p.r p.g p.b p.a

/-- The pixel a DIFF chunk makes from the previous pixel (R76); every sum wraps (R70). -/
def applyDIFF (q : Pixel) (dr dg db : Int) : Pixel :=
  { r := u8 (comp q.r + dr), g := u8 (comp q.g + dg), b := u8 (comp q.b + db), a := q.a }

/-- The pixel a LUMA chunk makes from the previous pixel (R76). -/
def applyLUMA (q : Pixel) (dg drdg dbdg : Int) : Pixel :=
  { r := u8 (comp q.r + dg + drdg), g := u8 (comp q.g + dg), b := u8 (comp q.b + dg + dbdg), a := q.a }

end Sys2Proof.Machine
end

