-- ==== Sys2Proof/Machine/Ops.lean ====
section
/-! DEFINITION. The named operations over the two byte spaces, the cache, the register file and the job-local state, and error entry (60_exceptions.md R130), the block's one exception. -/

namespace Sys2Proof.Machine

/-- The outcome of one step of this machine. -/
abbrev Result := Host.Outcome State Fault Refusal

/-- Go on with `f` where the first part answers a next state (R9: assignments take effect in the order written). -/
def andThen (o : Result) (f : State → Result) : Result :=
  match o with
  | .next s => f s
  | .fault r => .fault r
  | .refused r => .refused r

/-! ### Byte spaces (20_memory.md) -/

/-- The byte listed at an address. -/
def lookupCell : List Host.Cell → Nat → Option Byte
  | [], _ => none
  | (b, w) :: cs, a => if b = a then some w else lookupCell cs a

/-- List a byte at an address, keeping the addresses rising. -/
def putCell (a : Nat) (v : Byte) : List Host.Cell → List Host.Cell
  | [] => [(a, v)]
  | (b, w) :: cs =>
    if a < b then (a, v) :: (b, w) :: cs
    else if a = b then (a, v) :: cs
    else (b, w) :: putCell a v cs

/-- Unlist an address. -/
def dropCell (a : Nat) : List Host.Cell → List Host.Cell
  | [] => []
  | (b, w) :: cs => if b = a then dropCell a cs else (b, w) :: dropCell a cs

/-- The draw that made an unlisted address unspecified, newest first. -/
def drawAt : List (Nat × Nat) → Nat → Option Nat
  | [], _ => none
  | (cap, draw) :: ls, a => if a < cap then some draw else drawAt ls a

/-- What an unlisted address reads as: the free byte of its draw, or 0 (DESIGN CHOICE, log entry 2). -/
def Memory.unlisted (m : Memory) (a : Nat) : Byte :=
  match drawAt m.drawn a with
  | some draw => Config.freeByte draw a
  | none => 0

/-- `MemRead(space, a, 1)` (R9, R36). -/
def Memory.read (m : Memory) (a : Nat) : Byte :=
  match lookupCell m.cells a with
  | some v => v
  | none => m.unlisted a

/-- `MemWrite(space, a, 1, v)` (R9, R36). A 0 at an address no draw covers is what the unlisted address reads as, so it unlists the address. -/
def Memory.write (m : Memory) (a : Nat) (v : Byte) : Memory :=
  if v = 0 ∧ drawAt m.drawn a = none then { m with cells := dropCell a m.cells }
  else { m with cells := putCell a v m.cells }

/-- Byte writes at consecutive rising addresses (R36). -/
def Memory.writeBytes (m : Memory) (a : Nat) : List Byte → Memory
  | [] => m
  | v :: vs => (m.write a v).writeBytes (a + 1) vs

/-- Every address below `cap` takes an unspecified value, drawn anew (R47, R144; "any value, a draw"). -/
def Memory.forget (m : Memory) (cap draw : Nat) : Memory :=
  if cap = 0 then m
  else
    { m with
      cells := m.cells.filter fun c => decide (cap ≤ c.1)
      drawn := (cap, draw) :: m.drawn.filter fun l => decide (cap < l.1) }

/-- Addresses rise strictly from `lo`, stay below `size`, and no listed byte is a 0 that the address would read unlisted. -/
def cellsWf (size : Nat) (drawn : List (Nat × Nat)) : Nat → List Host.Cell → Bool
  | _, [] => true
  | lo, (a, v) :: cs =>
    decide (lo ≤ a ∧ a < size ∧ ¬(v = 0 ∧ drawAt drawn a = none)) && cellsWf size drawn (a + 1) cs

/-- The caps of the draws rise strictly, the first above `lo`. -/
def drawnWf : Nat → List (Nat × Nat) → Bool
  | _, [] => true
  | lo, (cap, _) :: ls => decide (lo < cap) && drawnWf cap ls

/-- The canonical form of a byte space: equal spaces are equal data. -/
def Memory.wf (m : Memory) : Bool := cellsWf m.size m.drawn 0 m.cells && drawnWf 0 m.drawn

/-- Store bytes to OUT at consecutive addresses; an address OUT does not have faults (R33). -/
def storeOut (a : Nat) (vs : List Byte) (s : State) : Result :=
  if a + vs.length ≤ s.out.size then .next { s with out := s.out.writeBytes a vs }
  else .fault .outsideOut

/-- `emit` (41_encoder.md): store stream bytes at `out_pos` and advance it. -/
def emit (vs : List Byte) (s : State) : Result :=
  andThen (storeOut s.job.outPos vs s) fun t =>
    .next { t with job.outPos := t.job.outPos + vs.length }

/-! ### The cache RAM -/

/-- `cache[i]` (R27). -/
def cacheRead (c : Cache) (i : BitVec 6) : Pixel := getElem c i.toNat i.isLt

/-- `cache[hash(p)] <- p` (R79, R80). -/
def cacheStore (c : Cache) (p : Pixel) : Cache := c.set (pixelHash p).toNat p (pixelHash p).isLt

/-- All 64 slots cleared to (0,0,0,0), as every START does (R27, R45, R152). -/
def clearedCache : Cache := Vector.replicate 64 zeroPixel

/-! ### Job-local updates -/

/-- The decoder has used `k` bytes of the stream (R26). -/
def State.advanceIn (s : State) (k : Nat) : State := { s with job.inPos := s.job.inPos + k }

/-- `run_rem <- n` (R25). -/
def State.setRunRem (s : State) (n : Nat) : State := { s with job.runRem := n }

/-- `run <- n` (R24). -/
def State.setRun (s : State) (n : Nat) : State := { s with job.run := n }

/-- `cache[hash(p)] <- p; prev <- p` (R79, R80, R95). -/
def State.remember (s : State) (p : Pixel) : State :=
  { s with job.cache := cacheStore s.job.cache p, job.prev := p }

/-- `pix_pos <- pix_pos + 1` (R26). -/
def State.countPixel (s : State) : State := { s with job.pixPos := s.job.pixPos + 1 }

/-! ### Error entry -/

/-- `raise Error(code)` (R130): the job ends in the step that raises it. OUT is unchanged at START and below the latched
OUT_CAP unspecified in a DEC_PIXEL step (R47); the RES registers are unspecified (R18); nothing is saved, and there is
no return operation (R134). -/
def raiseError (e : ErrorCode) (s : State) : State :=
  { s with
    res :=
      { outLen := 0
        width := Config.freeBits 32 s.draws 0
        height := Config.freeBits 32 s.draws 1
        channels := Config.freeBits 8 s.draws 2
        colorspace := Config.freeBits 8 s.draws 3 }
    status := Status.failed e
    phase := .idle
    out := if s.phase = .decPixel then s.out.forget s.job.jOutCap.toNat s.draws else s.out
    draws := s.draws + 1 }

/-- `need(k)` (R107): a chunk of `k` bytes that does not lie below J_IN_LEN raises UNEXPECTED_END_OF_STREAM before anything changes. -/
def needBytes (k : Nat) (s : State) (go : State → Result) : Result :=
  if s.job.jInLen.toNat < s.job.inPos + k then .next (raiseError .unexpectedEndOfStream s) else go s

/-! ### Producing a pixel (decoder) -/

/-- The bytes a produced pixel is written as (R117): r, g, b, and the internal alpha when four channels are requested. -/
def pixelBytes (req : Byte) (p : Pixel) : List Byte :=
  if req = 4 then [p.r, p.g, p.b, p.a] else [p.r, p.g, p.b]

/-- The end of a decode job (R118): the results are reported and the core returns to IDLE. -/
def finishDecode (s : State) : State :=
  { s with
    res :=
      { outLen := BitVec.ofNat 64 (s.job.jN * s.job.jReq.toNat)
        width := s.job.jW
        height := s.job.jH
        channels := s.job.jC
        colorspace := s.job.jCS }
    status := Status.succeeded
    phase := .idle }

/-- `if pix_pos == J_N: finish` (R106). -/
def finishIfLast (s : State) : State := if s.job.pixPos = s.job.jN then finishDecode s else s

/-- `commit(px)` (R116), then the finish of R118 when it was the last pixel. -/
def produce (px : Pixel) (s : State) : Result :=
  andThen (storeOut (s.job.pixPos * s.job.jReq.toNat) (pixelBytes s.job.jReq px) (s.remember px)) fun t =>
    .next (finishIfLast t.countPixel)

/-! ### The host register file -/

/-- The width of a register, by its number (R14); none outside 0..13. -/
def regWidth : Nat → Option Nat
  | 0 => some 32
  | 1 => some 32
  | 2 => some 32
  | 3 => some 32
  | 4 => some 8
  | 5 => some 8
  | 6 => some 8
  | 7 => some 64
  | 8 => some 64
  | 9 => some 64
  | 10 => some 32
  | 11 => some 32
  | 12 => some 8
  | 13 => some 8
  | _ => none

/-- The value a register reads as, zero-extended (R14): CTRL reads 0 (R15). -/
def regValue (s : State) : Nat → Option Word64
  | 0 => some 0
  | 1 => some (s.status.word.setWidth 64)
  | 2 => some (s.cfg.width.setWidth 64)
  | 3 => some (s.cfg.height.setWidth 64)
  | 4 => some (s.cfg.channels.setWidth 64)
  | 5 => some (s.cfg.colorspace.setWidth 64)
  | 6 => some (s.cfg.reqChannels.setWidth 64)
  | 7 => some s.cfg.inLen
  | 8 => some s.cfg.outCap
  | 9 => some s.res.outLen
  | 10 => some (s.res.width.setWidth 64)
  | 11 => some (s.res.height.setWidth 64)
  | 12 => some (s.res.channels.setWidth 64)
  | 13 => some (s.res.colorspace.setWidth 64)
  | _ => none

/-- Store a value to a configuration register (R17). Any other register keeps its value: STATUS and the result registers
are written by the core alone (R16, R18; DEDUCED, log entry 7). -/
def ConfigRegs.store (c : ConfigRegs) (n : Nat) (v : Word64) : ConfigRegs :=
  match n with
  | 2 => { c with width := v.setWidth 32 }
  | 3 => { c with height := v.setWidth 32 }
  | 4 => { c with channels := v.setWidth 8 }
  | 5 => { c with colorspace := v.setWidth 8 }
  | 6 => { c with reqChannels := v.setWidth 8 }
  | 7 => { c with inLen := v }
  | 8 => { c with outCap := v }
  | _ => c

/-! ### Reset -/

/-- Job-local state with every register at a free value (R30, U10). -/
def Job.unspecified (draw : Nat) : Job :=
  { jW := Config.freeBits 32 draw 4
    jH := Config.freeBits 32 draw 5
    jC := Config.freeBits 8 draw 6
    jCS := Config.freeBits 8 draw 7
    jReq := Config.freeBits 8 draw 8
    jInLen := Config.freeBits 64 draw 9
    jOutCap := Config.freeBits 64 draw 10
    jN := Config.freeNat draw 11
    prev := unspecifiedPixel draw 12
    run := Config.freeNat draw 16
    runRem := Config.freeNat draw 17
    pixPos := Config.freeNat draw 18
    inPos := Config.freeNat draw 19
    outPos := Config.freeNat draw 20
    cache := Vector.ofFn fun i : Fin 64 => unspecifiedPixel draw (21 + 4 * i.val) }

/-- Reset asserted in any state (R144, R30): registers to 0, the job-local state unspecified, a running job abandoned
with the OUT bytes below its OUT_CAP unspecified; IN is not touched. No job is left whose end the host has to read (log
entry 23). The host's own side is not the block's to reset. -/
def resetBlock (s : State) : State :=
  { s with
    cfg := State.reset.cfg
    res := State.reset.res
    status := Status.cleared
    phase := .idle
    job := Job.unspecified s.draws
    out := if s.status.busy then s.out.forget s.job.jOutCap.toNat s.draws else s.out
    doneUnread := false
    draws := s.draws + 1 }

end Sys2Proof.Machine
end

