-- ==== Sys2Proof/Machine/Chunks.lean ====
section
/-! DEFINITION. The meaning of each chunk type in a decode job (42_decoder.md R109 to R114): one DEC_PIXEL step that has read the chunk. -/

namespace Sys2Proof.Machine

/-- Decode RGB (R109): r, g, b from the chunk, alpha from the previous pixel. -/
def execRgb (r g b : Byte) (s : State) : Result :=
  needBytes 4 s fun s => produce { r := r, g := g, b := b, a := s.job.prev.a } (s.advanceIn 4)

/-- Decode RGBA (R110): all four components from the chunk, whatever the header's channels byte. -/
def execRgba (r g b a : Byte) (s : State) : Result :=
  needBytes 5 s fun s => produce { r := r, g := g, b := b, a := a } (s.advanceIn 5)

/-- Decode INDEX (R111): the pixel of the slot; the commit writes it back to the slot of its own hash. -/
def execIndex (i : BitVec 6) (s : State) : Result :=
  produce (cacheRead s.job.cache i) (s.advanceIn 1)

/-- Decode DIFF (R112). -/
def execDiff (dr dg db : Int) (s : State) : Result :=
  produce (applyDIFF s.job.prev dr dg db) (s.advanceIn 1)

/-- Decode LUMA (R113). -/
def execLuma (dg drdg dbdg : Int) (s : State) : Result :=
  needBytes 2 s fun s => produce (applyLUMA s.job.prev dg drdg dbdg) (s.advanceIn 2)

/-- Decode RUN (R114): the first of the `n` pixels; the rest are owed in `run_rem`. -/
def execRun (n : Nat) (s : State) : Result :=
  produce s.job.prev ((s.advanceIn 1).setRunRem (n - 1))

end Sys2Proof.Machine
end

