-- ==== Sys2Proof/Machine/Decoder.lean ====
section
/-! DEFINITION. The decoder state machine (42_decoder.md): validation and START, the reading of a chunk, run continuation, the pixel step. -/

namespace Sys2Proof.Machine

/-- The header as the core reads it from IN (R104, R49). -/
def headerOf (m : Memory) : Header :=
  { width := be32 (m.read 4) (m.read 5) (m.read 6) (m.read 7)
    height := be32 (m.read 8) (m.read 9) (m.read 10) (m.read 11)
    channels := m.read 12
    colorspace := m.read 13 }

/-- Decode validation (R104): the first check that fails, in the rule's order; products exact. -/
def decodeCheck (c : ConfigRegs) (m : Memory) : Option ErrorCode :=
  let h := headerOf m
  if c.inLen.toNat < 14 then some .headerTooShort
  else if [m.read 0, m.read 1, m.read 2, m.read 3] ≠ magic then some .badMagic
  else if h.width = 0 ∨ h.height = 0 then some .invalidDimensions
  else if h.channels ≠ 3 ∧ h.channels ≠ 4 then some .invalidChannelCount
  else if c.reqChannels ≠ 3 ∧ c.reqChannels ≠ 4 then some .invalidChannelCount
  else if c.outCap.toNat < h.width.toNat * h.height.toNat * c.reqChannels.toNat then some .outputTooSmall
  else none

/-- What the START of a decode job latches and initialises (R105). `run` and `out_pos` are the encoder's and keep their values. -/
def latchDecode (s : State) : State :=
  let h := headerOf s.inp
  { s with
    job :=
      { s.job with
        jW := h.width
        jH := h.height
        jC := h.channels
        jCS := h.colorspace
        jReq := s.cfg.reqChannels
        jInLen := s.cfg.inLen
        jOutCap := s.cfg.outCap
        jN := h.width.toNat * h.height.toNat
        cache := clearedCache
        prev := initialPixel
        runRem := 0
        pixPos := 0
        inPos := 14 } }

/-- START of a decode job (R105): validate, latch, begin; no OUT byte is written. -/
def startDecode (s : State) : Result :=
  match decodeCheck s.cfg s.inp with
  | some e => .next (raiseError e s)
  | none => .next { latchDecode s with status := Status.running, phase := .decPixel }

/-- How many bytes the next chunk may take below J_IN_LEN, at most the longest chunk's. -/
def availableLength (s : State) : Nat := min maxChunkLength (s.job.jInLen.toNat - s.job.inPos)

/-- The bytes a chunk may be read from: at `in_pos`, all below J_IN_LEN (R107). -/
def availableBytes (s : State) : List Byte :=
  (List.range (availableLength s)).map fun j => s.inp.read (s.job.inPos + j)

/-- Run continuation (R115): no IN byte is read and no error can be raised. -/
def continueRun (s : State) : Result := produce s.job.prev (s.setRunRem (s.job.runRem - 1))

/-- Read and run one chunk (R106). A chunk that is not wholly below J_IN_LEN ends the job (R107); bytes below J_IN_LEN
that IN does not have fault, in states no run reaches (R32, R34). -/
def runChunk (s : State) : Result :=
  if s.inp.size < s.job.inPos + availableLength s then .fault .outsideIn
  else
    match decode (availableBytes s) with
    | .error .endOfStream => .next (raiseError .unexpectedEndOfStream s)
    | .ok (i, _) => exec i s

/-- One DEC_PIXEL step (R106). -/
def decPixelStep (s : State) : Result := if 0 < s.job.runRem then continueRun s else runChunk s

end Sys2Proof.Machine
end

