-- ==== Sys2Proof/Machine/Encoder.lean ====
section
/-! DEFINITION. The encoder state machine (41_encoder.md): validation and START, the pixel step, the tail step. -/

namespace Sys2Proof.Machine

/-- Encode validation (R83): the first check that fails, in the rule's order; products exact. -/
def encodeCheck (c : ConfigRegs) : Option ErrorCode :=
  if c.width = 0 ∨ c.height = 0 then some .invalidDimensions
  else if c.channels ≠ 3 ∧ c.channels ≠ 4 then some .invalidChannelCount
  else if c.inLen.toNat ≠ c.width.toNat * c.height.toNat * c.channels.toNat then some .bufferSizeMismatch
  else if c.outCap.toNat < 22 + c.width.toNat * c.height.toNat * (c.channels.toNat + 1) then some .outputTooSmall
  else none

/-- What the START of an encode job latches and initialises (R84). `J_REQ`, `run_rem` and `in_pos` are the decoder's and keep their values. -/
def latchEncode (s : State) : State :=
  { s with
    job :=
      { s.job with
        jW := s.cfg.width
        jH := s.cfg.height
        jC := s.cfg.channels
        jCS := s.cfg.colorspace
        jInLen := s.cfg.inLen
        jOutCap := s.cfg.outCap
        jN := s.cfg.width.toNat * s.cfg.height.toNat
        cache := clearedCache
        prev := initialPixel
        run := 0
        pixPos := 0
        outPos := 0 } }

/-- START of an encode job (R84): validate, latch, write the header, begin. -/
def startEncode (s : State) : Result :=
  match encodeCheck s.cfg with
  | some e => .next (raiseError e s)
  | none =>
    let t := latchEncode s
    andThen
      (emit (headerBytes { width := t.job.jW, height := t.job.jH, channels := t.job.jC, colorspace := t.job.jCS }) t)
      fun u => .next { u with status := Status.running, phase := .encPixel }

/-- The number of IN bytes a pixel occupies (R85): the fourth is read only when `J_C` is 4. -/
def pixelStride (jC : Byte) : Nat := if jC = 4 then 4 else 3

/-- `fetch(pix_pos)` (R85): the pixel at `pix_pos * J_C`, alpha 255 for three channels; none where IN lacks a byte of it. -/
def fetchPixel (s : State) : Option Pixel :=
  let base := s.job.pixPos * s.job.jC.toNat
  if base + pixelStride s.job.jC ≤ s.inp.size then
    some
      { r := s.inp.read base
        g := s.inp.read (base + 1)
        b := s.inp.read (base + 2)
        a := if s.job.jC = 4 then s.inp.read (base + 3) else 255 }
  else none

/-- Emit the pending run as one RUN chunk (R88). -/
def emitRun (s : State) : Result :=
  andThen (emit (encode (.run s.job.run)) s) fun t => .next (t.setRun 0)

/-- The flush of a pending run before anything else is written (R89, R98). -/
def flushRun (s : State) : Result := if 0 < s.job.run then emitRun s else .next s

/-- Run extension (R87): a run that reaches 62 is emitted at once. -/
def extendRun (s : State) : Result :=
  let t := s.setRun (s.job.run + 1)
  if t.job.run = 62 then emitRun t else .next t

/-- A pixel that is not part of a run (R86): flush, emit the chosen chunk (R90 to R94), write the cache, update `prev` (R79, R95). -/
def encodePixel (p : Pixel) (s : State) : Result :=
  andThen (flushRun s) fun t =>
    andThen (emit (encode (chooseChunk p t.job.prev (cacheRead t.job.cache (pixelHash p)))) t) fun u =>
      .next (u.remember p)

/-- The pixel is consumed; after the last one the tail step follows (R97). -/
def nextPixel (s : State) : State :=
  let t := s.countPixel
  if t.job.pixPos = t.job.jN then { t with phase := .encTail } else t

/-- One ENC_PIXEL step (R86). -/
def encPixelStep (s : State) : Result :=
  match fetchPixel s with
  | none => .fault .outsideIn
  | some p =>
    andThen (if p = s.job.prev then extendRun s else encodePixel p s) fun t => .next (nextPixel t)

/-- The end of an encode job (R98): OUT_LEN and STATUS; the RES registers are unspecified after it (R18, U7). -/
def finishEncode (s : State) : State :=
  { s with
    res :=
      { outLen := BitVec.ofNat 64 s.job.outPos
        width := Config.freeBits 32 s.draws 0
        height := Config.freeBits 32 s.draws 1
        channels := Config.freeBits 8 s.draws 2
        colorspace := Config.freeBits 8 s.draws 3 }
    status := Status.succeeded
    phase := .idle
    draws := s.draws + 1 }

/-- The ENC_TAIL step (R98). -/
def encTailStep (s : State) : Result :=
  andThen (flushRun s) fun t => andThen (emit endMarker t) fun u => .next (finishEncode u)

end Sys2Proof.Machine
end

