-- ==== Sys2Proof/Machine/HostPort.lean ====
section
/-! DEFINITION. The host interface (10_state.md R13 to R19, 20_memory.md R34, R46): register accesses with the CTRL command, the host's accesses of IN and OUT, and reset. -/

namespace Sys2Proof.Machine

/-- The host has read a value. -/
def State.received (s : State) (v : Word64) : State := { s with readData := v }

/-- The host has read a value that is not defined to it: the free value of a new draw, at the register's width (R148). -/
def State.receivedFree (s : State) (w : Nat) : State :=
  { s with
    readData := (Config.freeBits w s.draws 0).setWidth 64
    draws := s.draws + 1 }

/-- A job begins whose end the host has to read (R42, LP3 of R147). -/
def State.awaitDone (s : State) : State := { s with doneUnread := true }

/-- The host has read STATUS: with BUSY = 0 and DONE = 1 it is ordered after the job (R41 (b), R42, R148). -/
def State.sawStatus (s : State) : State :=
  { s with doneUnread := s.doneUnread && !(!s.status.busy && s.status.done) }

/-- The host may not touch the spaces: a job runs (R46), or its DONE = 1 is still unread (LP3 of R147). -/
def State.spacesHeld (s : State) : Bool := s.status.busy || s.doneUnread

/-- A job has ended and its DONE = 1 is still unread: its results are not defined to the host yet (R148). -/
def State.resultsUnread (s : State) : Bool := s.doneUnread && !s.status.busy

/-- A write of CTRL while no job runs (R15): START = 1 starts the job that MODE names; a START whose buffers the instance
does not have is refused (R34); START = 0 does nothing; the reserved bits are ignored. -/
def writeCtrl (v : Word64) (s : State) : Result :=
  if ctrlStart v then
    if s.inp.size < s.cfg.inLen.toNat ∨ s.out.size < s.cfg.outCap.toNat then .refused .buffersMissing
    else if ctrlDecodes v then startDecode s.awaitDone
    else startEncode s.awaitDone
  else .next s

/-- A host register write (R14, R15, R17); while BUSY it changes nothing (R19). -/
def hostWriteReg (n : Nat) (v : Word64) (s : State) : Result :=
  match regWidth n with
  | none => .refused .noSuchRegister
  | some w =>
    if 2 ^ w ≤ v.toNat then .refused .valueTooWide
    else if s.status.busy then .next s
    else if n = 0 then writeCtrl v s
    else .next { s with cfg := s.cfg.store n v }

/-- A host register read (R14): it changes nothing of the block. A read of STATUS is the ordering point of R42. OUT_LEN and
the RES registers read as free values from the end of a job until the host has read DONE = 1 (R148; log entry 23); while
BUSY they read the job before (R148). -/
def hostReadReg (n : Nat) (s : State) : Result :=
  match regValue s n with
  | none => .refused .noSuchRegister
  | some v =>
    if n = 1 then .next (s.received v).sawStatus
    else if 9 ≤ n ∧ s.resultsUnread = true then .next (s.receivedFree ((regWidth n).getD 0))
    else .next (s.received v)

/-- A host write of one IN byte; a duty the host keeps while BUSY (R46) and until it has read DONE = 1 (LP3 of R147). -/
def hostWriteIn (a : Nat) (v : Byte) (s : State) : Result :=
  if s.spacesHeld then .refused .hostDuty
  else if a < s.inp.size then .next { s with inp := s.inp.write a v }
  else .fault .outsideIn

/-- A host write of one OUT byte; a duty the host keeps while BUSY (R46) and until it has read DONE = 1 (LP3 of R147). -/
def hostWriteOut (a : Nat) (v : Byte) (s : State) : Result :=
  if s.spacesHeld then .refused .hostDuty else storeOut a [v] s

/-- A host read of one OUT byte; a duty the host keeps while BUSY (R46) and until it has read DONE = 1 (LP3 of R147): from
then on the job's OUT writes are visible to it (R41 (b)). -/
def hostReadOut (a : Nat) (s : State) : Result :=
  if s.spacesHeld then .refused .hostDuty
  else if a < s.out.size then .next (s.received ((s.out.read a).setWidth 64))
  else .fault .outsideOut

/-- One move of the host. -/
def hostStep (m : HostMove) (s : State) : Result :=
  match m with
  | .writeReg n v => hostWriteReg n v s
  | .readReg n => hostReadReg n s
  | .writeIn a v => hostWriteIn a v s
  | .writeOut a v => hostWriteOut a v s
  | .readOut a => hostReadOut a s
  | .reset => .next (resetBlock s)

/-- One turn of the core: a step of the job state machine (R21); in IDLE it does nothing (R142, R145). -/
def coreStep (s : State) : Result :=
  match s.phase with
  | .idle => .next s
  | .encPixel => encPixelStep s
  | .encTail => encTailStep s
  | .decPixel => decPixelStep s

/-- The first turn of the agenda is taken off. -/
def State.popTurn (s : State) (rest : List Turn) : State := { s with agenda := rest }

/-- One step of the machine: the next turn of the agenda; when none is left every turn is the core's, so an enabled core
step is always taken in the end (R155). -/
def takeTurn (s : State) : Result :=
  match s.agenda with
  | [] => coreStep s
  | .core :: rest => coreStep (s.popTurn rest)
  | .host m :: rest => hostStep m (s.popTurn rest)

/-- The stream of a 64 by 1 image of four channels up to its first chunk (R49). -/
def probeHeader : Header := { width := 64, height := 1, channels := 4, colorspace := 0 }

/-- A decode job started on `probeHeader` with room for one chunk, by the host's sequence of R146; the spaces get 2^64
bytes, all that 64-bit lengths can name. -/
def beginProbeJob (s : State) : State :=
  let t :=
    { s with
      inp := { s.inp with size := 2 ^ 64 }.writeBytes 0 (headerBytes probeHeader)
      out := { s.out with size := 2 ^ 64 }
      cfg :=
        { s.cfg with
          reqChannels := 4
          inLen := BitVec.ofNat 64 (14 + maxChunkLength)
          outCap := 256 } }
  match startDecode t.awaitDone with
  | .next u => u
  | .fault _ => t
  | .refused _ => t

/-- Place chunk bytes at `in_pos` of a decode job, below J_IN_LEN, with no run pending and the turn the core's. -/
def placeChunk (bytes : List Byte) (s : State) : State :=
  let last := s.job.inPos + bytes.length
  { s with
    agenda := .core :: s.agenda
    inp := { s.inp with size := max s.inp.size last }.writeBytes s.job.inPos bytes
    job :=
      { s.job with
        runRem := 0
        jInLen := BitVec.ofNat 64 (max s.job.jInLen.toNat last) } }

end Sys2Proof.Machine
end

