-- ==== Sys2Proof/Machine/Step.lean ====
section
/-! DEFINITION. One step of the machine, and the host's way to make the very next step run one chunk. -/

namespace Sys2Proof.Machine

/-- One step: one turn of the core or one move of the host (R13; 92_eei_decisions.md D1). -/
def step (s : State) : Host.Outcome State Fault Refusal := takeTurn s

/-- `s` with the chunk of a table word stored where the next DEC_PIXEL step reads it: at `in_pos` of the running decode
job, or of a decode job started for it (log entry 11). -/
def State.withFetchWord (s : State) (nbits w : Nat) : State :=
  placeChunk (wordBytes nbits w) (if s.phase = .decPixel then s else beginProbeJob s)

end Sys2Proof.Machine
end

