-- ==== Sys2Proof/Safety.lean ====
section
/-! DEFINITION. What the claims speak of: the invariant of the machine, the state a job is in when the core may step without stopping, and the frames of a step. -/

namespace Sys2Proof.Machine

/-- The four legal combinations of STATUS (R16), with the codes that R127 reports. -/
def Status.legal (t : Status) : Bool :=
  decide (t = Status.cleared) || decide (t = Status.running) || decide (t = Status.succeeded) ||
    (!t.busy && t.done && t.err && decide (t.code ≠ 0 ∧ t.code.toNat ≤ 7))

/-- Every slot of the cache holds (0,0,0,0) or a pixel whose hash is the slot's number (R81). -/
def CacheHashed (c : Cache) : Prop := ∀ i : BitVec 6, cacheRead c i = zeroPixel ∨ pixelHash (cacheRead c i) = i

/-- The pixel at position `k` of a raw pixel buffer of `c` channels (R85). -/
def pixelAt (m : Memory) (c : Byte) (k : Nat) : Pixel :=
  { r := m.read (k * c.toNat)
    g := m.read (k * c.toNat + 1)
    b := m.read (k * c.toNat + 2)
    a := if c = 4 then m.read (k * c.toNat + 3) else 255 }

/-- What holds of a running encode job between steps. -/
structure EncodeOk (s : State) : Prop where
  /-- `J_N` is the pixel count and not 0 (R22, R83). -/
  total : s.job.jN = s.job.jW.toNat * s.job.jH.toNat ∧ 0 < s.job.jN
  /-- Three or four channels (R83). -/
  channels : s.job.jC = 3 ∨ s.job.jC = 4
  /-- The raw pixel buffer fills IN_LEN and lies in IN (R83, R34). -/
  input : s.job.jInLen.toNat = s.job.jN * s.job.jC.toNat ∧ s.job.jInLen.toNat ≤ s.inp.size
  /-- The longest stream of such an image fits OUT_CAP, which lies in OUT (R83, R34). -/
  capacity : 22 + s.job.jN * (s.job.jC.toNat + 1) ≤ s.job.jOutCap.toNat ∧ s.job.jOutCap.toNat ≤ s.out.size
  /-- At most `J_N` pixels are consumed (R26). -/
  position : s.job.pixPos ≤ s.job.jN
  /-- `prev` is the pixel consumed by the step before, (0,0,0,255) before the first (R95). -/
  previous : s.job.prev = if s.job.pixPos = 0 then initialPixel else pixelAt s.inp s.job.jC (s.job.pixPos - 1)
  /-- `run` is 0..61 between steps (R24, R87). -/
  runCap : s.job.run ≤ 61
  /-- The header is written, and every consumed pixel is in a chunk or in the pending run (R99). -/
  lower : 14 ≤ s.job.outPos ∧ (0 < s.job.pixPos → 0 < s.job.run ∨ 15 ≤ s.job.outPos)
  /-- A pixel's chunk takes at most `J_C + 1` bytes, and a flush is paid for by the pixels before it (R99). -/
  upper : s.job.outPos + (if 0 < s.job.run then 1 else 0) ≤ 14 + s.job.pixPos * (s.job.jC.toNat + 1)

/-- What holds of a running decode job between steps. -/
structure DecodeOk (s : State) : Prop where
  /-- `J_N` is the pixel count of the header (R22, R104). -/
  total : s.job.jN = s.job.jW.toNat * s.job.jH.toNat
  /-- The header's channels byte is 3 or 4 (R104). -/
  channels : s.job.jC = 3 ∨ s.job.jC = 4
  /-- Three or four channels are requested (R104). -/
  request : s.job.jReq = 3 ∨ s.job.jReq = 4
  /-- The stream read so far lies below J_IN_LEN, which lies in IN (R107, R34). -/
  input : 14 ≤ s.job.inPos ∧ s.job.inPos ≤ s.job.jInLen.toNat ∧ s.job.jInLen.toNat ≤ s.inp.size
  /-- The raw pixel buffer fits OUT_CAP, which lies in OUT (R104, R34). -/
  capacity : s.job.jN * s.job.jReq.toNat ≤ s.job.jOutCap.toNat ∧ s.job.jOutCap.toNat ≤ s.out.size
  /-- A pixel is still owed (R106). -/
  position : s.job.pixPos < s.job.jN
  /-- A RUN chunk owes at most 61 more pixels (R25). -/
  runCap : s.job.runRem ≤ 61

/-- The invariant of the machine: it holds after reset and every step keeps it. -/
structure MachineInv (s : State) : Prop where
  /-- IN is in its canonical form. -/
  inpWf : s.inp.wf = true
  /-- OUT is in its canonical form. -/
  outWf : s.out.wf = true
  /-- STATUS is a legal combination (R16). -/
  status : s.status.legal = true
  /-- BUSY exactly when a job runs (R21). -/
  busy : s.status.busy = true ↔ s.phase ≠ .idle
  /-- The end of a running job is unread, and an unread end is still to come or shown by STATUS (R42). -/
  unread : (s.status.busy = true → s.doneUnread = true) ∧
    (s.doneUnread = true → s.status.busy = true ∨ s.status.done = true)
  /-- The cache of a running job is hash-addressed (R81). -/
  cache : s.phase ≠ .idle → CacheHashed s.job.cache
  /-- A running encode job (R86): a pixel is still to be consumed. -/
  encPixel : s.phase = .encPixel → EncodeOk s ∧ s.job.pixPos < s.job.jN
  /-- An encode job about to end (R97): every pixel is consumed. -/
  encTail : s.phase = .encTail → EncodeOk s ∧ s.job.pixPos = s.job.jN
  /-- A running decode job (R106). -/
  decPixel : s.phase = .decPixel → DecodeOk s

/-- The next turn is the core's (R13). -/
def CoreTurn (s : State) : Prop := s.agenda = [] ∨ ∃ rest, s.agenda = .core :: rest

/-- What no step of the core changes: the configuration registers, IN, and what the host has read (R17, R32, R42). -/
structure CoreFrame (s t : State) : Prop where
  cfg : t.cfg = s.cfg
  inp : t.inp = s.inp
  readData : t.readData = s.readData
  doneUnread : t.doneUnread = s.doneUnread

/-- The parameters of a job, latched at START and constant for the job (R22). -/
structure SameParameters (a b : Job) : Prop where
  jW : b.jW = a.jW
  jH : b.jH = a.jH
  jC : b.jC = a.jC
  jCS : b.jCS = a.jCS
  jReq : b.jReq = a.jReq
  jInLen : b.jInLen = a.jInLen
  jOutCap : b.jOutCap = a.jOutCap
  jN : b.jN = a.jN

end Sys2Proof.Machine
end

