-- ==== Sys2Proof/Certificates/Slice0/Obligations.lean ====
section
/-! DEFINITION. The statements for the provers, with the vocabulary they share: what a step does to each part of the state, and its frame. -/

namespace Sys2Proof.Claims

open Sys2Proof Sys2Proof.Machine

/-- The state a turn starts from: the machine with that turn taken off the agenda. -/
def turnTaken (s : State) : State := s.popTurn s.agenda.tail

/-- The next turn is this move of the host. -/
def HostTurn (m : HostMove) (s : State) : Prop := ∃ rest, s.agenda = .host m :: rest

/-- How many OUT bytes a produced pixel takes (R116). -/
def lanes (req : Byte) : Nat := if req = 4 then 4 else 3

/-- The OUT address a produced pixel is written to (R26, R116). -/
def pixelAddress (s : State) : Nat := s.job.pixPos * s.job.jReq.toNat

/-- OUT has the addresses of the next pixel. -/
def HasRoom (s : State) : Prop := pixelAddress s + lanes s.job.jReq ≤ s.out.size

/-- `t` is `s` after a decode job has produced `px` (R116, R118), having used `used` stream bytes and owing `owed` pixels
of a RUN: every part that changes, and the frame of all the rest. `modelSide` is about the model's own fields (log entries
4 and 6); that the last pixel leaves the job-local state as committed is log entry 16. -/
structure Produces (s t : State) (px : Pixel) (used owed : Nat) : Prop where
  prev : t.job.prev = px
  ownSlot : cacheRead t.job.cache (pixelHash px) = px
  otherSlots : ∀ i, i ≠ pixelHash px → cacheRead t.job.cache i = cacheRead s.job.cache i
  inPos : t.job.inPos = s.job.inPos + used
  runRem : t.job.runRem = owed
  pixPos : t.job.pixPos = s.job.pixPos + 1
  red : t.out.read (pixelAddress s) = px.r
  green : t.out.read (pixelAddress s + 1) = px.g
  blue : t.out.read (pixelAddress s + 2) = px.b
  alpha : s.job.jReq = 4 → t.out.read (pixelAddress s + 3) = px.a
  otherBytes : ∀ a, a < pixelAddress s ∨ pixelAddress s + lanes s.job.jReq ≤ a → t.out.read a = s.out.read a
  outSize : t.out.size = s.out.size
  parameters : SameParameters s.job t.job
  encoderSide : t.job.run = s.job.run ∧ t.job.outPos = s.job.outPos
  frame : CoreFrame s t
  modelSide : t.agenda = s.agenda ∧ t.draws = s.draws
  /-- The last pixel ends the job and reports it (R118). -/
  last : s.job.pixPos + 1 = s.job.jN →
    t.res.outLen = BitVec.ofNat 64 (s.job.jN * s.job.jReq.toNat) ∧ t.res.width = s.job.jW ∧
      t.res.height = s.job.jH ∧ t.res.channels = s.job.jC ∧ t.res.colorspace = s.job.jCS ∧
      t.status.word = 2 ∧ t.phase = .idle
  notLast : s.job.pixPos + 1 ≠ s.job.jN → t.res = s.res ∧ t.status = s.status ∧ t.phase = s.phase

/-- `t` is `s` after UNEXPECTED_END_OF_STREAM (R107, R130): OUT at and above the latched OUT_CAP keeps its bytes,
and below it and in the RES registers nothing is claimed. That the job-local state stays (`job`) is log entry 16. -/
structure Truncates (s t : State) : Prop where
  status : t.status.word = 0x66
  outLen : t.res.outLen = 0
  phase : t.phase = .idle
  job : t.job = s.job
  outAbove : ∀ a, s.job.jOutCap.toNat ≤ a → t.out.read a = s.out.read a
  outSize : t.out.size = s.out.size
  frame : CoreFrame s t
  agenda : t.agenda = s.agenda

/-- `t` is `s` after a START that failed validation with this code (R130, R131): OUT unchanged.
That the job-local state stays (`job`) is log entry 16; that its end is unread is log entry 23. -/
structure FailsAtStart (s t : State) (code : Nat) : Prop where
  status : t.status.word.toNat = 6 + 16 * code
  outLen : t.res.outLen = 0
  phase : t.phase = .idle
  job : t.job = s.job
  out : t.out = s.out
  frame : CoreFrame s.awaitDone t
  agenda : t.agenda = s.agenda

/-- What every successful START sets (R29, R84, R105) and leaves. `modelSide` is about the model's own fields (log entries 4
and 6); that its end is unread is log entry 23. -/
structure Starts (s t : State) : Prop where
  status : t.status.word = 1
  inLen : t.job.jInLen = s.cfg.inLen
  outCap : t.job.jOutCap = s.cfg.outCap
  cache : ∀ i, cacheRead t.job.cache i = { r := 0, g := 0, b := 0, a := 0 }
  prev : t.job.prev = { r := 0, g := 0, b := 0, a := 255 }
  pixPos : t.job.pixPos = 0
  res : t.res = s.res
  frame : CoreFrame s.awaitDone t
  modelSide : t.agenda = s.agenda ∧ t.draws = s.draws

/-- `t` is `s` after a successful START of an encode job (R84). `decoderSide` is log entry 18. -/
structure StartsEncode (s t : State) : Prop extends Starts s t where
  phase : t.phase = .encPixel
  width : t.job.jW = s.cfg.width
  height : t.job.jH = s.cfg.height
  channels : t.job.jC = s.cfg.channels
  colorspace : t.job.jCS = s.cfg.colorspace
  total : t.job.jN = s.cfg.width.toNat * s.cfg.height.toNat
  run : t.job.run = 0
  outPos : t.job.outPos = 14
  magicBytes : t.out.read 0 = 0x71 ∧ t.out.read 1 = 0x6F ∧ t.out.read 2 = 0x69 ∧ t.out.read 3 = 0x66
  widthBytes : ∀ j, j < 4 → (t.out.read (4 + j)).toNat = s.cfg.width.toNat / 256 ^ (3 - j) % 256
  heightBytes : ∀ j, j < 4 → (t.out.read (8 + j)).toNat = s.cfg.height.toNat / 256 ^ (3 - j) % 256
  lastBytes : t.out.read 12 = s.cfg.channels ∧ t.out.read 13 = s.cfg.colorspace
  otherBytes : ∀ a, 14 ≤ a → t.out.read a = s.out.read a
  decoderSide : t.job.jReq = s.job.jReq ∧ t.job.runRem = s.job.runRem ∧ t.job.inPos = s.job.inPos

/-- The header's 32-bit number at an IN address, big-endian (`be32` of R104). -/
def headerNumber (m : Memory) (a : Nat) : Nat :=
  (m.read a).toNat * 2 ^ 24 + (m.read (a + 1)).toNat * 2 ^ 16 + (m.read (a + 2)).toNat * 2 ^ 8 + (m.read (a + 3)).toNat

/-- `t` is `s` after a successful START of a decode job (R105). `encoderSide` is log entry 18. -/
structure StartsDecode (s t : State) : Prop extends Starts s t where
  phase : t.phase = .decPixel
  width : t.job.jW.toNat = headerNumber s.inp 4
  height : t.job.jH.toNat = headerNumber s.inp 8
  channels : t.job.jC = s.inp.read 12
  colorspace : t.job.jCS = s.inp.read 13
  request : t.job.jReq = s.cfg.reqChannels
  total : t.job.jN = headerNumber s.inp 4 * headerNumber s.inp 8
  runRem : t.job.runRem = 0
  inPos : t.job.inPos = 14
  out : t.out = s.out
  encoderSide : t.job.run = s.job.run ∧ t.job.outPos = s.job.outPos

/-- A write of CTRL with these low bits (R15): `v` fits the register. -/
def CtrlWrite (v : Word64) (start mode : Bool) : Prop :=
  v.toNat < 2 ^ 32 ∧ v.getLsbD 0 = start ∧ v.getLsbD 1 = mode

/-- The instance has the buffers that the registers describe (LP2 of R147). -/
def BuffersExist (s : State) : Prop := s.cfg.inLen.toNat ≤ s.inp.size ∧ s.cfg.outCap.toNat ≤ s.out.size

/-- What no encode step changes, and how its job moves on (R86, R97). -/
structure EncodeFrame (s t : State) : Prop where
  frame : CoreFrame s t
  res : t.res = s.res
  status : t.status = s.status
  modelSide : t.agenda = s.agenda ∧ t.draws = s.draws
  phase : t.phase = if s.job.pixPos + 1 = s.job.jN then .encTail else .encPixel

/-- `t` has exactly these bytes of OUT written over `s`, from `out_pos` on. -/
structure Emits (s t : State) (bytes : List Byte) : Prop where
  written : ∀ j, (h : j < bytes.length) → t.out.read (s.job.outPos + j) = bytes[j]
  otherBytes : ∀ a, a < s.job.outPos ∨ s.job.outPos + bytes.length ≤ a → t.out.read a = s.out.read a
  outSize : t.out.size = s.out.size

/-- The bytes that a pending run of `n` pixels is flushed as (R88, R89): none without one. -/
def flushed (n : Nat) : List Byte := if 0 < n then [BitVec.ofNat 8 (0xC0 + (n - 1))] else []

/-- The pixel at `pix_pos` lies in IN (R85). -/
def PixelExists (s : State) : Prop :=
  s.job.pixPos * s.job.jC.toNat + (if s.job.jC = 4 then 4 else 3) ≤ s.inp.size

/-- The pixel an encode step consumes (R85). -/
def currentPixel (s : State) : Pixel := pixelAt s.inp s.job.jC s.job.pixPos

/-- The bytes of the chunk an encode step chooses for a pixel that is not part of a run (R75). -/
def chunkBytes (s : State) : List Byte :=
  encode (chooseChunk (currentPixel s) s.job.prev (cacheRead s.job.cache (pixelHash (currentPixel s))))

/-- The encoder's cache against the decoder's (R81): equal, but for slot 53 where the decoder may have recorded a run of
(0,0,0,255) at the very start that the encoder did not. -/
def CachesAgree (enc dec : Cache) : Prop :=
  ∀ i, cacheRead dec i = cacheRead enc i ∨
    (i = 53 ∧ cacheRead enc i = { r := 0, g := 0, b := 0, a := 0 } ∧
      cacheRead dec i = { r := 0, g := 0, b := 0, a := 255 })

end Sys2Proof.Claims

open Sys2Proof Sys2Proof.Machine Sys2Proof.Claims

/-! ### Encoding -/

/-- Decode and encode agree (R54 to R60): no bit of an encoding is dropped, whatever follows the chunk. -/
def Obligations.DecodeOfEncodeGivesTheChunk : Prop :=
  ∀ (i : Instr) (rest : List Byte), i.wf = true → decode (encode i ++ rest) = .ok (i, rest)

/-- Every byte string has at most one reading: what the decoder takes off is the encoding of a well-formed chunk. -/
def Obligations.DecodedBytesAreTheEncoding : Prop :=
  ∀ (bytes : List Byte) (i : Instr) (rest : List Byte), decode bytes = .ok (i, rest) →
    i.wf = true ∧ bytes = encode i ++ rest

/-- The decoder refuses only bytes that are too few (R52, R61, R62). -/
def Obligations.DecodeRefusesOnlyShortBytes : Prop :=
  decode [] = .error .endOfStream ∧
    ∀ (b0 : Byte) (tail : List Byte),
      (tail.length + 1 < chunkLength b0 → decode (b0 :: tail) = .error .endOfStream) ∧
        (chunkLength b0 ≤ tail.length + 1 →
          ∃ i rest, decode (b0 :: tail) = .ok (i, rest) ∧ (encode i).length = chunkLength b0)

/-- R53: the first byte decides the chunk type, the two 8-bit tags before the 2-bit ones. -/
def Obligations.FirstByteSelectsChunkByPriority : Prop :=
  ∀ (b0 : Byte) (tail : List Byte), 4 ≤ tail.length →
    ∃ i rest, decode (b0 :: tail) = .ok (i, rest) ∧
      (b0 = 0xFE → ∃ r g b, i = .rgb r g b) ∧
      (b0 = 0xFF → ∃ r g b a, i = .rgba r g b a) ∧
      (b0.extractLsb' 6 2 = 0b00#2 → ∃ k, i = .index k) ∧
      (b0.extractLsb' 6 2 = 0b01#2 → ∃ dr dg db, i = .diff dr dg db) ∧
      (b0.extractLsb' 6 2 = 0b10#2 → ∃ dg drdg dbdg, i = .luma dg drdg dbdg) ∧
      (b0.extractLsb' 6 2 = 0b11#2 → b0 ≠ 0xFE → b0 ≠ 0xFF → ∃ n, i = .run n)

/-- A few words written out bit by bit from R54 to R59 decode to the chunks they stand for. -/
def Obligations.SampleWordsDecode : Prop :=
  decodeTableWord 32 0b00011110_00010100_00001010_11111110 = some (.rgb 10 20 30) ∧
    decodeTableWord 40 0b00000100_00000011_00000010_00000001_11111111 = some (.rgba 1 2 3 4) ∧
    decodeTableWord 8 0b00_001001 = some (.index 9) ∧
    decodeTableWord 8 0b01_11_10_01 = some (.diff 1 0 (-1)) ∧
    decodeTableWord 16 0b1000_0111_10_011011 = some (.luma (-5) 0 (-1)) ∧
    decodeTableWord 8 0b11_000010 = some (.run 3)

/-- R49, R35: a header in IN reads back as its descriptor, and its first four bytes are the magic. -/
def Obligations.HeaderReadsBackBigEndian : Prop :=
  ∀ (h : Header) (m : Memory), (∀ j, (hj : j < (headerBytes h).length) → m.read j = (headerBytes h)[j]) →
    headerOf m = h ∧ [m.read 0, m.read 1, m.read 2, m.read 3] = [0x71, 0x6F, 0x69, 0x66] ∧
      headerNumber m 4 = h.width.toNat ∧ headerNumber m 8 = h.height.toNat

/-- R59, R64, R100: the byte of a well-formed RUN is 0xC0 + (n - 1) and never one of the 8-bit tags. -/
def Obligations.RunByteIsNeverAnEightBitTag : Prop :=
  ∀ n : Nat, (Instr.run n).wf = true →
    ∃ b : Byte, encode (.run n) = [b] ∧ b.toNat = 0xC0 + (n - 1) ∧ b ≠ 0xFE ∧ b ≠ 0xFF

/-! ### Datapath -/

/-- R68, R69: the hash is the exact weighted sum modulo 64, and so the low six bits of the same sum taken with
wrap-around in any width of six bits or more. -/
def Obligations.HashIsLowSixBitsInAnyWidth : Prop :=
  (∀ p : Pixel, (pixelHash p).toNat = (p.r.toNat * 3 + p.g.toNat * 5 + p.b.toNat * 7 + p.a.toNat * 11) % 64) ∧
  ∀ (w : Nat) (p : Pixel), 6 ≤ w →
    pixelHash p = (p.r.setWidth w * 3 + p.g.setWidth w * 5 + p.b.setWidth w * 7 + p.a.setWidth w * 11).setWidth 6

/-- R71: each lane's delta is the wrapped difference read as a signed byte; the coupled deltas are exact. -/
def Obligations.DeltasAreWrappedSignedDifferences : Prop :=
  ∀ p q : Pixel,
    (-128 ≤ (deltas p q).dr ∧ (deltas p q).dr ≤ 127 ∧
        ((deltas p q).dr - ((p.r.toNat : Int) - q.r.toNat)) % 256 = 0) ∧
      (-128 ≤ (deltas p q).dg ∧ (deltas p q).dg ≤ 127 ∧
        ((deltas p q).dg - ((p.g.toNat : Int) - q.g.toNat)) % 256 = 0) ∧
      (-128 ≤ (deltas p q).db ∧ (deltas p q).db ≤ 127 ∧
        ((deltas p q).db - ((p.b.toNat : Int) - q.b.toNat)) % 256 = 0) ∧
      (deltas p q).drdg = (deltas p q).dr - (deltas p q).dg ∧
      (deltas p q).dbdg = (deltas p q).db - (deltas p q).dg ∧
      ((deltas p q).aeq = true ↔ p.a = q.a)

/-- R77: reconstruction inverts the delta pipeline wherever a fit test passes. -/
def Obligations.ReconstructionInvertsDeltas : Prop :=
  ∀ p q : Pixel,
    (fitsDIFF p q = true → applyDIFF q (deltas p q).dr (deltas p q).dg (deltas p q).db = p) ∧
      (fitsLUMA p q = true → applyLUMA q (deltas p q).dg (deltas p q).drdg (deltas p q).dbdg = p)

/-- R73, R72, R74: the DIFF fit is the test of R73; wrapping the coupled deltas once more changes no LUMA fit; every DIFF
fit is a LUMA fit. -/
def Obligations.LumaFitDoesNotSeeTheWrap : Prop :=
  ∀ p q : Pixel,
    (fitsDIFF p q = true ↔
        p.a = q.a ∧ (-2 ≤ (deltas p q).dr ∧ (deltas p q).dr ≤ 1) ∧ (-2 ≤ (deltas p q).dg ∧ (deltas p q).dg ≤ 1) ∧
          (-2 ≤ (deltas p q).db ∧ (deltas p q).db ≤ 1)) ∧
      (fitsLUMA p q = true ↔
        p.a = q.a ∧ (-32 ≤ (deltas p q).dg ∧ (deltas p q).dg ≤ 31) ∧
          (-8 ≤ s8 (deltas p q).drdg ∧ s8 (deltas p q).drdg ≤ 7) ∧
          (-8 ≤ s8 (deltas p q).dbdg ∧ s8 (deltas p q).dbdg ≤ 7)) ∧
      (fitsLUMA p q = true → s8 (deltas p q).drdg = (deltas p q).drdg ∧ s8 (deltas p q).dbdg = (deltas p q).dbdg) ∧
      (fitsDIFF p q = true → fitsLUMA p q = true)

/-- R90 to R94, R96: the bytes emitted for a pixel that is not part of a run, by the condition of each rule. -/
def Obligations.ChunkBytesFollowTheConditions : Prop :=
  ∀ p q hit : Pixel,
    (hit = p → encode (chooseChunk p q hit) = [BitVec.ofNat 8 (pixelHash p).toNat]) ∧
      (hit ≠ p → p.a = q.a → fitsDIFF p q = true →
        encode (chooseChunk p q hit) =
          [BitVec.ofInt 8 (0x40 + ((deltas p q).dr + 2) * 16 + ((deltas p q).dg + 2) * 4 + ((deltas p q).db + 2))]) ∧
      (hit ≠ p → p.a = q.a → fitsDIFF p q = false → fitsLUMA p q = true →
        encode (chooseChunk p q hit) =
          [BitVec.ofInt 8 (0x80 + ((deltas p q).dg + 32)),
            BitVec.ofInt 8 (((deltas p q).drdg + 8) * 16 + ((deltas p q).dbdg + 8))]) ∧
      (hit ≠ p → p.a = q.a → fitsDIFF p q = false → fitsLUMA p q = false →
        encode (chooseChunk p q hit) = [0xFE, p.r, p.g, p.b]) ∧
      (hit ≠ p → p.a ≠ q.a → encode (chooseChunk p q hit) = [0xFF, p.r, p.g, p.b, p.a])

/-- R64: the encoder never chooses a chunk whose operands are out of range. -/
def Obligations.ChosenChunkIsWellFormed : Prop :=
  ∀ p q hit : Pixel, (chooseChunk p q hit).wf = true

/-! ### The meaning of each chunk -/

/-- R109: RGB keeps the previous alpha; fewer than four bytes end the job. -/
def Obligations.RgbProducesItsPixel : Prop :=
  (∀ (r g b : Byte) (tail : List Byte), decode (0xFE :: r :: g :: b :: tail) = .ok (.rgb r g b, tail)) ∧
    ∀ (s : State) (r g b : Byte),
      (s.job.inPos + 4 ≤ s.job.jInLen.toNat → HasRoom s →
        ∃ t, exec (.rgb r g b) s = .next t ∧
          Produces s t { r := r, g := g, b := b, a := s.job.prev.a } 4 s.job.runRem) ∧
      (s.job.jInLen.toNat < s.job.inPos + 4 → ∃ t, exec (.rgb r g b) s = .next t ∧ Truncates s t)

/-- R110: RGBA replaces all four components; fewer than five bytes end the job. -/
def Obligations.RgbaProducesItsPixel : Prop :=
  (∀ (r g b a : Byte) (tail : List Byte),
      decode (0xFF :: r :: g :: b :: a :: tail) = .ok (.rgba r g b a, tail)) ∧
    ∀ (s : State) (r g b a : Byte),
      (s.job.inPos + 5 ≤ s.job.jInLen.toNat → HasRoom s →
        ∃ t, exec (.rgba r g b a) s = .next t ∧ Produces s t { r := r, g := g, b := b, a := a } 5 s.job.runRem) ∧
      (s.job.jInLen.toNat < s.job.inPos + 5 → ∃ t, exec (.rgba r g b a) s = .next t ∧ Truncates s t)

/-- R111: INDEX produces the pixel of its slot; the commit writes that pixel's own hash slot. -/
def Obligations.IndexProducesTheSlot : Prop :=
  (∀ (b0 : Byte) (tail : List Byte), b0.toNat < 0x40 →
      decode (b0 :: tail) = .ok (.index (BitVec.ofNat 6 b0.toNat), tail)) ∧
    ∀ (s : State) (i : BitVec 6), HasRoom s →
      ∃ t, exec (.index i) s = .next t ∧ Produces s t (cacheRead s.job.cache i) 1 s.job.runRem

/-- R112: DIFF adds its deltas to the previous pixel, each component modulo 256, alpha copied. -/
def Obligations.DiffAddsItsDeltas : Prop :=
  (∀ (b0 : Byte) (tail : List Byte), 0x40 ≤ b0.toNat → b0.toNat < 0x80 →
      decode (b0 :: tail) =
        .ok (.diff ((b0.toNat / 16 % 4 : Nat) - 2) ((b0.toNat / 4 % 4 : Nat) - 2) ((b0.toNat % 4 : Nat) - 2), tail)) ∧
    ∀ (s : State) (dr dg db : Int), HasRoom s →
      ∃ t px, exec (.diff dr dg db) s = .next t ∧ Produces s t px 1 s.job.runRem ∧
        (px.r.toNat : Int) = (s.job.prev.r.toNat + dr) % 256 ∧
        (px.g.toNat : Int) = (s.job.prev.g.toNat + dg) % 256 ∧
        (px.b.toNat : Int) = (s.job.prev.b.toNat + db) % 256 ∧ px.a = s.job.prev.a

/-- R113: LUMA adds the green delta to every lane and the coupled deltas to red and blue; one byte alone ends the job. -/
def Obligations.LumaAddsItsDeltas : Prop :=
  (∀ (b0 b1 : Byte) (tail : List Byte), 0x80 ≤ b0.toNat → b0.toNat < 0xC0 →
      decode (b0 :: b1 :: tail) =
        .ok (.luma ((b0.toNat % 64 : Nat) - 32) ((b1.toNat / 16 : Nat) - 8) ((b1.toNat % 16 : Nat) - 8), tail)) ∧
    ∀ (s : State) (dg drdg dbdg : Int),
      (s.job.inPos + 2 ≤ s.job.jInLen.toNat → HasRoom s →
        ∃ t px, exec (.luma dg drdg dbdg) s = .next t ∧ Produces s t px 2 s.job.runRem ∧
          (px.r.toNat : Int) = (s.job.prev.r.toNat + dg + drdg) % 256 ∧
          (px.g.toNat : Int) = (s.job.prev.g.toNat + dg) % 256 ∧
          (px.b.toNat : Int) = (s.job.prev.b.toNat + dg + dbdg) % 256 ∧ px.a = s.job.prev.a) ∧
      (s.job.jInLen.toNat < s.job.inPos + 2 → ∃ t, exec (.luma dg drdg dbdg) s = .next t ∧ Truncates s t)

/-- R114: RUN produces the previous pixel and owes the other `n - 1`. -/
def Obligations.RunProducesThePreviousPixel : Prop :=
  (∀ (b0 : Byte) (tail : List Byte), 0xC0 ≤ b0.toNat → b0.toNat ≤ 0xFD →
      decode (b0 :: tail) = .ok (.run (b0.toNat % 64 + 1), tail)) ∧
    ∀ (s : State) (n : Nat), HasRoom s →
      ∃ t, exec (.run n) s = .next t ∧ Produces s t s.job.prev 1 (n - 1)

/-! ### The decode job -/

/-- The step runs the chunk whose encoding lies at `in_pos` (R106). -/
def Obligations.StepRunsTheDecodedChunk : Prop :=
  ∀ (s : State) (i : Instr), CoreTurn s → s.phase = .decPixel → s.job.runRem = 0 → i.wf = true →
    s.job.inPos + (encode i).length ≤ s.job.jInLen.toNat → s.job.jInLen.toNat ≤ s.inp.size →
    (∀ j, (h : j < (encode i).length) → s.inp.read (s.job.inPos + j) = (encode i)[j]) →
    step s = exec i (turnTaken s)

/-- R115: a pending RUN goes on without reading IN, whatever IN and J_IN_LEN hold. -/
def Obligations.PendingRunNeedsNoByte : Prop :=
  ∀ s : State, CoreTurn s → s.phase = .decPixel → 0 < s.job.runRem → HasRoom s →
    ∃ t, step s = .next t ∧ Produces (turnTaken s) t s.job.prev 0 (s.job.runRem - 1)

/-- R107: a chunk that does not lie wholly below J_IN_LEN ends the job before anything of it changes. -/
def Obligations.CutChunkEndsTheJob : Prop :=
  ∀ s : State, CoreTurn s → s.phase = .decPixel → s.job.runRem = 0 → s.job.inPos ≤ s.job.jInLen.toNat →
    s.job.jInLen.toNat ≤ s.inp.size →
    (s.job.inPos = s.job.jInLen.toNat ∨
      s.job.jInLen.toNat < s.job.inPos + chunkLength (s.inp.read s.job.inPos)) →
    ∃ t, step s = .next t ∧ Truncates (turnTaken s) t

/-- R119: a RUN longer than the pixels still owed is cut at the pixel count, without error: the job ends when the last
pixel is produced, in the chunk's own step or while the RUN goes on. What `pix_pos` and `prev` hold after the job has ended
is log entry 16. -/
def Obligations.RunOvershootIsCut : Prop :=
  ∀ (s : State) (n : Nat), MachineInv s → s.agenda = [] → s.phase = .decPixel → s.job.jN - s.job.pixPos ≤ n →
    ∃ u t : State, exec (.run n) s = .next u ∧ Host.Core.run core (s.job.jN - s.job.pixPos - 1) u = .next t ∧
      t.status.word = 2 ∧ t.phase = .idle ∧ t.job.pixPos = s.job.jN ∧ t.job.prev = s.job.prev ∧
      t.res.outLen = BitVec.ofNat 64 (s.job.jN * s.job.jReq.toNat)

/-- R83, R84, R132: the START of an encode job reports the first failing check, or latches, clears and writes the header. A
failed START claims nothing of the RES registers, and keeps the job-local state (log entry 16). The decoder's registers stay
(log entry 18), and either way the end of the job is still to be read (log entry 23). -/
def Obligations.EncodeStartValidatesThenBegins : Prop :=
  ∀ (s : State) (v : Word64), HostTurn (.writeReg 0 v) s → CtrlWrite v true false → s.status.busy = false →
    s.phase = .idle → BuffersExist s →
    ∃ t, step s = .next t ∧
      (if s.cfg.width = 0 ∨ s.cfg.height = 0 then FailsAtStart (turnTaken s) t 1
      else if s.cfg.channels ≠ 3 ∧ s.cfg.channels ≠ 4 then FailsAtStart (turnTaken s) t 2
      else if s.cfg.inLen.toNat ≠ s.cfg.width.toNat * s.cfg.height.toNat * s.cfg.channels.toNat then
        FailsAtStart (turnTaken s) t 3
      else if s.cfg.outCap.toNat < 22 + s.cfg.width.toNat * s.cfg.height.toNat * (s.cfg.channels.toNat + 1) then
        FailsAtStart (turnTaken s) t 7
      else StartsEncode (turnTaken s) t)

/-- R104, R105, R132: the START of a decode job reports the first failing check, or latches the header and begins. A
failed START claims nothing of the RES registers, and keeps the job-local state (log entry 16). The encoder's registers stay
(log entry 18), and either way the end of the job is still to be read (log entry 23). -/
def Obligations.DecodeStartValidatesThenBegins : Prop :=
  ∀ (s : State) (v : Word64), HostTurn (.writeReg 0 v) s → CtrlWrite v true true → s.status.busy = false →
    s.phase = .idle → BuffersExist s →
    ∃ t, step s = .next t ∧
      (if s.cfg.inLen.toNat < 14 then FailsAtStart (turnTaken s) t 4
      else if ¬(s.inp.read 0 = 0x71 ∧ s.inp.read 1 = 0x6F ∧ s.inp.read 2 = 0x69 ∧ s.inp.read 3 = 0x66) then
        FailsAtStart (turnTaken s) t 5
      else if headerNumber s.inp 4 = 0 ∨ headerNumber s.inp 8 = 0 then FailsAtStart (turnTaken s) t 1
      else if s.inp.read 12 ≠ 3 ∧ s.inp.read 12 ≠ 4 then FailsAtStart (turnTaken s) t 2
      else if s.cfg.reqChannels ≠ 3 ∧ s.cfg.reqChannels ≠ 4 then FailsAtStart (turnTaken s) t 2
      else if s.cfg.outCap.toNat < headerNumber s.inp 4 * headerNumber s.inp 8 * s.cfg.reqChannels.toNat then
        FailsAtStart (turnTaken s) t 7
      else StartsDecode (turnTaken s) t)

/-- R130, R127: error entry, at START or in a DEC_PIXEL step: the code and nothing else is recorded; the RES registers,
and after a DEC_PIXEL step the OUT bytes below the latched OUT_CAP, are not claimed. -/
def Obligations.ErrorEntryEndsTheJob : Prop :=
  ∀ (s : State) (e : ErrorCode),
    let t := raiseError e s
    t.res.outLen = 0 ∧ t.status.busy = false ∧ t.status.done = true ∧ t.status.err = true ∧
      t.status.word.toNat = 6 + 16 * t.status.code.toNat ∧
      (match e with
        | .invalidDimensions => t.status.code = 1
        | .invalidChannelCount => t.status.code = 2
        | .bufferSizeMismatch => t.status.code = 3
        | .headerTooShort => t.status.code = 4
        | .badMagic => t.status.code = 5
        | .unexpectedEndOfStream => t.status.code = 6
        | .outputTooSmall => t.status.code = 7) ∧
      t.phase = .idle ∧ t.job = s.job ∧ CoreFrame s t ∧ t.agenda = s.agenda ∧
      (s.phase ≠ .decPixel → t.out = s.out) ∧
      (∀ a, s.job.jOutCap.toNat ≤ a → t.out.read a = s.out.read a) ∧ t.out.size = s.out.size

/-! ### The encode job -/

/-- R87: a pixel equal to `prev` extends the run; the 62nd is written as one RUN at once; cache and `prev` stay. -/
def Obligations.EqualPixelExtendsTheRun : Prop :=
  ∀ s : State, CoreTurn s → s.phase = .encPixel → PixelExists s → currentPixel s = s.job.prev →
    (s.job.run + 1 ≠ 62 →
      ∃ t, step s = .next t ∧ EncodeFrame (turnTaken s) t ∧ Emits s t [] ∧
        t.job = { s.job with run := s.job.run + 1, pixPos := s.job.pixPos + 1 }) ∧
    (s.job.run + 1 = 62 → s.job.outPos + 1 ≤ s.out.size →
      ∃ t, step s = .next t ∧ EncodeFrame (turnTaken s) t ∧ Emits s t [0xFD] ∧
        t.job = { s.job with run := 0, pixPos := s.job.pixPos + 1, outPos := s.job.outPos + 1 })

/-- R86, R89, R95: any other pixel flushes the run, writes its chunk, and becomes `prev` and its own cache slot. -/
def Obligations.OtherPixelIsWrittenAsAChunk : Prop :=
  ∀ s : State, CoreTurn s → s.phase = .encPixel → PixelExists s → currentPixel s ≠ s.job.prev → s.job.run ≤ 61 →
    s.job.outPos + (flushed s.job.run ++ chunkBytes s).length ≤ s.out.size →
    ∃ t, step s = .next t ∧ EncodeFrame (turnTaken s) t ∧ Emits s t (flushed s.job.run ++ chunkBytes s) ∧
      cacheRead t.job.cache (pixelHash (currentPixel s)) = currentPixel s ∧
      (∀ i, i ≠ pixelHash (currentPixel s) → cacheRead t.job.cache i = cacheRead s.job.cache i) ∧
      t.job = { s.job with
        cache := t.job.cache
        prev := currentPixel s
        run := 0
        pixPos := s.job.pixPos + 1
        outPos := s.job.outPos + (flushed s.job.run ++ chunkBytes s).length }

/-- R98: the tail step flushes the run, writes the end marker, and reports the length; the RES registers are not claimed.
What the job-local state holds after the job has ended is log entry 16. -/
def Obligations.TailStepEndsTheJob : Prop :=
  ∀ s : State, CoreTurn s → s.phase = .encTail → s.job.run ≤ 61 →
    s.job.outPos + (flushed s.job.run ++ [0, 0, 0, 0, 0, 0, 0, 1]).length ≤ s.out.size →
    ∃ t, step s = .next t ∧ Emits s t (flushed s.job.run ++ [0, 0, 0, 0, 0, 0, 0, 1]) ∧
      t.res.outLen = BitVec.ofNat 64 (s.job.outPos + (flushed s.job.run ++ [0, 0, 0, 0, 0, 0, 0, 1]).length) ∧
      t.status.word = 2 ∧ t.phase = .idle ∧ CoreFrame s t ∧ t.agenda = (turnTaken s).agenda ∧
      t.job = { s.job with
        run := 0
        outPos := s.job.outPos + (flushed s.job.run ++ [0, 0, 0, 0, 0, 0, 0, 1]).length }

/-- R99: an encode job that ends reports between 23 and 22 + J_N * (J_C + 1) bytes. -/
def Obligations.EncodedLengthIsBounded : Prop :=
  ∀ s : State, MachineInv s → CoreTurn s → s.phase = .encTail →
    ∃ t, step s = .next t ∧ t.status.word = 2 ∧ 23 ≤ t.res.outLen.toNat ∧
      t.res.outLen.toNat ≤ 22 + s.job.jN * (s.job.jC.toNat + 1)

/-- R102: an encode job of three channels never writes an RGBA chunk, and misses every cleared slot. -/
def Obligations.ThreeChannelsNeverNeedRgba : Prop :=
  ∀ s : State, MachineInv s → s.phase = .encPixel → s.job.jC = 3 →
    (∀ (hit : Pixel) (r g b a : Byte), chooseChunk (currentPixel s) s.job.prev hit ≠ .rgba r g b a) ∧
      currentPixel s ≠ { r := 0, g := 0, b := 0, a := 0 }

/-! ### The host interface -/

/-- R14, R15, R148: a register read returns the whole value at the register's width and changes nothing of the block; from
the end of a job until its DONE = 1 is read, the value of a result register is not claimed (log entry 23). No other number
names a register, for a read or for a write. -/
def Obligations.RegisterReadHasNoSideEffect : Prop :=
  ∀ (s : State) (n : Nat),
    (HostTurn (.readReg n) s →
      (n ≤ 13 → ∃ t, step s = .next t ∧
        t = { turnTaken s with doneUnread := t.doneUnread, readData := t.readData, draws := t.draws } ∧
        (∀ w, regWidth n = some w → t.readData.toNat < 2 ^ w) ∧ (n ≠ 1 → t.doneUnread = s.doneUnread) ∧
        (¬(9 ≤ n ∧ s.doneUnread = true ∧ s.status.busy = false) →
          t.draws = s.draws ∧
          (n = 0 → t.readData = 0) ∧ (n = 1 → t.readData.toNat = s.status.word.toNat) ∧
          (n = 2 → t.readData.toNat = s.cfg.width.toNat) ∧ (n = 3 → t.readData.toNat = s.cfg.height.toNat) ∧
          (n = 4 → t.readData.toNat = s.cfg.channels.toNat) ∧ (n = 5 → t.readData.toNat = s.cfg.colorspace.toNat) ∧
          (n = 6 → t.readData.toNat = s.cfg.reqChannels.toNat) ∧ (n = 7 → t.readData = s.cfg.inLen) ∧
          (n = 8 → t.readData = s.cfg.outCap) ∧ (n = 9 → t.readData = s.res.outLen) ∧
          (n = 10 → t.readData.toNat = s.res.width.toNat) ∧ (n = 11 → t.readData.toNat = s.res.height.toNat) ∧
          (n = 12 → t.readData.toNat = s.res.channels.toNat) ∧
          (n = 13 → t.readData.toNat = s.res.colorspace.toNat))) ∧
      (13 < n → step s = .refused .noSuchRegister)) ∧
    ∀ v, HostTurn (.writeReg n v) s → 13 < n → step s = .refused .noSuchRegister

/-- R42, R41: the START write and the host's read of STATUS with DONE = 1 are the only ordering points: the read ends the
hand-over and changes nothing else of the machine, and nothing but these two and a reset changes who may touch the spaces.
The field that holds this is log entry 23. -/
def Obligations.HandOverChangesOnlyAtOrderingPoints : Prop :=
  (∀ s : State, HostTurn (.readReg 1) s → s.status.busy = false → s.status.done = true →
    ∃ t, step s = .next t ∧ t.spacesHeld = false ∧ t.resultsUnread = false ∧
      t.readData.toNat = s.status.word.toNat ∧
      t = { turnTaken s with doneUnread := false, readData := t.readData }) ∧
  ∀ s t : State, step s = .next t → t.doneUnread ≠ s.doneUnread →
    (s.status.busy = false ∧ t.doneUnread = true ∧ ∃ v, HostTurn (.writeReg 0 v) s ∧ v.getLsbD 0 = true) ∨
      (s.status.busy = false ∧ s.status.done = true ∧ t.doneUnread = false ∧ HostTurn (.readReg 1) s) ∨
      (t.doneUnread = false ∧ HostTurn .reset s)

/-- R16: the bits of STATUS. -/
def Obligations.StatusWordBits : Prop :=
  ∀ t : Status,
    t.word.getLsbD 0 = t.busy ∧ t.word.getLsbD 1 = t.done ∧ t.word.getLsbD 2 = t.err ∧ t.word.getLsbD 3 = false ∧
      t.word.extractLsb' 4 4 = t.code ∧ ∀ k, 8 ≤ k → t.word.getLsbD k = false

/-- R17: while no job runs, a configuration register holds what the host writes; every other register and the rest of the
state keep their values. -/
def Obligations.ConfigurationIsPlainStorage : Prop :=
  ∀ (s : State) (n w : Nat) (v : Word64), HostTurn (.writeReg n v) s → s.status.busy = false → 2 ≤ n → n ≤ 8 →
    regWidth n = some w → v.toNat < 2 ^ w →
    ∃ t, step s = .next t ∧ regValue t n = some v ∧ (∀ k, k ≠ n → regValue t k = regValue s k) ∧
      t = { turnTaken s with cfg := t.cfg }

/-- Log entry 7, the model's reading of R16 and R18: a host write of STATUS or of a result register changes nothing. -/
def Obligations.ReadOnlyRegistersIgnoreWrites : Prop :=
  ∀ (s : State) (n w : Nat) (v : Word64), HostTurn (.writeReg n v) s → n = 1 ∨ 9 ≤ n → regWidth n = some w →
    v.toNat < 2 ^ w → step s = .next (turnTaken s)

/-- R19: while BUSY, a host write of any register, START included, changes no state. -/
def Obligations.WritesWhileBusyAreIgnored : Prop :=
  ∀ (s : State) (n w : Nat) (v : Word64), HostTurn (.writeReg n v) s → s.status.busy = true → regWidth n = some w →
    v.toNat < 2 ^ w → step s = .next (turnTaken s)

/-- R15: a CTRL write without START does nothing, and only START and MODE of a CTRL write are seen. -/
def Obligations.CtrlSeesOnlyStartAndMode : Prop :=
  (∀ (s : State) (v : Word64) (mode : Bool), HostTurn (.writeReg 0 v) s → CtrlWrite v false mode →
      step s = .next (turnTaken s)) ∧
    ∀ (s : State) (v v' : Word64) (start mode : Bool), CtrlWrite v start mode → CtrlWrite v' start mode →
      hostStep (.writeReg 0 v) s = hostStep (.writeReg 0 v') s

/-- R34: a START of a job whose buffers the instance does not have has no step. -/
def Obligations.StartWithoutBuffersIsRefused : Prop :=
  ∀ (s : State) (v : Word64) (mode : Bool), HostTurn (.writeReg 0 v) s → CtrlWrite v true mode →
    s.status.busy = false → ¬ BuffersExist s → step s = .refused .buffersMissing

/-- R46, D18, LP3 of R147: while BUSY, and until the host has read DONE = 1, it has no move that writes IN or touches OUT; a
turn that names one is refused (log entry 20). -/
def Obligations.HostHasNoMemoryMoveWhileBusy : Prop :=
  ∀ (s : State) (a : Nat) (v : Byte), s.status.busy = true ∨ s.doneUnread = true →
    (HostTurn (.writeIn a v) s → step s = .refused .hostDuty) ∧
      (HostTurn (.writeOut a v) s → step s = .refused .hostDuty) ∧
      (HostTurn (.readOut a) s → step s = .refused .hostDuty)

/-- R13, R41, log entry 19: while no job runs and no end of a job is unread, the host fills IN and reads or writes OUT,
one byte a move, and nothing else changes. -/
def Obligations.IdleHostReachesInAndOut : Prop :=
  ∀ (s : State) (a : Nat) (v : Byte), s.status.busy = false → s.doneUnread = false →
    (HostTurn (.writeIn a v) s → a < s.inp.size →
      ∃ t, step s = .next t ∧ t.inp.read a = v ∧ (∀ b, b ≠ a → t.inp.read b = s.inp.read b) ∧
        t = { turnTaken s with inp := t.inp }) ∧
    (HostTurn (.writeOut a v) s → a < s.out.size →
      ∃ t, step s = .next t ∧ t.out.read a = v ∧ (∀ b, b ≠ a → t.out.read b = s.out.read b) ∧
        t = { turnTaken s with out := t.out }) ∧
    (HostTurn (.readOut a) s → a < s.out.size →
      ∃ t, step s = .next t ∧ t.readData.toNat = (s.out.read a).toNat ∧
        t = { turnTaken s with readData := t.readData })

/-- Log entry 10, the model's form of R142 and R145: a turn of the core in IDLE changes nothing. -/
def Obligations.IdleCoreTakesNoStep : Prop :=
  ∀ s : State, CoreTurn s → s.phase = .idle → step s = .next (turnTaken s)

/-- R144, R30: reset in any state; the job-local state is not claimed, nor the OUT bytes of an abandoned job below its
OUT_CAP. That no end of a job is left to read is log entry 23. -/
def Obligations.ResetPutsTheBlockInIdle : Prop :=
  ∀ s : State, HostTurn .reset s →
    ∃ t, step s = .next t ∧ t.phase = .idle ∧ t.status.word = 0 ∧ (∀ n v, regValue t n = some v → v = 0) ∧
      t.inp = s.inp ∧ (s.status.busy = false → t.out = s.out) ∧
      (∀ a, s.job.jOutCap.toNat ≤ a → t.out.read a = s.out.read a) ∧ t.agenda = (turnTaken s).agenda ∧
      t.readData = s.readData ∧ t.spacesHeld = false

/-- LP4 of R147: a job started right after reset runs on zeros: an encode reports INVALID_DIMENSIONS, a decode
HEADER_TOO_SHORT. -/
def Obligations.JobsAfterResetRunOnZeros : Prop :=
  ∀ inSize outSize : Nat,
    let s := State.resetSized inSize outSize
    (∃ t, step { s with agenda := [.host (.writeReg 0 1)] } = .next t ∧ FailsAtStart s t 1) ∧
      ∃ t, step { s with agenda := [.host (.writeReg 0 3)] } = .next t ∧ FailsAtStart s t 4

/-! ### Memory -/

/-- R36, R38: a byte written is read back, and every other byte keeps its value. -/
def Obligations.ByteWriteIsReadBack : Prop :=
  ∀ (m : Memory) (a b : Nat) (v : Byte),
    (m.write a v).read a = v ∧ (b ≠ a → (m.write a v).read b = m.read b) ∧
      (m.wf = true → a < m.size → (m.write a v).wf = true)

/-- The canonical form of log entry 2: two byte spaces of one size with nothing unspecified that read the same are the
same data. -/
def Obligations.CanonicalSpacesAreDeterminedByReads : Prop :=
  ∀ m m' : Memory, m.wf = true → m'.wf = true → m.size = m'.size → m.drawn = [] → m'.drawn = [] →
    (∀ a, m.read a = m'.read a) → m = m'

/-! ### The whole machine -/

/-- The invariant holds right after reset, whatever the sizes of IN and OUT. -/
def Obligations.InvariantHoldsAfterReset : Prop :=
  ∀ inSize outSize : Nat, MachineInv (State.resetSized inSize outSize)

/-- Every step of core or host keeps the invariant. -/
def Obligations.EveryStepKeepsTheInvariant : Prop :=
  ∀ s t : State, MachineInv s → step s = .next t → MachineInv t

/-- R143 (c), R155: in a state that meets the invariant the core's step is always enabled; it never faults or refuses. -/
def Obligations.CoreStepIsAlwaysEnabled : Prop :=
  ∀ s : State, MachineInv s → CoreTurn s → ∃ t, step s = .next t

/-- R17, R22, R32, R33: a step of the core changes no configuration register, no job parameter, no IN byte, and no OUT
byte at or above the latched OUT_CAP. -/
def Obligations.CoreStaysInsideItsBuffers : Prop :=
  ∀ s t : State, MachineInv s → CoreTurn s → step s = .next t →
    CoreFrame s t ∧ SameParameters s.job t.job ∧ t.out.size = s.out.size ∧
      ∀ a, s.phase = .idle ∨ s.job.jOutCap.toNat ≤ a → t.out.read a = s.out.read a

/-- R16, R18, R133: STATUS and the result registers change only by a START, by reset, and in the step of the core that
ends a job. -/
def Obligations.StatusAndResultsChangeOnlyAtJobEdges : Prop :=
  ∀ s t : State, MachineInv s → step s = .next t → t.status ≠ s.status ∨ t.res ≠ s.res →
    (s.phase = .idle ∧ ∃ v, HostTurn (.writeReg 0 v) s ∧ v.getLsbD 0 = true) ∨ HostTurn .reset s ∨
      (CoreTurn s ∧ s.phase ≠ .idle ∧ t.phase = .idle)

/-- R117, R118, R124: two decode jobs of one stream that differ in the requested channels only stay in step, and the
narrower one stores the same red, green and blue bytes; the wider one stores the internal alpha after them. The results they
report differ in OUT_LEN alone. What the job-local state holds after the jobs have ended is log entry 16. -/
def Obligations.RequestedChannelsOnlyChangeTheStores : Prop :=
  ∀ s s' t t' : State, MachineInv s → MachineInv s' → CoreTurn s → CoreTurn s' → s.phase = .decPixel →
    s'.phase = .decPixel → s.job.jReq = 4 → s'.job = { s.job with jReq := 3, jOutCap := s'.job.jOutCap } →
    s'.inp = s.inp → s'.status = s.status → step s = .next t → step s' = .next t' →
    t'.job = { t.job with jReq := 3, jOutCap := s'.job.jOutCap } ∧ t'.phase = t.phase ∧ t'.status = t.status ∧
      (t.status.word ≠ 0x66 →
        (∀ c, c < 3 → t'.out.read (s.job.pixPos * 3 + c) = t.out.read (s.job.pixPos * 4 + c)) ∧
          t.out.read (s.job.pixPos * 4 + 3) = t.job.prev.a ∧
          ∀ a, s.job.pixPos * 3 + 3 ≤ a → t'.out.read a = s'.out.read a) ∧
      (t.phase ≠ .idle → t.res = s.res ∧ t'.res = s'.res) ∧
      (t.status.word = 2 →
        t.res.outLen = BitVec.ofNat 64 (s.job.jN * 4) ∧
          t'.res = { t.res with outLen := BitVec.ofNat 64 (s.job.jN * 3) }) ∧
      (t.status.word = 0x66 → t.res.outLen = 0 ∧ t'.res.outLen = 0)

/-- R29: a START leaves nothing of the job before it: two machines that differ only in job-local state, results and
STATUS start the same job. -/
def Obligations.StartForgetsTheJobBefore : Prop :=
  ∀ (s s' t t' : State) (v : Word64), HostTurn (.writeReg 0 v) s → HostTurn (.writeReg 0 v) s' →
    s.status.busy = false → s'.status.busy = false → CtrlWrite v true (v.getLsbD 1) →
    s'.cfg = s.cfg → s'.inp = s.inp → s'.out = s.out → step s = .next t → step s' = .next t' →
    t'.status = t.status ∧
      (t.status.busy = true →
        t'.phase = t.phase ∧ t'.out = t.out ∧ t'.job.jW = t.job.jW ∧ t'.job.jH = t.job.jH ∧ t'.job.jC = t.job.jC ∧
          t'.job.jCS = t.job.jCS ∧ t'.job.jInLen = t.job.jInLen ∧ t'.job.jOutCap = t.job.jOutCap ∧
          t'.job.jN = t.job.jN ∧ t'.job.cache = t.job.cache ∧ t'.job.prev = t.job.prev ∧
          t'.job.pixPos = t.job.pixPos ∧
          (t.phase = .encPixel → t'.job.run = t.job.run ∧ t'.job.outPos = t.job.outPos) ∧
          (t.phase = .decPixel →
            t'.job.jReq = t.job.jReq ∧ t'.job.runRem = t.job.runRem ∧ t'.job.inPos = t.job.inPos))

/-- R101: an encode step, of a pixel or of the tail, sees only the job and the IN bytes below J_IN_LEN. That the job-local
state after the tail step is the same in both is log entry 16. -/
def Obligations.EncodeStepSeesOnlyJobAndInput : Prop :=
  ∀ s s' t t' : State, MachineInv s → CoreTurn s → CoreTurn s' → s.phase = .encPixel ∨ s.phase = .encTail →
    s'.phase = s.phase → s'.job = s.job → s'.out = s.out → s.inp.size = s'.inp.size →
    (∀ a, a < s.job.jInLen.toNat → s'.inp.read a = s.inp.read a) → step s = .next t → step s' = .next t' →
    t'.job = t.job ∧ t'.out = t.out ∧ t'.phase = t.phase ∧
      (s.phase = .encTail → t'.res.outLen = t.res.outLen ∧ t'.status = t.status)

/-- R107, R32: a decode step sees only the job and the IN bytes below J_IN_LEN. -/
def Obligations.DecodeStepSeesOnlyJobAndStream : Prop :=
  ∀ s s' t t' : State, MachineInv s → CoreTurn s → CoreTurn s' → s.phase = .decPixel → s'.phase = .decPixel →
    s'.job = s.job → s'.out = s.out → s'.status = s.status → s.inp.size = s'.inp.size →
    (∀ a, a < s.job.jInLen.toNat → s'.inp.read a = s.inp.read a) → step s = .next t → step s' = .next t' →
    t'.job = t.job ∧ t'.phase = t.phase ∧ t'.status = t.status ∧ (t.status.word ≠ 0x66 → t'.out = t.out)

/-- R154: an encode job ends without error exactly `J_N - pix_pos + 1` steps of the core later. -/
def Obligations.EncodeJobEndsInItsStepCount : Prop :=
  ∀ s : State, MachineInv s → s.agenda = [] → s.phase = .encPixel →
    (∃ t : State, Host.Core.run core (s.job.jN - s.job.pixPos + 1) s = .next t ∧ t.phase = .idle ∧ t.status.word = 2) ∧
      ∀ k, k ≤ s.job.jN - s.job.pixPos →
        ∃ t : State, Host.Core.run core k s = .next t ∧ t.phase ≠ .idle ∧ t.status.word = 1

/-- R125, R154: a decode job ends at most `J_N - pix_pos` steps of the core later, well or with UNEXPECTED_END_OF_STREAM. -/
def Obligations.DecodeJobEndsWithinItsStepCount : Prop :=
  ∀ s : State, MachineInv s → s.agenda = [] → s.phase = .decPixel →
    ∃ t : State, Host.Core.run core (s.job.jN - s.job.pixPos) s = .next t ∧ t.phase = .idle ∧
      ((t.status.word = 2 ∧ t.res.outLen = BitVec.ofNat 64 (s.job.jN * s.job.jReq.toNat)) ∨
        (t.status.word = 0x66 ∧ t.res.outLen = 0))

/-- R81: where the caches agree, the decoder makes the encoder's pixel from the chunk the encoder chose, and the caches
agree again. -/
def Obligations.DecoderFollowsTheEncoder : Prop :=
  ∀ (s d : State) (p : Pixel),
    let i := chooseChunk p s.job.prev (cacheRead s.job.cache (pixelHash p))
    CachesAgree s.job.cache d.job.cache → s.job.prev = d.job.prev →
    d.job.inPos + (encode i).length ≤ d.job.jInLen.toNat → HasRoom d →
    ∃ e, exec i d = .next e ∧ e.job.prev = p ∧ CachesAgree (s.remember p).job.cache e.job.cache

/-- R123: for every image a job accepts, decoding the encoder's stream at the encoded channels gives back the pixel
bytes and the descriptor. The decode job `d` may be on any idle machine whose IN holds the stream and whose OUT has room. -/
def Obligations.DecodingTheEncodedStreamGivesTheImage : Prop :=
  ∀ s : State,
    let n := s.cfg.width.toNat * s.cfg.height.toNat
    MachineInv s → s.status.busy = false → s.cfg.width ≠ 0 → s.cfg.height ≠ 0 → (s.cfg.channels = 3 ∨ s.cfg.channels = 4) →
    s.cfg.inLen.toNat = n * s.cfg.channels.toNat → 22 + n * (s.cfg.channels.toNat + 1) ≤ s.cfg.outCap.toNat →
    BuffersExist s →
    ∃ e : State, Host.Core.run core (n + 2) { s with agenda := [.host (.writeReg 0 1)] } = .next e ∧ e.status.word = 2 ∧
      ∀ d : State, MachineInv d → d.status.busy = false → d.cfg.inLen = e.res.outLen → d.cfg.reqChannels = s.cfg.channels →
        n * s.cfg.channels.toNat ≤ d.cfg.outCap.toNat → BuffersExist d →
        (∀ a, a < e.res.outLen.toNat → d.inp.read a = e.out.read a) →
        ∃ t : State, Host.Core.run core (n + 1) { d with agenda := [.host (.writeReg 0 3)] } = .next t ∧ t.status.word = 2 ∧
          t.res.outLen.toNat = n * s.cfg.channels.toNat ∧ t.res.width = s.cfg.width ∧ t.res.height = s.cfg.height ∧
          t.res.channels = s.cfg.channels ∧ t.res.colorspace = s.cfg.colorspace ∧
          ∀ a, a < n * s.cfg.channels.toNat → t.out.read a = s.inp.read a
end

