-- ==== Sys2Proof/Laws/Codec.lean ====
section
/-! SUPPORT. The bit fields of the chunk formats and the lengths of their encodings. -/

namespace Sys2Proof

/-- A field with its bias put on and taken off is the value, where the biased value fits the field (R60). -/
theorem unbias_biased {w : Nat} {v bias : Int} (h : 0 ≤ v + bias) (h' : v + bias < 2 ^ w) :
    unbias (biased w v bias) bias = v := by
  unfold unbias biased
  rw [BitVec.toNat_ofInt]
  have : ((2 ^ w : Nat) : Int) = 2 ^ w := by simp
  rw [this, Int.emod_eq_of_lt h h']
  omega

/-- A field is its own value biased again (R60). -/
theorem biased_unbias {w : Nat} (f : BitVec w) (bias : Int) : biased w (unbias f bias) bias = f := by
  unfold unbias biased
  rw [show (f.toNat : Int) - bias + bias = f.toNat by omega]
  simp

theorem unbias_range {w : Nat} (f : BitVec w) (bias : Int) :
    -bias ≤ unbias f bias ∧ unbias f bias < 2 ^ w - bias := by
  have h := f.isLt
  have : ((2 ^ w : Nat) : Int) = 2 ^ w := by simp
  unfold unbias; omega

@[simp] theorem bitField_tag (t : BitVec 2) (x : BitVec 6) : bitField (t ++ x) 6 2 = t :=
  BitVec.extractLsb'_append_eq_left

@[simp] theorem bitField_low (t : BitVec 2) (x : BitVec 6) : bitField (t ++ x) 0 6 = x :=
  BitVec.extractLsb'_append_eq_right

@[simp] theorem bitField_high4 (x y : BitVec 4) : bitField (x ++ y) 4 4 = x :=
  BitVec.extractLsb'_append_eq_left

@[simp] theorem bitField_low4 (x y : BitVec 4) : bitField (x ++ y) 0 4 = y :=
  BitVec.extractLsb'_append_eq_right

/-- The four 2-bit fields of a DIFF byte (R57). -/
theorem bitField_pairs : ∀ t x y z : BitVec 2,
    bitField (t ++ x ++ y ++ z) 6 2 = t ∧ bitField (t ++ x ++ y ++ z) 4 2 = x ∧
      bitField (t ++ x ++ y ++ z) 2 2 = y ∧ bitField (t ++ x ++ y ++ z) 0 2 = z := by decide

/-- A byte is its tag and its low six bits. -/
theorem byte_eq_tag_low : ∀ b : Byte, b = bitField b 6 2 ++ bitField b 0 6 := by decide

/-- A byte is its two nibbles. -/
theorem byte_eq_nibbles : ∀ b : Byte, b = bitField b 4 4 ++ bitField b 0 4 := by decide

/-- A byte is its four pairs of bits. -/
theorem byte_eq_pairs : ∀ b : Byte, b = bitField b 6 2 ++ bitField b 4 2 ++ bitField b 2 2 ++ bitField b 0 2 := by
  decide

/-- The length of a chunk by its type (R52). -/
def Instr.length : Instr → Nat
  | .rgb _ _ _ => 4
  | .rgba _ _ _ _ => 5
  | .index _ => 1
  | .diff _ _ _ => 1
  | .luma _ _ _ => 2
  | .run _ => 1

@[simp] theorem encode_length (i : Instr) : (encode i).length = i.length := by cases i <;> rfl

theorem encode_length_le (i : Instr) : 1 ≤ (encode i).length ∧ (encode i).length ≤ maxChunkLength := by
  cases i <;> simp [encode, maxChunkLength]

@[simp] theorem headerBytes_length (h : Header) : (headerBytes h).length = 14 := rfl

@[simp] theorem endMarker_length : endMarker.length = 8 := rfl

@[simp] theorem wordBytes_length (nbits w : Nat) : (wordBytes nbits w).length = 5 := by
  simp [wordBytes, maxChunkLength]

/-- The four bytes of a word, read back big-endian, are the word (R35). -/
theorem be32_bytes32 (w : Word32) :
    be32 (w.extractLsb' 24 8) (w.extractLsb' 16 8) (w.extractLsb' 8 8) (w.extractLsb' 0 8) = w := by
  unfold be32
  apply BitVec.eq_of_getLsbD_eq
  intro i hi
  simp only [BitVec.getLsbD_append, BitVec.getLsbD_extractLsb']
  split_ifs with h1 h2 h3
  · simp [h1]
  · simp [h2, show 8 + (i - 8) = i by omega]
  · simp [h3, show 16 + (i - 8 - 8) = i by omega]
  · simp [show i - 8 - 8 - 8 < 8 by omega, show 24 + (i - 8 - 8 - 8) = i by omega]

/-- The bytes of the big-endian reading of four bytes are those bytes (R35). -/
theorem bytes32_be32 (b0 b1 b2 b3 : Byte) : bytes32 (be32 b0 b1 b2 b3) = [b0, b1, b2, b3] := by
  have h (k : Nat) (b : Byte) (hk : ∀ i, i < 8 → (be32 b0 b1 b2 b3).getLsbD (k + i) = b.getLsbD i) :
      (be32 b0 b1 b2 b3).extractLsb' k 8 = b := by
    apply BitVec.eq_of_getLsbD_eq
    intro i hi
    rw [BitVec.getLsbD_extractLsb']
    simp [hi, hk i hi]
  unfold bytes32
  rw [h 24 b0, h 16 b1, h 8 b2, h 0 b3] <;> intro i hi <;> unfold be32 <;>
    simp only [BitVec.getLsbD_append] <;> split_ifs <;> first | omega | (congr 1; omega)

end Sys2Proof
end

