-- ==== Sys2Proof/Laws/Datapath.lean ====
section
/-! SUPPORT. The arithmetic of the datapath: what `u8` and `s8` do modulo 256, and when two integers give the same byte. -/

namespace Sys2Proof.Machine

theorem u8_congr {x y : Int} (h : x % 256 = y % 256) : u8 x = u8 y := by
  apply BitVec.eq_of_toNat_eq
  simp [u8, BitVec.toNat_ofInt, h]

@[simp] theorem u8_comp (b : Byte) : u8 (comp b) = b := by simp [u8, comp]

theorem comp_range (b : Byte) : 0 ≤ comp b ∧ comp b ≤ 255 := by
  have := b.isLt
  unfold comp; omega

theorem s8_range (v : Int) : -128 ≤ s8 v ∧ s8 v ≤ 127 := by
  have h1 := BitVec.le_toInt (u8 v)
  have h2 := BitVec.toInt_lt (x := u8 v)
  simp at h1 h2
  unfold s8; omega

/-- `s8` changes a number by a multiple of 256. -/
theorem s8_emod (v : Int) : s8 v % 256 = v % 256 := by
  have : s8 v = v.bmod 256 := by simp [s8, u8, BitVec.toInt_ofInt]
  rw [this, Int.bmod_def]
  split <;> omega

theorem s8_of_range {v : Int} (h : -128 ≤ v) (h' : v ≤ 127) : s8 v = v := by
  have := s8_range v
  have := s8_emod v
  omega

/-- A lane of the pipeline: the wrapped difference added back gives the component (R70). -/
theorem u8_add_s8_sub (p q : Byte) : u8 (comp q + s8 (comp p - comp q)) = p := by
  rw [← u8_comp p]
  apply u8_congr
  have := s8_emod (comp p - comp q)
  rw [u8_comp]; omega

/-- Within a distance the LUMA test allows, wrapping once more does not move a number into or out of -8..7 (R72). -/
theorem s8_in_nibble {x : Int} (h : -248 < x ∧ x < 248) : (-8 ≤ s8 x ∧ s8 x ≤ 7) ↔ (-8 ≤ x ∧ x ≤ 7) := by
  have h1 := s8_emod x
  have h2 := s8_range x
  obtain ⟨k, hk⟩ : ∃ k, s8 x = x + 256 * k := ⟨(s8 x - x) / 256, by omega⟩
  have : k = -1 ∨ k = 0 ∨ k = 1 := by omega
  rcases this with rfl | rfl | rfl <;> omega

theorem fitsDIFF_iff (p q : Pixel) :
    fitsDIFF p q = true ↔ p.a = q.a ∧ (-2 ≤ (deltas p q).dr ∧ (deltas p q).dr ≤ 1) ∧
      (-2 ≤ (deltas p q).dg ∧ (deltas p q).dg ≤ 1) ∧ (-2 ≤ (deltas p q).db ∧ (deltas p q).db ≤ 1) := by
  simp only [fitsDIFF, Bool.and_eq_true, decide_eq_true_eq, and_assoc]
  simp [deltas]

theorem fitsLUMA_iff (p q : Pixel) :
    fitsLUMA p q = true ↔ p.a = q.a ∧ (-32 ≤ (deltas p q).dg ∧ (deltas p q).dg ≤ 31) ∧
      (-8 ≤ (deltas p q).drdg ∧ (deltas p q).drdg ≤ 7) ∧ (-8 ≤ (deltas p q).dbdg ∧ (deltas p q).dbdg ≤ 7) := by
  simp only [fitsLUMA, Bool.and_eq_true, decide_eq_true_eq, and_assoc]
  simp [deltas]

/-- The five ways a chunk is chosen, each with the conditions that hold then (R75). -/
theorem chooseChunk_cases (p q hit : Pixel) :
    (hit = p ∧ chooseChunk p q hit = .index (pixelHash p)) ∨
      (hit ≠ p ∧ fitsDIFF p q = true ∧
        chooseChunk p q hit = .diff (deltas p q).dr (deltas p q).dg (deltas p q).db) ∨
      (hit ≠ p ∧ fitsLUMA p q = true ∧
        chooseChunk p q hit = .luma (deltas p q).dg (deltas p q).drdg (deltas p q).dbdg) ∨
      (hit ≠ p ∧ p.a = q.a ∧ chooseChunk p q hit = .rgb p.r p.g p.b) ∨
      (hit ≠ p ∧ p.a ≠ q.a ∧ chooseChunk p q hit = .rgba p.r p.g p.b p.a) := by
  unfold chooseChunk
  by_cases h1 : hit = p
  · exact .inl ⟨h1, if_pos h1⟩
  · by_cases h2 : p.a = q.a
    · by_cases h3 : fitsDIFF p q = true
      · exact .inr (.inl ⟨h1, h3, by simp [h1, h2, h3]⟩)
      · by_cases h4 : fitsLUMA p q = true
        · exact .inr (.inr (.inl ⟨h1, h4, by simp [h1, h2, h3, h4]⟩))
        · exact .inr (.inr (.inr (.inl ⟨h1, h2, by simp [h1, h2, h3, h4]⟩)))
    · exact .inr (.inr (.inr (.inr ⟨h1, h2, by simp [h1, h2]⟩)))

end Sys2Proof.Machine
end

