-- ==== Sys2Proof/Laws/Memory.lean ====
section
/-! SUPPORT. What the operations over a byte space do: what a read sees after each of them, and that each keeps the canonical form. -/

namespace Sys2Proof.Machine

@[simp] theorem lookupCell_putCell (a : Nat) (v : Byte) (cs : List Host.Cell) (b : Nat) :
    lookupCell (putCell a v cs) b = if b = a then some v else lookupCell cs b := by
  induction cs with
  | nil => simp only [putCell, lookupCell, eq_comm]
  | cons c cs ih =>
    obtain ⟨k, w⟩ := c
    by_cases hlt : a < k
    · simp only [putCell, hlt, if_true, lookupCell, eq_comm]
    · by_cases hak : a = k
      · subst hak
        by_cases hb : b = a <;> simp [putCell, lookupCell, hb, Ne.symm]
      · simp only [putCell, hlt, hak, if_false, lookupCell, ih]
        by_cases hkb : k = b
        · subst hkb; simp [Ne.symm hak]
        · simp [hkb]

@[simp] theorem lookupCell_dropCell (a : Nat) (cs : List Host.Cell) (b : Nat) :
    lookupCell (dropCell a cs) b = if b = a then none else lookupCell cs b := by
  induction cs with
  | nil => simp [dropCell, lookupCell]
  | cons c cs ih =>
    obtain ⟨k, w⟩ := c
    by_cases hka : k = a
    · subst hka
      by_cases hb : b = k
      · subst hb; simpa [dropCell] using ih
      · simp [dropCell, lookupCell, ih, hb, Ne.symm hb]
    · by_cases hkb : k = b
      · subst hkb; simp [dropCell, lookupCell, hka]
      · simp [dropCell, lookupCell, hka, hkb, ih]

@[simp] theorem Memory.write_size (m : Memory) (a : Nat) (v : Byte) : (m.write a v).size = m.size := by
  unfold Memory.write; split <;> rfl

@[simp] theorem Memory.write_drawn (m : Memory) (a : Nat) (v : Byte) : (m.write a v).drawn = m.drawn := by
  unfold Memory.write; split <;> rfl

/-- A read after a write: the value at the address written, what was there before at every other. -/
theorem Memory.read_write (m : Memory) (a : Nat) (v : Byte) (b : Nat) :
    (m.write a v).read b = if b = a then v else m.read b := by
  unfold Memory.write
  split
  · next h =>
    by_cases hb : b = a
    · subst hb; simp [Memory.read, Memory.unlisted, h.1, h.2]
    · simp [Memory.read, Memory.unlisted, hb]
  · by_cases hb : b = a <;> simp [Memory.read, Memory.unlisted, hb]

@[simp] theorem Memory.writeBytes_size (vs : List Byte) (m : Memory) (a : Nat) :
    (m.writeBytes a vs).size = m.size := by
  induction vs generalizing m a with
  | nil => rfl
  | cons v vs ih => simp [Memory.writeBytes, ih]

@[simp] theorem Memory.writeBytes_drawn (vs : List Byte) (m : Memory) (a : Nat) :
    (m.writeBytes a vs).drawn = m.drawn := by
  induction vs generalizing m a with
  | nil => rfl
  | cons v vs ih => simp [Memory.writeBytes, ih]

theorem Memory.writeBytes_append (xs ys : List Byte) (m : Memory) (a : Nat) :
    m.writeBytes a (xs ++ ys) = (m.writeBytes a xs).writeBytes (a + xs.length) ys := by
  induction xs generalizing m a with
  | nil => rfl
  | cons x xs ih => simp [Memory.writeBytes, ih, Nat.add_assoc, Nat.add_comm 1]

/-- A byte outside the bytes written reads as before. -/
theorem Memory.read_writeBytes_outside (vs : List Byte) (m : Memory) (a b : Nat)
    (h : b < a ∨ a + vs.length ≤ b) : (m.writeBytes a vs).read b = m.read b := by
  induction vs generalizing m a with
  | nil => rfl
  | cons v vs ih =>
    simp only [List.length_cons] at h
    rw [Memory.writeBytes, ih _ _ (by omega), Memory.read_write, if_neg (by omega)]

/-- Byte `j` of the bytes written is read back. -/
theorem Memory.read_writeBytes_inside (vs : List Byte) (m : Memory) (a j : Nat) (h : j < vs.length) :
    (m.writeBytes a vs).read (a + j) = vs[j] := by
  induction vs generalizing m a j with
  | nil => simp at h
  | cons v vs ih =>
    cases j with
    | zero =>
      rw [Memory.writeBytes, Memory.read_writeBytes_outside _ _ _ _ (by omega), Memory.read_write]
      simp
    | succ j =>
      have hj : j < vs.length := by simpa using h
      rw [Memory.writeBytes, show a + (j + 1) = (a + 1) + j by omega, ih _ _ _ hj]
      simp

/-! ### The canonical form -/

theorem cellsWf_mono {size : Nat} {drawn : List (Nat × Nat)} {lo lo' : Nat} (hlo : lo' ≤ lo) :
    ∀ {cs : List Host.Cell}, cellsWf size drawn lo cs = true → cellsWf size drawn lo' cs = true
  | [], _ => rfl
  | (a, v) :: cs, h => by
    simp only [cellsWf, Bool.and_eq_true, decide_eq_true_eq] at h ⊢
    exact ⟨⟨by omega, h.1.2⟩, h.2⟩

theorem cellsWf_putCell {size : Nat} {drawn : List (Nat × Nat)} {a : Nat} {v : Byte} (ha : a < size)
    (hv : ¬(v = 0 ∧ drawAt drawn a = none)) :
    ∀ {cs : List Host.Cell} {lo : Nat}, lo ≤ a → cellsWf size drawn lo cs = true →
      cellsWf size drawn lo (putCell a v cs) = true
  | [], lo, hlo, _ => by simp only [putCell, cellsWf, Bool.and_true, decide_eq_true_eq]; exact ⟨hlo, ha, hv⟩
  | (b, w) :: cs, lo, hlo, h => by
    simp only [cellsWf, Bool.and_eq_true, decide_eq_true_eq] at h
    unfold putCell
    split
    · simp only [cellsWf, Bool.and_eq_true, decide_eq_true_eq]
      exact ⟨⟨hlo, ha, hv⟩, ⟨by omega, h.1.2⟩, h.2⟩
    · split
      · next hab =>
        simp only [cellsWf, Bool.and_eq_true, decide_eq_true_eq]
        exact ⟨⟨hlo, ha, hv⟩, hab ▸ h.2⟩
      · simp only [cellsWf, Bool.and_eq_true, decide_eq_true_eq]
        exact ⟨h.1, cellsWf_putCell ha hv (by omega) h.2⟩

theorem cellsWf_filter {size : Nat} {drawn : List (Nat × Nat)} (f : Host.Cell → Bool) :
    ∀ {cs : List Host.Cell} {lo : Nat}, cellsWf size drawn lo cs = true →
      cellsWf size drawn lo (cs.filter f) = true
  | [], _, _ => rfl
  | (b, w) :: cs, lo, h => by
    simp only [cellsWf, Bool.and_eq_true, decide_eq_true_eq] at h
    rw [List.filter_cons]
    split
    · simp only [cellsWf, Bool.and_eq_true, decide_eq_true_eq]
      exact ⟨h.1, cellsWf_filter f h.2⟩
    · exact cellsWf_mono (by omega) (cellsWf_filter f h.2)

theorem dropCell_eq_filter (a : Nat) (cs : List Host.Cell) :
    dropCell a cs = cs.filter fun c => decide (c.1 ≠ a) := by
  induction cs with
  | nil => rfl
  | cons c cs ih =>
    obtain ⟨b, w⟩ := c
    by_cases h : b = a <;> simp [dropCell, h, ih]

theorem cellsWf_of_drawAt {size : Nat} {d d' : List (Nat × Nat)} :
    ∀ {cs : List Host.Cell} {lo : Nat}, (∀ c ∈ cs, drawAt d' c.1 = none → drawAt d c.1 = none) →
      cellsWf size d lo cs = true → cellsWf size d' lo cs = true
  | [], _, _, _ => rfl
  | (a, v) :: cs, lo, hd, h => by
    simp only [cellsWf, Bool.and_eq_true, decide_eq_true_eq] at h ⊢
    refine ⟨⟨h.1.1, h.1.2.1, fun hv => h.1.2.2 ⟨hv.1, hd (a, v) (by simp) hv.2⟩⟩, ?_⟩
    exact cellsWf_of_drawAt (fun c hc => hd c (by simp [hc])) h.2

theorem Memory.wf_iff (m : Memory) :
    m.wf = true ↔ cellsWf m.size m.drawn 0 m.cells = true ∧ drawnWf 0 m.drawn = true := by
  simp [Memory.wf]

theorem Memory.write_wf {m : Memory} {a : Nat} {v : Byte} (ha : a < m.size) (h : m.wf = true) :
    (m.write a v).wf = true := by
  rw [Memory.wf_iff] at h ⊢
  unfold Memory.write
  split
  · exact ⟨by simpa only [dropCell_eq_filter] using cellsWf_filter _ h.1, h.2⟩
  · next hv => exact ⟨cellsWf_putCell ha hv (Nat.zero_le a) h.1, h.2⟩

theorem Memory.writeBytes_wf {vs : List Byte} {m : Memory} {a : Nat} (ha : a + vs.length ≤ m.size)
    (h : m.wf = true) : (m.writeBytes a vs).wf = true := by
  induction vs generalizing m a with
  | nil => exact h
  | cons v vs ih =>
    simp only [List.length_cons] at ha
    exact ih (by simp; omega) (Memory.write_wf (by omega) h)

/-! ### Unspecified values -/

theorem drawAt_filter {cap a : Nat} (h : cap ≤ a) :
    ∀ ls : List (Nat × Nat), drawAt (ls.filter fun l => decide (cap < l.1)) a = drawAt ls a
  | [] => rfl
  | (c, d) :: ls => by
    by_cases hc : cap < c
    · simp [hc, drawAt, drawAt_filter h ls]
    · simp [hc, drawAt, drawAt_filter h ls, show ¬ a < c by omega]

theorem lookupCell_filter {cap a : Nat} :
    ∀ cs : List Host.Cell, lookupCell (cs.filter fun c => decide (cap ≤ c.1)) a =
      if cap ≤ a then lookupCell cs a else none
  | [] => by simp [lookupCell]
  | (b, w) :: cs => by
    by_cases hb : cap ≤ b
    · by_cases hba : b = a
      · subst hba; simp [lookupCell, hb]
      · simp [lookupCell, hb, hba, lookupCell_filter cs]
    · by_cases hba : b = a
      · subst hba; simp [hb, lookupCell_filter cs]
      · simp [lookupCell, hb, hba, lookupCell_filter cs]

@[simp] theorem Memory.forget_size (m : Memory) (cap d : Nat) : (m.forget cap d).size = m.size := by
  unfold Memory.forget; split <;> rfl

/-- A byte at or above `cap` keeps its value. -/
theorem Memory.read_forget_outside (m : Memory) (cap d a : Nat) (h : cap ≤ a) :
    (m.forget cap d).read a = m.read a := by
  unfold Memory.forget
  split
  · rfl
  · simp only [Memory.read, Memory.unlisted, lookupCell_filter, if_pos h, drawAt, Nat.not_lt.2 h, if_false,
      drawAt_filter h]

/-- A byte below `cap` reads as the free byte of the draw. -/
theorem Memory.read_forget_inside (m : Memory) (cap d a : Nat) (h : a < cap) :
    (m.forget cap d).read a = Config.freeByte d a := by
  unfold Memory.forget
  rw [if_neg (by omega)]
  simp only [Memory.read, Memory.unlisted, lookupCell_filter, if_neg (Nat.not_le.2 h), drawAt, h, if_true]

theorem drawnWf_filter {lo cap : Nat} :
    ∀ {ls : List (Nat × Nat)}, drawnWf lo ls = true →
      drawnWf cap (ls.filter fun l => decide (cap < l.1)) = true
  | [], _ => rfl
  | (c, d) :: ls, h => by
    simp only [drawnWf, Bool.and_eq_true, decide_eq_true_eq] at h
    by_cases hc : cap < c
    · have hall : ∀ {l : Nat} {ls : List (Nat × Nat)}, cap < l → drawnWf l ls = true →
          ls.filter (fun l => decide (cap < l.1)) = ls := by
        intro l ls
        induction ls generalizing l with
        | nil => intros; rfl
        | cons x xs ih =>
          intro hl hx
          simp only [drawnWf, Bool.and_eq_true, decide_eq_true_eq] at hx
          rw [List.filter_cons, if_pos (by simp; omega), ih (by omega) hx.2]
      simp only [List.filter_cons, hc, decide_true, if_true, drawnWf, Bool.true_and]
      rw [hall hc h.2]; exact h.2
    · simp only [List.filter_cons, hc, decide_false]
      exact drawnWf_filter h.2

theorem Memory.forget_wf {m : Memory} {cap d : Nat} (h : m.wf = true) : (m.forget cap d).wf = true := by
  unfold Memory.forget
  split
  · exact h
  · next hc =>
    rw [Memory.wf_iff] at h ⊢
    refine ⟨?_, ?_⟩
    · refine cellsWf_of_drawAt ?_ (cellsWf_filter _ h.1)
      intro c hm hd
      have hcap : cap ≤ c.1 := by simpa using (List.mem_filter.1 hm).2
      simpa only [drawAt, Nat.not_lt.2 hcap, if_false, drawAt_filter hcap] using hd
    · simp only [drawnWf, Bool.and_eq_true, decide_eq_true_eq]
      exact ⟨by omega, drawnWf_filter h.2⟩

/-- The canonical form has no more than one listing for what the reads show. -/
theorem cellsWf_lookup_none {size : Nat} {d : List (Nat × Nat)} :
    ∀ {cs : List Host.Cell} {lo a : Nat}, cellsWf size d lo cs = true → a < lo → lookupCell cs a = none
  | [], _, _, _, _ => rfl
  | (b, w) :: cs, lo, a, h, ha => by
    simp only [cellsWf, Bool.and_eq_true, decide_eq_true_eq] at h
    rw [lookupCell, if_neg (by omega)]
    exact cellsWf_lookup_none h.2 (by omega)

end Sys2Proof.Machine
end

