-- ==== Sys2Proof/Laws/State.lean ====
section
/-! SUPPORT. One lemma per field per named update of the state, true by definition, so that no proof unfolds an update. -/

namespace Sys2Proof.Machine

/-! ### State.advanceIn -/

@[simp] theorem State.advanceIn_cfg (s : State) (k : Nat) : (s.advanceIn k).cfg = s.cfg := rfl
@[simp] theorem State.advanceIn_res (s : State) (k : Nat) : (s.advanceIn k).res = s.res := rfl
@[simp] theorem State.advanceIn_status (s : State) (k : Nat) : (s.advanceIn k).status = s.status := rfl
@[simp] theorem State.advanceIn_phase (s : State) (k : Nat) : (s.advanceIn k).phase = s.phase := rfl
@[simp] theorem State.advanceIn_job (s : State) (k : Nat) :
    (s.advanceIn k).job = { s.job with inPos := s.job.inPos + k } := rfl
@[simp] theorem State.advanceIn_inp (s : State) (k : Nat) : (s.advanceIn k).inp = s.inp := rfl
@[simp] theorem State.advanceIn_out (s : State) (k : Nat) : (s.advanceIn k).out = s.out := rfl
@[simp] theorem State.advanceIn_agenda (s : State) (k : Nat) : (s.advanceIn k).agenda = s.agenda := rfl
@[simp] theorem State.advanceIn_readData (s : State) (k : Nat) : (s.advanceIn k).readData = s.readData := rfl
@[simp] theorem State.advanceIn_doneUnread (s : State) (k : Nat) : (s.advanceIn k).doneUnread = s.doneUnread := rfl
@[simp] theorem State.advanceIn_draws (s : State) (k : Nat) : (s.advanceIn k).draws = s.draws := rfl

/-! ### State.setRunRem -/

@[simp] theorem State.setRunRem_cfg (s : State) (n : Nat) : (s.setRunRem n).cfg = s.cfg := rfl
@[simp] theorem State.setRunRem_res (s : State) (n : Nat) : (s.setRunRem n).res = s.res := rfl
@[simp] theorem State.setRunRem_status (s : State) (n : Nat) : (s.setRunRem n).status = s.status := rfl
@[simp] theorem State.setRunRem_phase (s : State) (n : Nat) : (s.setRunRem n).phase = s.phase := rfl
@[simp] theorem State.setRunRem_job (s : State) (n : Nat) : (s.setRunRem n).job = { s.job with runRem := n } := rfl
@[simp] theorem State.setRunRem_inp (s : State) (n : Nat) : (s.setRunRem n).inp = s.inp := rfl
@[simp] theorem State.setRunRem_out (s : State) (n : Nat) : (s.setRunRem n).out = s.out := rfl
@[simp] theorem State.setRunRem_agenda (s : State) (n : Nat) : (s.setRunRem n).agenda = s.agenda := rfl
@[simp] theorem State.setRunRem_readData (s : State) (n : Nat) : (s.setRunRem n).readData = s.readData := rfl
@[simp] theorem State.setRunRem_doneUnread (s : State) (n : Nat) : (s.setRunRem n).doneUnread = s.doneUnread := rfl
@[simp] theorem State.setRunRem_draws (s : State) (n : Nat) : (s.setRunRem n).draws = s.draws := rfl

/-! ### State.setRun -/

@[simp] theorem State.setRun_cfg (s : State) (n : Nat) : (s.setRun n).cfg = s.cfg := rfl
@[simp] theorem State.setRun_res (s : State) (n : Nat) : (s.setRun n).res = s.res := rfl
@[simp] theorem State.setRun_status (s : State) (n : Nat) : (s.setRun n).status = s.status := rfl
@[simp] theorem State.setRun_phase (s : State) (n : Nat) : (s.setRun n).phase = s.phase := rfl
@[simp] theorem State.setRun_job (s : State) (n : Nat) : (s.setRun n).job = { s.job with run := n } := rfl
@[simp] theorem State.setRun_inp (s : State) (n : Nat) : (s.setRun n).inp = s.inp := rfl
@[simp] theorem State.setRun_out (s : State) (n : Nat) : (s.setRun n).out = s.out := rfl
@[simp] theorem State.setRun_agenda (s : State) (n : Nat) : (s.setRun n).agenda = s.agenda := rfl
@[simp] theorem State.setRun_readData (s : State) (n : Nat) : (s.setRun n).readData = s.readData := rfl
@[simp] theorem State.setRun_doneUnread (s : State) (n : Nat) : (s.setRun n).doneUnread = s.doneUnread := rfl
@[simp] theorem State.setRun_draws (s : State) (n : Nat) : (s.setRun n).draws = s.draws := rfl

/-! ### State.remember -/

@[simp] theorem State.remember_cfg (s : State) (p : Pixel) : (s.remember p).cfg = s.cfg := rfl
@[simp] theorem State.remember_res (s : State) (p : Pixel) : (s.remember p).res = s.res := rfl
@[simp] theorem State.remember_status (s : State) (p : Pixel) : (s.remember p).status = s.status := rfl
@[simp] theorem State.remember_phase (s : State) (p : Pixel) : (s.remember p).phase = s.phase := rfl
@[simp] theorem State.remember_job (s : State) (p : Pixel) :
    (s.remember p).job = { s.job with cache := cacheStore s.job.cache p, prev := p } := rfl
@[simp] theorem State.remember_inp (s : State) (p : Pixel) : (s.remember p).inp = s.inp := rfl
@[simp] theorem State.remember_out (s : State) (p : Pixel) : (s.remember p).out = s.out := rfl
@[simp] theorem State.remember_agenda (s : State) (p : Pixel) : (s.remember p).agenda = s.agenda := rfl
@[simp] theorem State.remember_readData (s : State) (p : Pixel) : (s.remember p).readData = s.readData := rfl
@[simp] theorem State.remember_doneUnread (s : State) (p : Pixel) : (s.remember p).doneUnread = s.doneUnread := rfl
@[simp] theorem State.remember_draws (s : State) (p : Pixel) : (s.remember p).draws = s.draws := rfl

/-! ### State.countPixel -/

@[simp] theorem State.countPixel_cfg (s : State) : s.countPixel.cfg = s.cfg := rfl
@[simp] theorem State.countPixel_res (s : State) : s.countPixel.res = s.res := rfl
@[simp] theorem State.countPixel_status (s : State) : s.countPixel.status = s.status := rfl
@[simp] theorem State.countPixel_phase (s : State) : s.countPixel.phase = s.phase := rfl
@[simp] theorem State.countPixel_job (s : State) :
    s.countPixel.job = { s.job with pixPos := s.job.pixPos + 1 } := rfl
@[simp] theorem State.countPixel_inp (s : State) : s.countPixel.inp = s.inp := rfl
@[simp] theorem State.countPixel_out (s : State) : s.countPixel.out = s.out := rfl
@[simp] theorem State.countPixel_agenda (s : State) : s.countPixel.agenda = s.agenda := rfl
@[simp] theorem State.countPixel_readData (s : State) : s.countPixel.readData = s.readData := rfl
@[simp] theorem State.countPixel_doneUnread (s : State) : s.countPixel.doneUnread = s.doneUnread := rfl
@[simp] theorem State.countPixel_draws (s : State) : s.countPixel.draws = s.draws := rfl

/-! ### State.received -/

@[simp] theorem State.received_cfg (s : State) (v : Word64) : (s.received v).cfg = s.cfg := rfl
@[simp] theorem State.received_res (s : State) (v : Word64) : (s.received v).res = s.res := rfl
@[simp] theorem State.received_status (s : State) (v : Word64) : (s.received v).status = s.status := rfl
@[simp] theorem State.received_phase (s : State) (v : Word64) : (s.received v).phase = s.phase := rfl
@[simp] theorem State.received_job (s : State) (v : Word64) : (s.received v).job = s.job := rfl
@[simp] theorem State.received_inp (s : State) (v : Word64) : (s.received v).inp = s.inp := rfl
@[simp] theorem State.received_out (s : State) (v : Word64) : (s.received v).out = s.out := rfl
@[simp] theorem State.received_agenda (s : State) (v : Word64) : (s.received v).agenda = s.agenda := rfl
@[simp] theorem State.received_readData (s : State) (v : Word64) : (s.received v).readData = v := rfl
@[simp] theorem State.received_doneUnread (s : State) (v : Word64) : (s.received v).doneUnread = s.doneUnread := rfl
@[simp] theorem State.received_draws (s : State) (v : Word64) : (s.received v).draws = s.draws := rfl

/-! ### State.receivedFree -/

@[simp] theorem State.receivedFree_cfg (s : State) (w : Nat) : (s.receivedFree w).cfg = s.cfg := rfl
@[simp] theorem State.receivedFree_res (s : State) (w : Nat) : (s.receivedFree w).res = s.res := rfl
@[simp] theorem State.receivedFree_status (s : State) (w : Nat) : (s.receivedFree w).status = s.status := rfl
@[simp] theorem State.receivedFree_phase (s : State) (w : Nat) : (s.receivedFree w).phase = s.phase := rfl
@[simp] theorem State.receivedFree_job (s : State) (w : Nat) : (s.receivedFree w).job = s.job := rfl
@[simp] theorem State.receivedFree_inp (s : State) (w : Nat) : (s.receivedFree w).inp = s.inp := rfl
@[simp] theorem State.receivedFree_out (s : State) (w : Nat) : (s.receivedFree w).out = s.out := rfl
@[simp] theorem State.receivedFree_doneUnread (s : State) (w : Nat) : (s.receivedFree w).doneUnread =
    s.doneUnread := rfl
@[simp] theorem State.receivedFree_agenda (s : State) (w : Nat) : (s.receivedFree w).agenda = s.agenda := rfl
@[simp] theorem State.receivedFree_readData (s : State) (w : Nat) : (s.receivedFree w).readData =
    (Config.freeBits w s.draws 0).setWidth 64 := rfl
@[simp] theorem State.receivedFree_draws (s : State) (w : Nat) : (s.receivedFree w).draws = s.draws + 1 := rfl

/-! ### State.awaitDone -/

@[simp] theorem State.awaitDone_cfg (s : State) : s.awaitDone.cfg = s.cfg := rfl
@[simp] theorem State.awaitDone_res (s : State) : s.awaitDone.res = s.res := rfl
@[simp] theorem State.awaitDone_status (s : State) : s.awaitDone.status = s.status := rfl
@[simp] theorem State.awaitDone_phase (s : State) : s.awaitDone.phase = s.phase := rfl
@[simp] theorem State.awaitDone_job (s : State) : s.awaitDone.job = s.job := rfl
@[simp] theorem State.awaitDone_inp (s : State) : s.awaitDone.inp = s.inp := rfl
@[simp] theorem State.awaitDone_out (s : State) : s.awaitDone.out = s.out := rfl
@[simp] theorem State.awaitDone_doneUnread (s : State) : s.awaitDone.doneUnread = true := rfl
@[simp] theorem State.awaitDone_agenda (s : State) : s.awaitDone.agenda = s.agenda := rfl
@[simp] theorem State.awaitDone_readData (s : State) : s.awaitDone.readData = s.readData := rfl
@[simp] theorem State.awaitDone_draws (s : State) : s.awaitDone.draws = s.draws := rfl

/-! ### State.sawStatus -/

@[simp] theorem State.sawStatus_cfg (s : State) : s.sawStatus.cfg = s.cfg := rfl
@[simp] theorem State.sawStatus_res (s : State) : s.sawStatus.res = s.res := rfl
@[simp] theorem State.sawStatus_status (s : State) : s.sawStatus.status = s.status := rfl
@[simp] theorem State.sawStatus_phase (s : State) : s.sawStatus.phase = s.phase := rfl
@[simp] theorem State.sawStatus_job (s : State) : s.sawStatus.job = s.job := rfl
@[simp] theorem State.sawStatus_inp (s : State) : s.sawStatus.inp = s.inp := rfl
@[simp] theorem State.sawStatus_out (s : State) : s.sawStatus.out = s.out := rfl
@[simp] theorem State.sawStatus_doneUnread (s : State) : s.sawStatus.doneUnread =
    (s.doneUnread && !(!s.status.busy && s.status.done)) := rfl
@[simp] theorem State.sawStatus_agenda (s : State) : s.sawStatus.agenda = s.agenda := rfl
@[simp] theorem State.sawStatus_readData (s : State) : s.sawStatus.readData = s.readData := rfl
@[simp] theorem State.sawStatus_draws (s : State) : s.sawStatus.draws = s.draws := rfl

/-! ### State.popTurn -/

@[simp] theorem State.popTurn_cfg (s : State) (ts : List Turn) : (s.popTurn ts).cfg = s.cfg := rfl
@[simp] theorem State.popTurn_res (s : State) (ts : List Turn) : (s.popTurn ts).res = s.res := rfl
@[simp] theorem State.popTurn_status (s : State) (ts : List Turn) : (s.popTurn ts).status = s.status := rfl
@[simp] theorem State.popTurn_phase (s : State) (ts : List Turn) : (s.popTurn ts).phase = s.phase := rfl
@[simp] theorem State.popTurn_job (s : State) (ts : List Turn) : (s.popTurn ts).job = s.job := rfl
@[simp] theorem State.popTurn_inp (s : State) (ts : List Turn) : (s.popTurn ts).inp = s.inp := rfl
@[simp] theorem State.popTurn_out (s : State) (ts : List Turn) : (s.popTurn ts).out = s.out := rfl
@[simp] theorem State.popTurn_agenda (s : State) (ts : List Turn) : (s.popTurn ts).agenda = ts := rfl
@[simp] theorem State.popTurn_readData (s : State) (ts : List Turn) : (s.popTurn ts).readData = s.readData := rfl
@[simp] theorem State.popTurn_doneUnread (s : State) (ts : List Turn) : (s.popTurn ts).doneUnread = s.doneUnread := rfl
@[simp] theorem State.popTurn_draws (s : State) (ts : List Turn) : (s.popTurn ts).draws = s.draws := rfl

/-! ### finishDecode -/

@[simp] theorem finishDecode_cfg (s : State) : (finishDecode s).cfg = s.cfg := rfl
@[simp] theorem finishDecode_res (s : State) :
    (finishDecode s).res = { outLen := BitVec.ofNat 64 (s.job.jN * s.job.jReq.toNat), width := s.job.jW, height := s.job.jH, channels := s.job.jC, colorspace := s.job.jCS } := rfl
@[simp] theorem finishDecode_status (s : State) : (finishDecode s).status = Status.succeeded := rfl
@[simp] theorem finishDecode_phase (s : State) : (finishDecode s).phase = .idle := rfl
@[simp] theorem finishDecode_job (s : State) : (finishDecode s).job = s.job := rfl
@[simp] theorem finishDecode_inp (s : State) : (finishDecode s).inp = s.inp := rfl
@[simp] theorem finishDecode_out (s : State) : (finishDecode s).out = s.out := rfl
@[simp] theorem finishDecode_agenda (s : State) : (finishDecode s).agenda = s.agenda := rfl
@[simp] theorem finishDecode_readData (s : State) : (finishDecode s).readData = s.readData := rfl
@[simp] theorem finishDecode_doneUnread (s : State) : (finishDecode s).doneUnread = s.doneUnread := rfl
@[simp] theorem finishDecode_draws (s : State) : (finishDecode s).draws = s.draws := rfl

/-! ### finishEncode -/

@[simp] theorem finishEncode_cfg (s : State) : (finishEncode s).cfg = s.cfg := rfl
@[simp] theorem finishEncode_status (s : State) : (finishEncode s).status = Status.succeeded := rfl
@[simp] theorem finishEncode_phase (s : State) : (finishEncode s).phase = .idle := rfl
@[simp] theorem finishEncode_job (s : State) : (finishEncode s).job = s.job := rfl
@[simp] theorem finishEncode_inp (s : State) : (finishEncode s).inp = s.inp := rfl
@[simp] theorem finishEncode_out (s : State) : (finishEncode s).out = s.out := rfl
@[simp] theorem finishEncode_agenda (s : State) : (finishEncode s).agenda = s.agenda := rfl
@[simp] theorem finishEncode_readData (s : State) : (finishEncode s).readData = s.readData := rfl
@[simp] theorem finishEncode_doneUnread (s : State) : (finishEncode s).doneUnread = s.doneUnread := rfl
@[simp] theorem finishEncode_draws (s : State) : (finishEncode s).draws = s.draws + 1 := rfl
@[simp] theorem finishEncode_outLen (s : State) : (finishEncode s).res.outLen = BitVec.ofNat 64 s.job.outPos := rfl

/-! ### raiseError -/

@[simp] theorem raiseError_cfg (e : ErrorCode) (s : State) : (raiseError e s).cfg = s.cfg := rfl
@[simp] theorem raiseError_status (e : ErrorCode) (s : State) : (raiseError e s).status = Status.failed e := rfl
@[simp] theorem raiseError_phase (e : ErrorCode) (s : State) : (raiseError e s).phase = .idle := rfl
@[simp] theorem raiseError_job (e : ErrorCode) (s : State) : (raiseError e s).job = s.job := rfl
@[simp] theorem raiseError_inp (e : ErrorCode) (s : State) : (raiseError e s).inp = s.inp := rfl
@[simp] theorem raiseError_out (e : ErrorCode) (s : State) :
    (raiseError e s).out = if s.phase = .decPixel then s.out.forget s.job.jOutCap.toNat s.draws else s.out := rfl
@[simp] theorem raiseError_agenda (e : ErrorCode) (s : State) : (raiseError e s).agenda = s.agenda := rfl
@[simp] theorem raiseError_readData (e : ErrorCode) (s : State) : (raiseError e s).readData = s.readData := rfl
@[simp] theorem raiseError_doneUnread (e : ErrorCode) (s : State) : (raiseError e s).doneUnread = s.doneUnread := rfl
@[simp] theorem raiseError_draws (e : ErrorCode) (s : State) : (raiseError e s).draws = s.draws + 1 := rfl
@[simp] theorem raiseError_outLen (e : ErrorCode) (s : State) : (raiseError e s).res.outLen = 0 := rfl

/-! ### resetBlock -/

@[simp] theorem resetBlock_cfg (s : State) : (resetBlock s).cfg = State.reset.cfg := rfl
@[simp] theorem resetBlock_res (s : State) : (resetBlock s).res = State.reset.res := rfl
@[simp] theorem resetBlock_status (s : State) : (resetBlock s).status = Status.cleared := rfl
@[simp] theorem resetBlock_phase (s : State) : (resetBlock s).phase = .idle := rfl
@[simp] theorem resetBlock_job (s : State) : (resetBlock s).job = Job.unspecified s.draws := rfl
@[simp] theorem resetBlock_inp (s : State) : (resetBlock s).inp = s.inp := rfl
@[simp] theorem resetBlock_out (s : State) :
    (resetBlock s).out = if s.status.busy then s.out.forget s.job.jOutCap.toNat s.draws else s.out := rfl
@[simp] theorem resetBlock_agenda (s : State) : (resetBlock s).agenda = s.agenda := rfl
@[simp] theorem resetBlock_readData (s : State) : (resetBlock s).readData = s.readData := rfl
@[simp] theorem resetBlock_doneUnread (s : State) : (resetBlock s).doneUnread = false := rfl
@[simp] theorem resetBlock_draws (s : State) : (resetBlock s).draws = s.draws + 1 := rfl

/-! ### latchEncode -/

@[simp] theorem latchEncode_cfg (s : State) : (latchEncode s).cfg = s.cfg := rfl
@[simp] theorem latchEncode_res (s : State) : (latchEncode s).res = s.res := rfl
@[simp] theorem latchEncode_status (s : State) : (latchEncode s).status = s.status := rfl
@[simp] theorem latchEncode_phase (s : State) : (latchEncode s).phase = s.phase := rfl
@[simp] theorem latchEncode_inp (s : State) : (latchEncode s).inp = s.inp := rfl
@[simp] theorem latchEncode_out (s : State) : (latchEncode s).out = s.out := rfl
@[simp] theorem latchEncode_agenda (s : State) : (latchEncode s).agenda = s.agenda := rfl
@[simp] theorem latchEncode_readData (s : State) : (latchEncode s).readData = s.readData := rfl
@[simp] theorem latchEncode_doneUnread (s : State) : (latchEncode s).doneUnread = s.doneUnread := rfl
@[simp] theorem latchEncode_draws (s : State) : (latchEncode s).draws = s.draws := rfl

/-! ### latchDecode -/

@[simp] theorem latchDecode_cfg (s : State) : (latchDecode s).cfg = s.cfg := rfl
@[simp] theorem latchDecode_res (s : State) : (latchDecode s).res = s.res := rfl
@[simp] theorem latchDecode_status (s : State) : (latchDecode s).status = s.status := rfl
@[simp] theorem latchDecode_phase (s : State) : (latchDecode s).phase = s.phase := rfl
@[simp] theorem latchDecode_inp (s : State) : (latchDecode s).inp = s.inp := rfl
@[simp] theorem latchDecode_out (s : State) : (latchDecode s).out = s.out := rfl
@[simp] theorem latchDecode_agenda (s : State) : (latchDecode s).agenda = s.agenda := rfl
@[simp] theorem latchDecode_readData (s : State) : (latchDecode s).readData = s.readData := rfl
@[simp] theorem latchDecode_doneUnread (s : State) : (latchDecode s).doneUnread = s.doneUnread := rfl
@[simp] theorem latchDecode_draws (s : State) : (latchDecode s).draws = s.draws := rfl

end Sys2Proof.Machine
end

