-- ==== Sys2Proof/Laws/Ops.lean ====
section
/-! SUPPORT. One lemma for each shared operation that says everything it can do: cite these instead of unfolding it. -/

namespace Sys2Proof.Machine

/-! ### Sequencing -/

@[simp] theorem andThen_next (s : State) (f : State → Result) : andThen (.next s) f = f s := rfl
@[simp] theorem andThen_fault (r : Fault) (f : State → Result) : andThen (.fault r) f = .fault r := rfl
@[simp] theorem andThen_refused (r : Refusal) (f : State → Result) : andThen (.refused r) f = .refused r := rfl

/-- A sequence answers a next state exactly when its two parts do. -/
theorem andThen_eq_next {o : Result} {f : State → Result} {t : State} :
    andThen o f = .next t ↔ ∃ u, o = .next u ∧ f u = .next t := by
  cases o <;> simp [andThen]

/-! ### OUT -/

theorem storeOut_fits {a : Nat} {vs : List Byte} {s : State} (h : a + vs.length ≤ s.out.size) :
    storeOut a vs s = .next { s with out := s.out.writeBytes a vs } := by
  rw [storeOut, if_pos h]

theorem storeOut_eq_next {a : Nat} {vs : List Byte} {s t : State} :
    storeOut a vs s = .next t ↔ a + vs.length ≤ s.out.size ∧ t = { s with out := s.out.writeBytes a vs } := by
  unfold storeOut
  split <;> simp [*, eq_comm]

/-- The state after the bytes `vs` are emitted. -/
def State.emitted (s : State) (vs : List Byte) : State :=
  { s with out := s.out.writeBytes s.job.outPos vs, job.outPos := s.job.outPos + vs.length }

@[simp] theorem State.emitted_cfg (s : State) (vs : List Byte) : (s.emitted vs).cfg = s.cfg := rfl
@[simp] theorem State.emitted_res (s : State) (vs : List Byte) : (s.emitted vs).res = s.res := rfl
@[simp] theorem State.emitted_status (s : State) (vs : List Byte) : (s.emitted vs).status = s.status := rfl
@[simp] theorem State.emitted_phase (s : State) (vs : List Byte) : (s.emitted vs).phase = s.phase := rfl
@[simp] theorem State.emitted_job (s : State) (vs : List Byte) :
    (s.emitted vs).job = { s.job with outPos := s.job.outPos + vs.length } := rfl
@[simp] theorem State.emitted_inp (s : State) (vs : List Byte) : (s.emitted vs).inp = s.inp := rfl
@[simp] theorem State.emitted_out (s : State) (vs : List Byte) :
    (s.emitted vs).out = s.out.writeBytes s.job.outPos vs := rfl
@[simp] theorem State.emitted_agenda (s : State) (vs : List Byte) : (s.emitted vs).agenda = s.agenda := rfl
@[simp] theorem State.emitted_readData (s : State) (vs : List Byte) : (s.emitted vs).readData = s.readData := rfl
@[simp] theorem State.emitted_doneUnread (s : State) (vs : List Byte) : (s.emitted vs).doneUnread = s.doneUnread := rfl
@[simp] theorem State.emitted_draws (s : State) (vs : List Byte) : (s.emitted vs).draws = s.draws := rfl

theorem emit_fits {vs : List Byte} {s : State} (h : s.job.outPos + vs.length ≤ s.out.size) :
    emit vs s = .next (s.emitted vs) := by
  rw [emit, storeOut_fits h]; rfl

theorem emit_eq_next {vs : List Byte} {s t : State} :
    emit vs s = .next t ↔ s.job.outPos + vs.length ≤ s.out.size ∧ t = s.emitted vs := by
  constructor
  · intro h
    obtain ⟨u, hu, ht⟩ := andThen_eq_next.1 h
    obtain ⟨hfit, rfl⟩ := storeOut_eq_next.1 hu
    exact ⟨hfit, by cases ht; rfl⟩
  · rintro ⟨h, rfl⟩; exact emit_fits h

/-! ### The cache RAM -/

theorem cacheRead_cacheStore (c : Cache) (p : Pixel) (i : BitVec 6) :
    cacheRead (cacheStore c p) i = if i = pixelHash p then p else cacheRead c i := by
  unfold cacheRead cacheStore
  by_cases h : i = pixelHash p
  · subst h; simp
  · have : (pixelHash p).toNat ≠ i.toNat := fun e => h (BitVec.eq_of_toNat_eq e.symm)
    simp [h, this]

@[simp] theorem cacheRead_clearedCache (i : BitVec 6) : cacheRead clearedCache i = zeroPixel := by
  simp [cacheRead, clearedCache]

/-- Two caches that read the same are the same. -/
theorem cache_ext {c d : Cache} (h : ∀ i, cacheRead c i = cacheRead d i) : c = d := by
  ext1 i hi
  have hi' : i % 64 = i := Nat.mod_eq_of_lt hi
  simpa [cacheRead, hi'] using h (BitVec.ofNat 6 i)

theorem CacheHashed_clearedCache : CacheHashed clearedCache := fun i => .inl (cacheRead_clearedCache i)

theorem CacheHashed.store {c : Cache} (h : CacheHashed c) (p : Pixel) : CacheHashed (cacheStore c p) := by
  intro i
  rw [cacheRead_cacheStore]
  split
  · next hi => exact .inr hi.symm
  · exact h i

/-! ### Producing a pixel -/

/-- How many bytes a produced pixel takes in OUT (R116). -/
theorem pixelBytes_length (req : Byte) (p : Pixel) : (pixelBytes req p).length = if req = 4 then 4 else 3 := by
  unfold pixelBytes; split <;> rfl

/-- The state after a pixel is committed, before the finish (R116). -/
def State.committed (s : State) (px : Pixel) : State :=
  { (s.remember px).countPixel with out := s.out.writeBytes (s.job.pixPos * s.job.jReq.toNat) (pixelBytes s.job.jReq px) }

@[simp] theorem State.committed_cfg (s : State) (px : Pixel) : (s.committed px).cfg = s.cfg := rfl
@[simp] theorem State.committed_res (s : State) (px : Pixel) : (s.committed px).res = s.res := rfl
@[simp] theorem State.committed_status (s : State) (px : Pixel) : (s.committed px).status = s.status := rfl
@[simp] theorem State.committed_phase (s : State) (px : Pixel) : (s.committed px).phase = s.phase := rfl
@[simp] theorem State.committed_job (s : State) (px : Pixel) : (s.committed px).job =
    { s.job with cache := cacheStore s.job.cache px, prev := px, pixPos := s.job.pixPos + 1 } := rfl
@[simp] theorem State.committed_inp (s : State) (px : Pixel) : (s.committed px).inp = s.inp := rfl
@[simp] theorem State.committed_out (s : State) (px : Pixel) : (s.committed px).out =
    s.out.writeBytes (s.job.pixPos * s.job.jReq.toNat) (pixelBytes s.job.jReq px) := rfl
@[simp] theorem State.committed_agenda (s : State) (px : Pixel) : (s.committed px).agenda = s.agenda := rfl
@[simp] theorem State.committed_readData (s : State) (px : Pixel) : (s.committed px).readData = s.readData := rfl
@[simp] theorem State.committed_doneUnread (s : State) (px : Pixel) : (s.committed px).doneUnread = s.doneUnread := rfl
@[simp] theorem State.committed_draws (s : State) (px : Pixel) : (s.committed px).draws = s.draws := rfl

theorem produce_fits {px : Pixel} {s : State}
    (h : s.job.pixPos * s.job.jReq.toNat + (pixelBytes s.job.jReq px).length ≤ s.out.size) :
    produce px s = .next (finishIfLast (s.committed px)) := by
  rw [produce, storeOut_fits (by simpa using h)]; rfl

/-- Everything `produce` can do when it answers a next state. -/
theorem produce_eq_next {px : Pixel} {s t : State} :
    produce px s = .next t ↔
      s.job.pixPos * s.job.jReq.toNat + (pixelBytes s.job.jReq px).length ≤ s.out.size ∧
        t = finishIfLast (s.committed px) := by
  constructor
  · intro h
    obtain ⟨u, hu, ht⟩ := andThen_eq_next.1 h
    obtain ⟨hfit, rfl⟩ := storeOut_eq_next.1 hu
    exact ⟨by simpa using hfit, by cases ht; rfl⟩
  · rintro ⟨h, rfl⟩; exact produce_fits h

theorem finishIfLast_last {s : State} (h : s.job.pixPos = s.job.jN) : finishIfLast s = finishDecode s := if_pos h
theorem finishIfLast_notLast {s : State} (h : s.job.pixPos ≠ s.job.jN) : finishIfLast s = s := if_neg h
@[simp] theorem finishIfLast_cfg (s : State) : (finishIfLast s).cfg = s.cfg := by unfold finishIfLast; split <;> rfl
@[simp] theorem finishIfLast_job (s : State) : (finishIfLast s).job = s.job := by unfold finishIfLast; split <;> rfl
@[simp] theorem finishIfLast_inp (s : State) : (finishIfLast s).inp = s.inp := by unfold finishIfLast; split <;> rfl
@[simp] theorem finishIfLast_out (s : State) : (finishIfLast s).out = s.out := by unfold finishIfLast; split <;> rfl
@[simp] theorem finishIfLast_agenda (s : State) : (finishIfLast s).agenda = s.agenda := by
  unfold finishIfLast; split <;> rfl
@[simp] theorem finishIfLast_readData (s : State) : (finishIfLast s).readData = s.readData := by
  unfold finishIfLast; split <;> rfl
@[simp] theorem finishIfLast_doneUnread (s : State) : (finishIfLast s).doneUnread = s.doneUnread := by
  unfold finishIfLast; split <;> rfl
@[simp] theorem finishIfLast_draws (s : State) : (finishIfLast s).draws = s.draws := by
  unfold finishIfLast; split <;> rfl

theorem needBytes_enough {k : Nat} {s : State} {go : State → Result} (h : s.job.inPos + k ≤ s.job.jInLen.toNat) :
    needBytes k s go = go s := if_neg (by omega)

theorem needBytes_short {k : Nat} {s : State} {go : State → Result} (h : s.job.jInLen.toNat < s.job.inPos + k) :
    needBytes k s go = .next (raiseError .unexpectedEndOfStream s) := if_pos h

/-! ### The encoder's parts -/

/-- The pending run is written and forgotten. -/
theorem emitRun_eq_next {s t : State} :
    emitRun s = .next t ↔
      s.job.outPos + 1 ≤ s.out.size ∧ t = (s.emitted (encode (.run s.job.run))).setRun 0 := by
  unfold emitRun
  rw [andThen_eq_next]
  constructor
  · rintro ⟨u, hu, ht⟩
    obtain ⟨hfit, rfl⟩ := emit_eq_next.1 hu
    exact ⟨hfit, by cases ht; rfl⟩
  · rintro ⟨hfit, rfl⟩
    exact ⟨_, emit_fits hfit, rfl⟩

/-- The bytes of a flush: none without a pending run. -/
def flushBytes (run : Nat) : List Byte := if 0 < run then encode (.run run) else []

theorem flushBytes_length (run : Nat) : (flushBytes run).length = if 0 < run then 1 else 0 := by
  unfold flushBytes; split <;> rfl

theorem State.emitted_nil {s : State} (h : s.job.run = 0) : (s.emitted []).setRun 0 = s := by
  obtain ⟨_, _, _, _, ⟨_, _, _, _, _, _, _, _, _, _, _, _, _, _, _⟩, _, _, _, _, _⟩ := s
  cases h; rfl

theorem State.emitted_emitted (s : State) (xs ys : List Byte) :
    ((s.emitted xs).setRun 0).emitted ys = (s.emitted (xs ++ ys)).setRun 0 := by
  simp [State.emitted, State.setRun, Memory.writeBytes_append, Nat.add_assoc]

/-- A flush writes its bytes and leaves no pending run. -/
theorem flushRun_fits {s : State} (h : s.job.outPos + (flushBytes s.job.run).length ≤ s.out.size) :
    flushRun s = .next ((s.emitted (flushBytes s.job.run)).setRun 0) := by
  unfold flushRun
  by_cases hr : 0 < s.job.run
  · rw [if_pos hr, emitRun_eq_next]
    simp only [flushBytes, if_pos hr] at h ⊢
    exact ⟨h, trivial⟩
  · rw [if_neg hr]
    have h0 : s.job.run = 0 := by omega
    simp [flushBytes, hr, State.emitted_nil h0]

/-- Everything a flush can do when it answers a next state. -/
theorem flushRun_eq_next {s t : State} (h : flushRun s = .next t) :
    t = (s.emitted (flushBytes s.job.run)).setRun 0 := by
  unfold flushRun at h
  by_cases hr : 0 < s.job.run
  · rw [if_pos hr, emitRun_eq_next] at h
    simpa [flushBytes, hr] using h.2
  · rw [if_neg hr] at h
    cases h
    simp [flushBytes, hr, State.emitted_nil (show s.job.run = 0 by omega)]

/-- The chunk chosen for a pixel that is not part of a run, in a state (R75). -/
def chunkFor (p : Pixel) (s : State) : Instr :=
  chooseChunk p s.job.prev (cacheRead s.job.cache (pixelHash p))

/-- A non-run pixel writes the flush and its chunk, then the cache and `prev` (R86). -/
theorem encodePixel_fits {p : Pixel} {s : State}
    (h : s.job.outPos + (flushBytes s.job.run ++ encode (chunkFor p s)).length ≤ s.out.size) :
    encodePixel p s = .next (((s.emitted (flushBytes s.job.run ++ encode (chunkFor p s))).setRun 0).remember p) := by
  rw [List.length_append] at h
  unfold encodePixel
  rw [flushRun_fits (by omega), andThen_next, ← State.emitted_emitted]
  rw [emit_fits (by simpa [chunkFor, Nat.add_assoc] using h)]
  rfl

/-- Everything a non-run pixel can do when it answers a next state. -/
theorem encodePixel_eq_next {p : Pixel} {s t : State} (h : encodePixel p s = .next t) :
    t = ((s.emitted (flushBytes s.job.run ++ encode (chunkFor p s))).setRun 0).remember p := by
  obtain ⟨u, hu, h⟩ := andThen_eq_next.1 h
  obtain rfl := flushRun_eq_next hu
  obtain ⟨w, hw, h⟩ := andThen_eq_next.1 h
  obtain ⟨-, rfl⟩ := emit_eq_next.1 hw
  cases h
  rw [← State.emitted_emitted]; rfl

/-- A run pixel either counts, or writes the full run (R87). -/
theorem extendRun_eq_next {s t : State} (h : extendRun s = .next t) :
    (s.job.run + 1 ≠ 62 ∧ t = s.setRun (s.job.run + 1)) ∨
      (s.job.run + 1 = 62 ∧ t = (s.emitted (encode (.run 62))).setRun 0) := by
  have hx : extendRun s = if s.job.run + 1 = 62 then emitRun (s.setRun (s.job.run + 1)) else
      .next (s.setRun (s.job.run + 1)) := rfl
  rw [hx] at h
  by_cases hr : s.job.run + 1 = 62
  · rw [if_pos hr] at h
    obtain ⟨-, rfl⟩ := emitRun_eq_next.1 h
    exact .inr ⟨hr, by rw [State.setRun_job, hr]; rfl⟩
  · rw [if_neg hr] at h
    exact .inl ⟨hr, by cases h; rfl⟩

/-- A full run is written where OUT has room for its byte. -/
theorem extendRun_full {s : State} (hr : s.job.run + 1 = 62) (h : s.job.outPos + 1 ≤ s.out.size) :
    extendRun s = .next ((s.emitted (encode (.run 62))).setRun 0) := by
  have hx : extendRun s = if s.job.run + 1 = 62 then emitRun (s.setRun (s.job.run + 1)) else
      .next (s.setRun (s.job.run + 1)) := rfl
  rw [hx, if_pos hr, emitRun_eq_next]
  exact ⟨h, by rw [State.setRun_job, hr]; rfl⟩

theorem extendRun_counts {s : State} (hr : s.job.run + 1 ≠ 62) :
    extendRun s = .next (s.setRun (s.job.run + 1)) := if_neg hr

@[simp] theorem nextPixel_cfg (s : State) : (nextPixel s).cfg = s.cfg := by unfold nextPixel; dsimp only; split <;> rfl
@[simp] theorem nextPixel_res (s : State) : (nextPixel s).res = s.res := by unfold nextPixel; dsimp only; split <;> rfl
@[simp] theorem nextPixel_status (s : State) : (nextPixel s).status = s.status := by
  unfold nextPixel; dsimp only; split <;> rfl
@[simp] theorem nextPixel_job (s : State) : (nextPixel s).job = s.countPixel.job := by
  unfold nextPixel; dsimp only; split <;> rfl
@[simp] theorem nextPixel_inp (s : State) : (nextPixel s).inp = s.inp := by unfold nextPixel; dsimp only; split <;> rfl
@[simp] theorem nextPixel_out (s : State) : (nextPixel s).out = s.out := by unfold nextPixel; dsimp only; split <;> rfl
@[simp] theorem nextPixel_agenda (s : State) : (nextPixel s).agenda = s.agenda := by
  unfold nextPixel; dsimp only; split <;> rfl
@[simp] theorem nextPixel_readData (s : State) : (nextPixel s).readData = s.readData := by
  unfold nextPixel; dsimp only; split <;> rfl
@[simp] theorem nextPixel_doneUnread (s : State) : (nextPixel s).doneUnread = s.doneUnread := by
  unfold nextPixel; dsimp only; split <;> rfl
@[simp] theorem nextPixel_draws (s : State) : (nextPixel s).draws = s.draws := by
  unfold nextPixel; dsimp only; split <;> rfl
theorem nextPixel_phase (s : State) :
    (nextPixel s).phase = if s.job.pixPos + 1 = s.job.jN then .encTail else s.phase := by
  unfold nextPixel; dsimp only [State.countPixel]; split <;> rfl

/-- The pixel fetched, where IN has it (R85). -/
theorem fetchPixel_eq_some {s : State} {p : Pixel} (h : fetchPixel s = some p) :
    p = pixelAt s.inp s.job.jC s.job.pixPos := by
  unfold fetchPixel at h
  dsimp only at h
  split at h
  · cases h; rfl
  · cases h

theorem fetchPixel_inside {s : State}
    (h : s.job.pixPos * s.job.jC.toNat + pixelStride s.job.jC ≤ s.inp.size) :
    fetchPixel s = some (pixelAt s.inp s.job.jC s.job.pixPos) := by
  unfold fetchPixel
  dsimp only
  rw [if_pos h]; rfl

end Sys2Proof.Machine
end

