-- ==== Sys2Proof/Laws/PerInstr.lean ====
section
/-! SUPPORT. What is said of every chunk type, one lemma each: the shape of its encoding. -/

namespace Sys2Proof.Laws.EncodeShape

/-- The bytes of a chunk are as many as its type says (R52), and a well-formed chunk's first byte alone tells how many. -/
def Statement (i : Instr) : Prop :=
  (encode i).length = i.length ∧ (i.wf = true → (encode i).head?.map chunkLength = some i.length)

theorem rgb (r g b : Byte) : Statement (.rgb r g b) := ⟨rfl, fun _ => rfl⟩

theorem rgba (r g b a : Byte) : Statement (.rgba r g b a) := ⟨rfl, fun _ => rfl⟩

theorem index (k : BitVec 6) : Statement (.index k) := by
  refine ⟨rfl, fun _ => ?_⟩
  revert k; decide

theorem diff (dr dg db : Int) : Statement (.diff dr dg db) := by
  have key : ∀ x y z : BitVec 2, chunkLength (0b01#2 ++ x ++ y ++ z) = 1 := by decide
  exact ⟨rfl, fun _ => congrArg some (key _ _ _)⟩

theorem luma (dg drdg dbdg : Int) : Statement (.luma dg drdg dbdg) := by
  have key : ∀ x : BitVec 6, chunkLength (0b10#2 ++ x) = 2 := by decide
  exact ⟨rfl, fun _ => congrArg some (key _)⟩

theorem run (n : Nat) : Statement (.run n) := by
  refine ⟨rfl, fun h => ?_⟩
  obtain ⟨h1, h2⟩ := of_decide_eq_true h
  interval_cases n <;> rfl

end Sys2Proof.Laws.EncodeShape
end

