-- ==== Sys2Proof/Laws/Step.lean ====
section
/-! SUPPORT. What one turn does, said once: whose turn it is, the encoder's step as one update, the decoder's step as an error or one produced pixel. -/

namespace Sys2Proof.Machine

/-! ### Turns -/

/-- A turn of the core is a step of the job state machine, with the turn taken off the agenda. -/
theorem step_of_coreTurn {s : State} (h : CoreTurn s) : step s = coreStep (s.popTurn s.agenda.tail) := by
  unfold step takeTurn
  rcases h with h | ⟨rest, h⟩
  · rw [h]
    obtain ⟨_, _, _, _, _, _, _, _, _, _⟩ := s
    cases h; rfl
  · rw [h]; rfl

/-- A move of the host, with the turn taken off the agenda. -/
theorem step_of_hostTurn {s : State} {m : HostMove} {rest : List Turn} (h : s.agenda = .host m :: rest) :
    step s = hostStep m (s.popTurn rest) := by
  unfold step takeTurn
  rw [h]

/-- Every step is one or the other. -/
theorem turn_cases (s : State) : CoreTurn s ∨ ∃ m rest, s.agenda = .host m :: rest := by
  unfold CoreTurn
  cases h : s.agenda with
  | nil => exact .inl (.inl rfl)
  | cons x xs =>
    cases x with
    | core => exact .inl (.inr ⟨xs, rfl⟩)
    | host m => exact .inr ⟨m, xs, rfl⟩

/-! ### The encoder's step -/

/-- The bytes that an encode step writes for a pixel (R86 to R94). -/
def encodeStepBytes (p : Pixel) (j : Job) : List Byte :=
  if p = j.prev then (if j.run + 1 = 62 then encode (.run 62) else [])
  else flushBytes j.run ++ encode (chooseChunk p j.prev (cacheRead j.cache (pixelHash p)))

/-- The job after an encode step for a pixel. -/
def encodeStepJob (p : Pixel) (j : Job) : Job :=
  { j with
    prev := p
    run := if p = j.prev then (if j.run + 1 = 62 then 0 else j.run + 1) else 0
    cache := if p = j.prev then j.cache else cacheStore j.cache p
    pixPos := j.pixPos + 1
    outPos := j.outPos + (encodeStepBytes p j).length }

/-- The state after an encode step for a pixel. -/
def State.encoded (s : State) (p : Pixel) : State :=
  { s with
    job := encodeStepJob p s.job
    out := s.out.writeBytes s.job.outPos (encodeStepBytes p s.job)
    phase := if s.job.pixPos + 1 = s.job.jN then .encTail else .encPixel }

theorem State.eq_of_fields {s t : State} (h1 : s.cfg = t.cfg) (h2 : s.res = t.res) (h3 : s.status = t.status)
    (h4 : s.phase = t.phase) (h5 : s.job = t.job) (h6 : s.inp = t.inp) (h7 : s.out = t.out)
    (h8 : s.doneUnread = t.doneUnread) (h9 : s.agenda = t.agenda) (h10 : s.readData = t.readData)
    (h11 : s.draws = t.draws) : s = t := by
  cases s; cases t; simp_all

/-- An encode step whose pixel lies in IN and whose bytes fit OUT goes on, with exactly this effect. -/
theorem encPixelStep_fits {s : State} (hp : s.phase = .encPixel)
    (hin : s.job.pixPos * s.job.jC.toNat + pixelStride s.job.jC ≤ s.inp.size)
    (hout : s.job.outPos + (encodeStepBytes (pixelAt s.inp s.job.jC s.job.pixPos) s.job).length ≤ s.out.size) :
    encPixelStep s = .next (s.encoded (pixelAt s.inp s.job.jC s.job.pixPos)) := by
  unfold encPixelStep
  rw [fetchPixel_inside hin]
  dsimp only
  generalize pixelAt s.inp s.job.jC s.job.pixPos = p at *
  unfold encodeStepBytes at hout
  by_cases he : p = s.job.prev
  · rw [if_pos he] at hout ⊢
    by_cases hr : s.job.run + 1 = 62
    · rw [if_pos hr] at hout
      rw [extendRun_full hr hout, andThen_next]
      congr 1
      apply State.eq_of_fields <;>
        simp [State.encoded, encodeStepJob, encodeStepBytes, nextPixel_phase, he, hr, hp]
    · rw [extendRun_counts hr, andThen_next]
      congr 1
      apply State.eq_of_fields <;>
        simp [State.encoded, encodeStepJob, encodeStepBytes, nextPixel_phase, he, hr, hp, Memory.writeBytes]
  · rw [if_neg he] at hout ⊢
    rw [encodePixel_fits hout, andThen_next]
    congr 1
    apply State.eq_of_fields <;>
      simp [State.encoded, encodeStepJob, encodeStepBytes, nextPixel_phase, he, hp, chunkFor]

/-- The state after the tail step (R98). -/
def State.ended (s : State) : State :=
  finishEncode ((s.emitted (flushBytes s.job.run ++ endMarker)).setRun 0)

/-- A tail step whose bytes fit OUT ends the job. -/
theorem encTailStep_fits {s : State} (h : s.job.outPos + (flushBytes s.job.run).length + 8 ≤ s.out.size) :
    encTailStep s = .next s.ended := by
  unfold encTailStep
  rw [flushRun_fits (by omega), andThen_next, emit_fits (by simpa using h), andThen_next, State.emitted_emitted]
  rfl

/-- A pixel of a run or a chunk with its flush takes at most six bytes; without an RGBA chunk, five. -/
theorem encodeStepBytes_length (p : Pixel) (j : Job) :
    (encodeStepBytes p j).length ≤ (flushBytes j.run).length + (if p.a = j.prev.a then 4 else 5) := by
  unfold encodeStepBytes
  split
  · split <;> split <;> simp [encode]
  · rw [List.length_append]
    rcases chooseChunk_cases p j.prev (cacheRead j.cache (pixelHash p)) with
      ⟨-, h⟩ | ⟨-, -, h⟩ | ⟨-, -, h⟩ | ⟨-, ha, h⟩ | ⟨-, ha, h⟩ <;> rw [h] <;> simp [encode] <;>
      first | omega | (split <;> omega) | simp_all

/-! ### The decoder's step -/

/-- The pixel a chunk stands for in a decode job (R109 to R114). -/
def chunkPixel (i : Instr) (j : Job) : Pixel :=
  match i with
  | .rgb r g b => { r := r, g := g, b := b, a := j.prev.a }
  | .rgba r g b a => { r := r, g := g, b := b, a := a }
  | .index k => cacheRead j.cache k
  | .diff dr dg db => applyDIFF j.prev dr dg db
  | .luma dg drdg dbdg => applyLUMA j.prev dg drdg dbdg
  | .run _ => j.prev

/-- What `run_rem` is after a chunk (R114). -/
def chunkOwes (i : Instr) (j : Job) : Nat :=
  match i with
  | .run n => n - 1
  | _ => j.runRem

/-- A chunk that lies wholly below J_IN_LEN produces its pixel. -/
theorem exec_enough {i : Instr} {s : State} (h : s.job.inPos + (encode i).length ≤ s.job.jInLen.toNat) :
    exec i s = produce (chunkPixel i s.job) ((s.advanceIn (encode i).length).setRunRem (chunkOwes i s.job)) := by
  cases i with
  | rgb r g b =>
    rw [exec, execRgb, needBytes_enough (k := 4) h]
    rfl
  | rgba r g b a =>
    rw [exec, execRgba, needBytes_enough (k := 5) h]
    rfl
  | index k => rfl
  | diff dr dg db => rfl
  | luma dg drdg dbdg =>
    rw [exec, execLuma, needBytes_enough (k := 2) h]
    rfl
  | run n => rfl

/-- A decoded chunk takes its length off the bytes. -/
theorem decode_length {bytes rest : List Byte} {i : Instr} (h : decode bytes = .ok (i, rest)) :
    (encode i).length + rest.length = bytes.length := by
  unfold decode at h
  split at h
  · cases h
  · split_ifs at h <;> first
      | (cases h; simp only [List.length_cons, encode, List.length_nil]; omega)
      | (split at h
         · cases h; simp only [List.length_cons, encode, List.length_nil]; omega
         · cases h)

/-- A decoded run is 1..62 (R64). -/
theorem decode_run_range {bytes rest : List Byte} {n : Nat} (h : decode bytes = .ok (.run n, rest)) :
    1 ≤ n ∧ n ≤ 62 := by
  have key : ∀ b : Byte, b ≠ 0xFE → b ≠ 0xFF → bitField b 6 2 ≠ 0 → bitField b 6 2 ≠ 1 → bitField b 6 2 ≠ 2 →
      (bitField b 0 6).toNat ≤ 61 := by decide
  unfold decode at h
  split at h
  · cases h
  · split_ifs at h with h1 h2 h3 h4 h5
    · split at h <;> cases h
    · split at h <;> cases h
    · cases h
    · cases h
    · split at h <;> cases h
    · cases h
      exact ⟨by omega, by have := key _ h1 h2 h3 h4 h5; omega⟩

/-- What a DEC_PIXEL step makes of the stream: the pixel, the bytes used, the pixels owed after it (R106); none where the
stream ends. -/
def decodedPixel (s : State) : Option (Pixel × Nat × Nat) :=
  if 0 < s.job.runRem then some (s.job.prev, 0, s.job.runRem - 1)
  else
    match decode (availableBytes s) with
    | .error _ => none
    | .ok (i, _) => some (chunkPixel i s.job, (encode i).length, chunkOwes i s.job)

/-- What a DEC_PIXEL step uses lies below J_IN_LEN, and a RUN owes at most 61. -/
theorem decodedPixel_range {s : State} {px : Pixel} {used owed : Nat} (h : decodedPixel s = some (px, used, owed))
    (hpos : s.job.inPos ≤ s.job.jInLen.toNat) (hrun : s.job.runRem ≤ 61) :
    owed ≤ 61 ∧ s.job.inPos + used ≤ s.job.jInLen.toNat := by
  unfold decodedPixel at h
  split at h
  · cases h; omega
  · cases hd : decode (availableBytes s) with
    | error e => rw [hd] at h; cases h
    | ok x =>
      obtain ⟨i, rest⟩ := x
      rw [hd] at h
      cases h
      have hlen := decode_length hd
      simp only [availableBytes, List.length_map, List.length_range, availableLength] at hlen
      refine ⟨?_, by omega⟩
      cases i with
      | run n => have := decode_run_range hd; simp only [chunkOwes]; omega
      | _ => exact hrun

/-- One DEC_PIXEL step, with the stream inside IN: the end of the stream, or one produced pixel. -/
theorem decPixelStep_eq {s : State} (hpos : s.job.inPos ≤ s.job.jInLen.toNat)
    (hin : s.job.jInLen.toNat ≤ s.inp.size) :
    decPixelStep s =
      match decodedPixel s with
      | none => .next (raiseError .unexpectedEndOfStream s)
      | some (px, used, owed) => produce px ((s.advanceIn used).setRunRem owed) := by
  unfold decPixelStep decodedPixel
  by_cases hr : 0 < s.job.runRem
  · rw [if_pos hr, if_pos hr]; rfl
  · rw [if_neg hr, if_neg hr]
    unfold runChunk
    rw [if_neg (by unfold availableLength; omega)]
    cases hd : decode (availableBytes s) with
    | error e => rfl
    | ok x =>
      obtain ⟨i, rest⟩ := x
      have hlen := decode_length hd
      simp only [availableBytes, List.length_map, List.length_range, availableLength] at hlen
      exact exec_enough (by omega)

/-- The same as two cases. -/
theorem decPixelStep_cases {s : State} (hpos : s.job.inPos ≤ s.job.jInLen.toNat)
    (hin : s.job.jInLen.toNat ≤ s.inp.size) (hrun : s.job.runRem ≤ 61) :
    decPixelStep s = .next (raiseError .unexpectedEndOfStream s) ∨
      ∃ px used owed, owed ≤ 61 ∧ s.job.inPos + used ≤ s.job.jInLen.toNat ∧
        decPixelStep s = produce px ((s.advanceIn used).setRunRem owed) := by
  rw [decPixelStep_eq hpos hin]
  cases h : decodedPixel s with
  | none => exact .inl rfl
  | some x =>
    obtain ⟨px, used, owed⟩ := x
    have hx := decodedPixel_range h hpos hrun
    exact .inr ⟨px, used, owed, hx.1, hx.2, rfl⟩

/-- No step of the core changes the hand-over (R42). -/
theorem coreStep_doneUnread {s t : State} (h : coreStep s = .next t) : t.doneUnread = s.doneUnread := by
  unfold coreStep at h
  split at h
  · cases h; rfl
  · unfold encPixelStep at h
    split at h
    · cases h
    · obtain ⟨u, hu, h⟩ := andThen_eq_next.1 h
      cases h
      rw [nextPixel_doneUnread]
      split_ifs at hu
      · rcases extendRun_eq_next hu with ⟨-, rfl⟩ | ⟨-, rfl⟩ <;> rfl
      · rw [encodePixel_eq_next hu]; rfl
  · unfold encTailStep at h
    obtain ⟨u, hu, h⟩ := andThen_eq_next.1 h
    rw [flushRun_eq_next hu] at h
    obtain ⟨w, hw, h⟩ := andThen_eq_next.1 h
    obtain ⟨-, rfl⟩ := emit_eq_next.1 hw
    cases h; rfl
  · unfold decPixelStep at h
    split_ifs at h
    · obtain ⟨-, rfl⟩ := produce_eq_next.1 h
      rw [finishIfLast_doneUnread]; rfl
    · unfold runChunk at h
      split_ifs at h
      split at h
      · cases h; rfl
      · next i _ _ =>
        cases i <;>
          simp only [exec, execRgb, execRgba, execIndex, execDiff, execLuma, execRun, needBytes] at h <;>
          (try split_ifs at h) <;>
          first
          | (obtain ⟨-, rfl⟩ := produce_eq_next.1 h; rw [finishIfLast_doneUnread]; rfl)
          | (cases h; rfl)

/-- Nor does what a START does beside awaiting DONE. -/
theorem startDecode_doneUnread {s t : State} (h : startDecode s = .next t) : t.doneUnread = s.doneUnread := by
  unfold startDecode at h
  split at h <;> cases h <;> rfl

theorem startEncode_doneUnread {s t : State} (h : startEncode s = .next t) : t.doneUnread = s.doneUnread := by
  unfold startEncode at h
  split at h
  · cases h; rfl
  · obtain ⟨u, hu, h⟩ := andThen_eq_next.1 h
    obtain ⟨-, rfl⟩ := emit_eq_next.1 hu
    cases h; rfl

end Sys2Proof.Machine
end

