-- ==== Sys2Proof/Tests/Slice0.lean ====
section
/-! SUPPORT. The model's own tests: ill-formed terms refused, words written out from the spec's encodings, one-step vectors of 95_test_vectors.md, and a witness for the hypotheses of every statement. -/

namespace Sys2Proof.Tests

open Sys2Proof Sys2Proof.Machine Sys2Proof.Claims

/-! ### Well-formedness (R66, U1): one ill-formed term for each check -/

theorem test_wf_diff_dr_low : (Instr.diff (-3) 0 0).wf = false := by decide
theorem test_wf_diff_dg_high : (Instr.diff 0 2 0).wf = false := by decide
theorem test_wf_diff_db_high : (Instr.diff 0 0 2).wf = false := by decide
theorem test_wf_luma_dg_high : (Instr.luma 32 0 0).wf = false := by decide
theorem test_wf_luma_drdg_low : (Instr.luma 0 (-9) 0).wf = false := by decide
theorem test_wf_luma_dbdg_high : (Instr.luma 0 0 8).wf = false := by decide
theorem test_wf_run_zero : (Instr.run 0).wf = false := by decide
theorem test_wf_run_reserved : (Instr.run 63).wf = false ∧ (Instr.run 64).wf = false := by decide
theorem test_wf_header_width : (Header.mk 0 1 4 0).wf = false := by decide
theorem test_wf_header_height : (Header.mk 1 0 4 0).wf = false := by decide
theorem test_wf_header_channels : (Header.mk 1 1 5 0).wf = false := by decide
theorem test_wf_header_any_colorspace : (Header.mk 1 1 3 7).wf = true := by decide

/-! ### Decoding: words from the formats R54 to R59, first byte in bits 7..0 -/

/-- `FE 0A 14 1E` (V30). -/
theorem test_word_rgb : decodeTableWord 32 0b00011110_00010100_00001010_11111110 = some (.rgb 10 20 30) := by decide

/-- `FF 01 02 03 04` (V31). -/
theorem test_word_rgba :
    decodeTableWord 40 0b00000100_00000011_00000010_00000001_11111111 = some (.rgba 1 2 3 4) := by decide

/-- Tag 00, slot 9 (V4). -/
theorem test_word_index : decodeTableWord 8 0b00_001001 = some (.index 9) := by decide

/-- Tag 01, fields 3, 2, 1 (E6). -/
theorem test_word_diff : decodeTableWord 8 0b01_11_10_01 = some (.diff 1 0 (-1)) := by decide

/-- Tag 10 with field 27, then the nibbles 8 and 8: `9B 88` (P3). -/
theorem test_word_luma : decodeTableWord 16 0b1000_1000_10_011011 = some (.luma (-5) 0 0) := by decide

/-- The red nibble is the high one (R58). -/
theorem test_word_luma_nibbles : decodeTableWord 16 0b1111_0000_10_100000 = some (.luma 0 7 (-8)) := by decide

/-- Tag 11, field 2 (R88). -/
theorem test_word_run : decodeTableWord 8 0b11_000010 = some (.run 3) := by decide

/-- R61: the first bytes where one chunk type ends and the next begins. -/
theorem test_first_byte_boundaries :
    decodeTableWord 8 0x3F = some (.index 63) ∧ decodeTableWord 8 0x40 = some (.diff (-2) (-2) (-2)) ∧
      decodeTableWord 8 0x7F = some (.diff 1 1 1) ∧ decodeTableWord 16 0x80 = some (.luma (-32) (-8) (-8)) ∧
      decodeTableWord 16 0xFFBF = some (.luma 31 7 7) ∧ decodeTableWord 8 0xC0 = some (.run 1) ∧
      decodeTableWord 8 0xFD = some (.run 62) ∧ decodeTableWord 32 0xFE = some (.rgb 0 0 0) ∧
      decodeTableWord 40 0xFF = some (.rgba 0 0 0 0) := by decide

/-- R107: bytes that end inside a chunk are refused by name. -/
theorem test_decode_short :
    decode [] = .error .endOfStream ∧ decode [0xFE, 1, 2] = .error .endOfStream ∧
      decode [0xFF, 1, 2, 3] = .error .endOfStream ∧ decode [0x80] = .error .endOfStream := by
  refine ⟨rfl, rfl, rfl, rfl⟩

/-! ### Encoding: the bytes of the listing lines of 95_test_vectors.md -/

theorem test_encode_rgb : encode (.rgb 32 32 32) = [0xFE, 0x20, 0x20, 0x20] := by decide
theorem test_encode_rgba : encode (.rgba 0 0 0 128) = [0xFF, 0x00, 0x00, 0x00, 0x80] := by decide
theorem test_encode_index : encode (.index 11) = [0x0B] := by decide
theorem test_encode_diff : encode (.diff 1 0 (-1)) = [0x79] := by decide
theorem test_encode_luma : encode (.luma 0 2 0) = [0xA0, 0xA8] := by decide
theorem test_encode_run : encode (.run 62) = [0xFD] := by decide

/-- P1's header. -/
theorem test_header_bytes :
    headerBytes { width := 3, height := 2, channels := 4, colorspace := 0 } =
      [0x71, 0x6F, 0x69, 0x66, 0, 0, 0, 3, 0, 0, 0, 2, 4, 0] := by decide

/-! ### The datapath (95_test_vectors.md section 2.1) -/

theorem test_hash :
    pixelHash ⟨0, 0, 0, 255⟩ = 53 ∧ pixelHash ⟨255, 255, 255, 255⟩ = 38 ∧ pixelHash ⟨10, 20, 30, 255⟩ = 9 ∧
      pixelHash ⟨1, 1, 1, 128⟩ = 15 ∧ pixelHash ⟨1, 2, 3, 4⟩ = 14 ∧ pixelHash ⟨7, 7, 7, 0⟩ = 41 := by decide

theorem test_s8 :
    s8 127 = 127 ∧ s8 128 = -128 ∧ s8 254 = -2 ∧ s8 256 = 0 ∧ s8 (-1) = -1 ∧ s8 (-129) = 127 := by decide

theorem test_reconstruction :
    applyDIFF ⟨255, 0, 0, 255⟩ 1 0 0 = ⟨0, 0, 0, 255⟩ ∧ applyDIFF ⟨0, 0, 0, 255⟩ (-2) 0 0 = ⟨254, 0, 0, 255⟩ ∧
      applyLUMA ⟨0, 0, 0, 255⟩ (-32) (-8) (-8) = ⟨216, 224, 216, 255⟩ ∧
      applyLUMA ⟨0, 0, 0, 255⟩ 31 7 7 = ⟨38, 31, 38, 255⟩ := by decide

/-- The choice column of the fit table, from the previous pixel (0,0,0,255) and an empty slot. -/
theorem test_choice :
    chooseChunk ⟨1, 0, 255, 255⟩ initialPixel zeroPixel = .diff 1 0 (-1) ∧
      chooseChunk ⟨2, 0, 0, 255⟩ initialPixel zeroPixel = .luma 0 2 0 ∧
      chooseChunk ⟨32, 32, 32, 255⟩ initialPixel zeroPixel = .rgb 32 32 32 ∧
      chooseChunk ⟨223, 223, 223, 255⟩ initialPixel zeroPixel = .rgb 223 223 223 ∧
      chooseChunk ⟨18, 10, 10, 255⟩ initialPixel zeroPixel = .rgb 18 10 10 ∧
      chooseChunk ⟨0, 0, 0, 128⟩ initialPixel zeroPixel = .rgba 0 0 0 128 ∧
      chooseChunk ⟨0, 0, 0, 0⟩ initialPixel zeroPixel = .index 0 := by decide

/-! ### One decode step (95_test_vectors.md section 2.3) -/

/-- A byte space of 64 bytes with these bytes from an address on. -/
def space (a : Nat) (bytes : List Byte) : Memory := ({ size := 64, cells := [], drawn := [] } : Memory).writeBytes a bytes

/-- A decode job of `n` pixels in one row at its first pixel, with these stream bytes from address 14 on. -/
def decoding (req : Byte) (n : Nat) (prev : Pixel) (bytes : List Byte) : State :=
  { State.resetSized 64 64 with
    status := Status.running
    phase := .decPixel
    inp := space 14 bytes
    doneUnread := true
    job :=
      { jW := BitVec.ofNat 32 n, jH := 1, jC := 4, jCS := 0, jReq := req
        jInLen := BitVec.ofNat 64 (14 + bytes.length), jOutCap := 64, jN := n
        prev := prev, run := 0, runRem := 0, pixPos := 0, inPos := 14, outPos := 0, cache := clearedCache } }

/-- The step goes on, to a state of which this holds. -/
def after (o : Result) (p : State → Bool) : Bool :=
  match o with
  | .next t => p t
  | .fault _ => false
  | .refused _ => false

/-- What a step leaves of OUT's first bytes, `in_pos`, `run_rem` and STATUS. -/
def seen (n : Nat) (o : Result) : Option (List Byte × Nat × Nat × Word32) :=
  match o with
  | .next t => some ((List.range n).map t.out.read, t.job.inPos, t.job.runRem, t.status.word)
  | .fault _ => none
  | .refused _ => none

theorem test_V30_rgb : seen 4 (step (decoding 4 1 initialPixel [0xFE, 0x0A, 0x14, 0x1E])) =
    some ([0x0A, 0x14, 0x1E, 0xFF], 18, 0, 2) := by decide
theorem test_V51_rgb_cut : after (step (decoding 4 1 initialPixel [0xFE, 1, 2])) (fun t => decide (t.status.word = 0x66 ∧ t.res.outLen = 0 ∧ t.phase = .idle)) = true := by decide
theorem test_V31_rgba : seen 4 (step (decoding 4 1 initialPixel [0xFF, 1, 2, 3, 4])) =
    some ([1, 2, 3, 4], 19, 0, 2) := by decide
theorem test_V45_rgba_at_three : seen 4 (step (decoding 3 1 initialPixel [0xFF, 1, 2, 3, 4])) =
    some ([1, 2, 3, 0], 19, 0, 2) := by decide
theorem test_V32_index_unwritten : seen 4 (step (decoding 4 1 initialPixel [0x05])) =
    some ([0, 0, 0, 0], 15, 0, 2) := by decide
theorem test_V33_diff : seen 4 (step (decoding 4 1 initialPixel [0x79])) =
    some ([0x01, 0x00, 0xFF, 0xFF], 15, 0, 2) := by decide
theorem test_V35_diff_wraps : seen 4 (step (decoding 4 1 ⟨255, 0, 0, 255⟩ [0x7A])) =
    some ([0, 0, 0, 0xFF], 15, 0, 2) := by decide
theorem test_V37_luma_minimum : seen 4 (step (decoding 4 1 initialPixel [0x80, 0x00])) =
    some ([0xD8, 0xE0, 0xD8, 0xFF], 16, 0, 2) := by decide
theorem test_V38_luma_maximum : seen 4 (step (decoding 4 1 initialPixel [0xBF, 0xFF])) =
    some ([0x26, 0x1F, 0x26, 0xFF], 16, 0, 2) := by decide
theorem test_V39_run : seen 4 (step (decoding 4 3 ⟨5, 5, 5, 255⟩ [0xC2])) =
    some ([5, 5, 5, 255], 15, 2, 1) := by decide
theorem test_V41_run_overshoot : seen 4 (step (decoding 4 1 initialPixel [0xC4])) =
    some ([0, 0, 0, 0xFF], 15, 4, 2) := by decide

/-- The cache write of a commit (P2): (0,0,0,255) goes to slot 53. -/
theorem test_P2_cache_write : after (step (decoding 4 6 initialPixel [0xC1])) (fun t => decide (cacheRead t.job.cache 53 = initialPixel ∧ cacheRead t.job.cache 52 = zeroPixel)) = true := by decide

/-! ### One encode step (95_test_vectors.md section 2.2) -/

/-- An encode job of `n` pixels of four channels at its first pixel, with these pixels in IN. -/
def encoding (n : Nat) (prev : Pixel) (run : Nat) (cache : Cache) (bytes : List Byte) : State :=
  { State.resetSized 64 64 with
    status := Status.running
    phase := .encPixel
    inp := space 0 bytes
    doneUnread := true
    job :=
      { jW := BitVec.ofNat 32 n, jH := 1, jC := 4, jCS := 0, jReq := 0
        jInLen := BitVec.ofNat 64 (4 * n), jOutCap := 64, jN := n
        prev := prev, run := run, runRem := 0, pixPos := 0, inPos := 0, outPos := 14, cache := cache } }

/-- What a step leaves of OUT from address 14 on, `out_pos`, `run` and the job state. -/
def written (n : Nat) (o : Result) : Option (List Byte × Nat × Nat × Phase) :=
  match o with
  | .next t => some ((List.range n).map fun j => t.out.read (14 + j), t.job.outPos, t.job.run, t.phase)
  | .fault _ => none
  | .refused _ => none

theorem test_V3_flush_then_diff : written 2 (step (encoding 3 initialPixel 2 clearedCache [1, 0, 0, 255])) =
    some ([0xC1, 0x7A], 16, 0, .encPixel) := by decide
theorem test_V1_full_run : written 1 (step (encoding 1 initialPixel 61 clearedCache [0, 0, 0, 255])) =
    some ([0xFD], 15, 0, .encTail) := by decide
theorem test_V2_run_grows : written 1 (step (encoding 1 initialPixel 0 clearedCache [0, 0, 0, 255])) =
    some ([0], 14, 1, .encTail) := by decide
theorem test_V5_index_with_alpha_changed :
    written 1 (step (encoding 1 ⟨10, 20, 30, 7⟩ 0 (cacheStore clearedCache ⟨10, 20, 30, 255⟩) [10, 20, 30, 255])) =
      some ([0x09], 15, 0, .encTail) := by decide
theorem test_V12_luma_minimum : written 2 (step (encoding 2 initialPixel 0 clearedCache [216, 224, 216, 255])) =
    some ([0x80, 0x00], 16, 0, .encPixel) := by decide
theorem test_V14_rgb : written 4 (step (encoding 2 initialPixel 0 clearedCache [223, 223, 223, 255])) =
    some ([0xFE, 0xDF, 0xDF, 0xDF], 18, 0, .encPixel) := by decide
theorem test_V17_rgba : written 5 (step (encoding 2 initialPixel 0 clearedCache [0, 0, 0, 128])) =
    some ([0xFF, 0, 0, 0, 0x80], 19, 0, .encPixel) := by decide

/-- V2's tail: the run is flushed and the end marker written. -/
theorem test_V2_tail :
    after (step { encoding 1 initialPixel 1 clearedCache [] with phase := .encTail }) (fun t => decide ((List.range 9).map (fun j => t.out.read (14 + j)) = [0xC0, 0, 0, 0, 0, 0, 0, 0, 1] ∧ t.res.outLen = 23 ∧ t.status.word = 2 ∧ t.phase = .idle)) = true := by decide

/-! ### START (95_test_vectors.md sections 2.2 and 2.3) -/

/-- An idle machine whose next turn is a write of CTRL. -/
def starting (ctrl : Word64) (cfg : ConfigRegs) (inp : List Byte) : State :=
  { State.resetSized 64 64 with cfg := cfg, inp := space 0 inp, agenda := [.host (.writeReg 0 ctrl)] }

/-- The configuration of an encode job. -/
def encodeCfg (w h : Word32) (c : Byte) (len cap : Word64) : ConfigRegs :=
  { width := w, height := h, channels := c, colorspace := 0, reqChannels := 0, inLen := len, outCap := cap }

/-- The configuration of a decode job. -/
def decodeCfg (req : Byte) (len cap : Word64) : ConfigRegs :=
  { width := 0, height := 0, channels := 0, colorspace := 0, reqChannels := req, inLen := len, outCap := cap }

/-- STATUS after a step. -/
def statusAfter (o : Result) : Option Word32 :=
  match o with
  | .next t => some t.status.word
  | .fault _ => none
  | .refused _ => none

/-- The header of a 1 by 1 image of four channels. -/
def smallHeader : List Byte := [0x71, 0x6F, 0x69, 0x66, 0, 0, 0, 1, 0, 0, 0, 1, 4, 0]

theorem test_encode_start_errors :
    statusAfter (step (starting 1 (encodeCfg 0 1 5 0 0) [])) = some 0x16 ∧
      statusAfter (step (starting 1 (encodeCfg 1 1 5 8 64) [])) = some 0x26 ∧
      statusAfter (step (starting 1 (encodeCfg 1 2 4 7 64) [])) = some 0x36 ∧
      statusAfter (step (starting 1 (encodeCfg 1 1 4 4 26) [])) = some 0x76 ∧
      statusAfter (step (starting 1 (encodeCfg 1 1 3 3 25) [])) = some 0x76 ∧
      statusAfter (step (starting 1 (encodeCfg 1 1 4 4 27) [])) = some 0x01 := by decide

theorem test_encode_start_header :
    after (step (starting 1 (encodeCfg 3 2 4 24 52) [])) (fun t => decide ((List.range 14).map t.out.read = [0x71, 0x6F, 0x69, 0x66, 0, 0, 0, 3, 0, 0, 0, 2, 4, 0] ∧ t.job.outPos = 14 ∧ t.job.jN = 6 ∧ t.phase = .encPixel)) = true := by decide

theorem test_decode_start_errors :
    statusAfter (step (starting 3 (decodeCfg 4 13 64) [0x71, 0x6F, 0x69, 0x66])) = some 0x46 ∧
      statusAfter (step (starting 3 (decodeCfg 4 14 64) [0x71, 0x6F, 0x69, 0x58])) = some 0x56 ∧
      statusAfter (step (starting 3 (decodeCfg 4 14 64) [0x71, 0x6F, 0x69, 0x66, 0, 0, 0, 1, 0, 0, 0, 0, 4])) =
        some 0x16 ∧
      statusAfter (step (starting 3 (decodeCfg 4 14 64) [0x71, 0x6F, 0x69, 0x66, 0, 0, 0, 1, 0, 0, 0, 1, 5])) =
        some 0x26 ∧
      statusAfter (step (starting 3 (decodeCfg 5 14 64) smallHeader)) = some 0x26 ∧
      statusAfter (step (starting 3 (decodeCfg 4 15 3) smallHeader)) = some 0x76 ∧
      statusAfter (step (starting 3 (decodeCfg 4 15 4) smallHeader)) = some 0x01 := by decide

theorem test_start_without_buffers : step (starting 1 (encodeCfg 1 1 4 65 27) []) = .refused .buffersMissing := by
  rfl

theorem test_decode_start_latches :
    after (step (starting 3 (decodeCfg 3 15 4) smallHeader)) (fun t => decide (t.job.jW = 1 ∧ t.job.jH = 1 ∧ t.job.jC = 4 ∧ t.job.jReq = 3 ∧ t.job.inPos = 14 ∧ t.phase = .decPixel)) = true := by decide

/-! ### The host port -/

theorem test_ctrl_reads_zero :
    after (step { State.resetSized 4 4 with agenda := [.host (.readReg 0)], readData := 5 }) (fun t => decide (t.readData = 0)) = true := by decide

theorem test_write_then_read :
    after (step { State.resetSized 4 4 with agenda := [.host (.writeReg 6 0xAB)] }) (fun t => decide (regValue t 6 = some 0xAB ∧ regValue t 4 = some 0)) = true := by decide

/-- The host reads OUT only after it has read DONE = 1 (LP3 of R147, R41 (b)). -/
theorem test_done_read_opens_out :
    let s := { State.resetSized 4 4 with status := Status.succeeded, doneUnread := true };
    step { s with agenda := [.host (.readOut 0)] } = .refused .hostDuty ∧
      after (step { s with agenda := [.host (.readReg 1)] })
        (fun t => decide (t.readData = 2 ∧ t.doneUnread = false)) = true := ⟨rfl, by decide⟩

/-- A read of STATUS while BUSY is no ordering point (R42). -/
theorem test_busy_status_read :
    after (step { decoding 4 1 initialPixel [] with agenda := [.host (.readReg 1)] })
      (fun t => decide (t.readData = 1 ∧ t.doneUnread = true)) = true := by decide

theorem test_no_register_fourteen :
    step { State.resetSized 4 4 with agenda := [.host (.readReg 14)] } = .refused .noSuchRegister := by rfl

theorem test_busy_write_ignored :
    after (step { decoding 4 1 initialPixel [] with agenda := [.host (.writeReg 2 7)] }) (fun t => decide (t.cfg.width = 0 ∧ t.status.word = 1)) = true := by decide

theorem test_reset_move :
    after (step { decoding 4 1 initialPixel [] with agenda := [.host .reset] }) (fun t => decide (t.status.word = 0 ∧ t.phase = .idle ∧ t.inp = (decoding 4 1 initialPixel []).inp)) = true := by decide

/-- A table word runs as the first chunk after reset: `FE 0A 14 1E` (V30). -/
theorem test_fetch_word :
    after (step (State.reset.withFetchWord 32 0x1E140AFE)) (fun t => decide ((List.range 4).map t.out.read = [0x0A, 0x14, 0x1E, 0xFF] ∧ t.job.inPos = 18 ∧ t.agenda = [])) = true := by decide

/-! ### Witnesses: for every statement with hypotheses, a state and operands that meet them, clause by clause -/

/-- DecodeOfEncodeGivesTheChunk: well-formed chunks at the ends of their ranges. -/
theorem witness_wf_chunks :
    (Instr.diff (-2) 1 (-2)).wf = true ∧ (Instr.luma (-32) 7 (-8)).wf = true ∧ (Instr.luma 31 (-8) 7).wf = true ∧
      (Instr.run 1).wf = true ∧ (Instr.run 62).wf = true ∧ (Instr.index 63).wf = true ∧
      (Instr.rgb 255 0 255).wf = true ∧ (Instr.rgba 0 255 0 255).wf = true := by decide

/-- DecodedBytesAreTheEncoding: bytes that decode. -/
theorem witness_decoded_bytes : decode [0xFD, 0xFE] = .ok (.run 62, [0xFE]) := rfl

/-- DecodeRefusesOnlyShortBytes: one byte too few, and exactly enough, for each chunk of more than one byte. -/
theorem witness_short_bytes :
    [1, 2].length + 1 < chunkLength 0xFE ∧ [1, 2, 3].length + 1 < chunkLength 0xFF ∧
      ([] : List Byte).length + 1 < chunkLength 0xBF ∧ chunkLength 0xFE ≤ [1, 2, 3].length + 1 ∧
      chunkLength 0xFF ≤ [1, 2, 3, 4].length + 1 ∧ chunkLength 0x80 ≤ [1].length + 1 ∧
      chunkLength 0xFD ≤ ([] : List Byte).length + 1 := by decide

/-- FirstByteSelectsChunkByPriority: a first byte for each branch, the last one before the next tag. -/
theorem witness_priority :
    4 ≤ ([1, 2, 3, 4] : List Byte).length ∧ BitVec.extractLsb' 6 2 (0x3F : Byte) = 0b00#2 ∧
      BitVec.extractLsb' 6 2 (0x7F : Byte) = 0b01#2 ∧ BitVec.extractLsb' 6 2 (0xBF : Byte) = 0b10#2 ∧
      BitVec.extractLsb' 6 2 (0xFD : Byte) = 0b11#2 ∧ (0xFD : Byte) ≠ 0xFE ∧ (0xFD : Byte) ≠ 0xFF := by decide

/-- HeaderReadsBackBigEndian: a byte space that holds a header. -/
theorem witness_header_in_memory :
    ∀ j, (hj : j < (headerBytes ⟨0x01020304, 5, 3, 1⟩).length) →
      (space 0 (headerBytes ⟨0x01020304, 5, 3, 1⟩)).read j = (headerBytes ⟨0x01020304, 5, 3, 1⟩)[j] := by
  intro j hj
  have := Memory.read_writeBytes_inside (headerBytes ⟨0x01020304, 5, 3, 1⟩) ⟨64, [], []⟩ 0 j hj
  rwa [Nat.zero_add] at this

/-- RunByteIsNeverAnEightBitTag: both ends of the run length. -/
theorem witness_run_lengths : (Instr.run 1).wf = true ∧ (Instr.run 62).wf = true := by decide

/-- HashIsLowSixBitsInAnyWidth: the smallest width. -/
theorem witness_hash_width : 6 ≤ 6 := by decide

/-- ReconstructionInvertsDeltas and LumaFitDoesNotSeeTheWrap: pixels at the ends of the two fits. -/
theorem witness_fits :
    fitsDIFF ⟨254, 254, 254, 255⟩ initialPixel = true ∧ fitsDIFF ⟨1, 1, 1, 255⟩ initialPixel = true ∧
      fitsLUMA ⟨38, 31, 38, 255⟩ initialPixel = true ∧ fitsLUMA ⟨216, 224, 216, 255⟩ initialPixel = true := by decide

/-- ChunkBytesFollowTheConditions: a pixel, a previous pixel and a slot for each of the five conditions. -/
theorem witness_chunk_conditions :
    (let p : Pixel := ⟨1, 2, 3, 4⟩; p = p) ∧
      (zeroPixel ≠ ⟨1, 0, 255, 255⟩ ∧ fitsDIFF ⟨1, 0, 255, 255⟩ initialPixel = true) ∧
      (zeroPixel ≠ ⟨2, 0, 0, 255⟩ ∧ fitsDIFF ⟨2, 0, 0, 255⟩ initialPixel = false ∧
        fitsLUMA ⟨2, 0, 0, 255⟩ initialPixel = true) ∧
      (zeroPixel ≠ ⟨32, 32, 32, 255⟩ ∧ fitsDIFF ⟨32, 32, 32, 255⟩ initialPixel = false ∧
        fitsLUMA ⟨32, 32, 32, 255⟩ initialPixel = false) ∧
      (zeroPixel ≠ ⟨0, 0, 0, 128⟩ ∧ (⟨0, 0, 0, 128⟩ : Pixel).a ≠ initialPixel.a) := by decide

/-- RgbProducesItsPixel: a chunk that ends exactly at J_IN_LEN with OUT exactly large enough, and one a byte short. -/
theorem witness_rgb :
    (let s := decoding 4 16 initialPixel [0xFE, 1, 2, 3];
      let u := { s with job.pixPos := 15 };
      u.job.inPos + 4 ≤ u.job.jInLen.toNat ∧ HasRoom u) ∧
      (let s := decoding 4 1 initialPixel [0xFE, 1, 2];
        s.job.jInLen.toNat < s.job.inPos + 4) := by
  unfold HasRoom; decide

/-- RgbaProducesItsPixel: the same for five bytes. -/
theorem witness_rgba :
    (let s := decoding 3 1 initialPixel [0xFF, 1, 2, 3, 4];
      s.job.inPos + 5 ≤ s.job.jInLen.toNat ∧ HasRoom s) ∧
      (let s := decoding 4 1 initialPixel [0xFF, 1, 2, 3];
        s.job.jInLen.toNat < s.job.inPos + 5) := by
  unfold HasRoom; decide

/-- IndexProducesTheSlot: room for a pixel, and the two ends of the INDEX bytes. -/
theorem witness_index :
    HasRoom (decoding 4 1 initialPixel [0x3F]) ∧ (0x00 : Byte).toNat < 0x40 ∧ (0x3F : Byte).toNat < 0x40 := by
  unfold HasRoom; decide

/-- DiffAddsItsDeltas: room for a pixel, and the two ends of the DIFF bytes. -/
theorem witness_diff :
    HasRoom (decoding 3 1 initialPixel [0x40]) ∧ 0x40 ≤ (0x40 : Byte).toNat ∧ (0x7F : Byte).toNat < 0x80 := by
  unfold HasRoom; decide

/-- LumaAddsItsDeltas: both bytes present, the second byte missing, and the two ends of the LUMA bytes. -/
theorem witness_luma :
    (let s := decoding 4 1 initialPixel [0x80, 0];
      s.job.inPos + 2 ≤ s.job.jInLen.toNat ∧ HasRoom s) ∧
      (let s := decoding 4 1 initialPixel [0x80];
        s.job.jInLen.toNat < s.job.inPos + 2) ∧
      0x80 ≤ (0x80 : Byte).toNat ∧ (0xBF : Byte).toNat < 0xC0 := by
  unfold HasRoom; decide

/-- RunProducesThePreviousPixel: room for a pixel, and the two ends of the RUN bytes. -/
theorem witness_run :
    HasRoom (decoding 4 3 initialPixel [0xC0]) ∧ 0xC0 ≤ (0xC0 : Byte).toNat ∧ (0xFD : Byte).toNat ≤ 0xFD := by
  unfold HasRoom; decide

/-- StepRunsTheDecodedChunk: a chunk whose bytes lie at `in_pos`, ending at J_IN_LEN. -/
theorem witness_step_runs_chunk :
    let s := decoding 4 1 initialPixel [0xAA, 0x88];
    CoreTurn s ∧ s.phase = .decPixel ∧ s.job.runRem = 0 ∧ (Instr.luma 10 0 0).wf = true ∧
      s.job.inPos + (encode (.luma 10 0 0)).length ≤ s.job.jInLen.toNat ∧ s.job.jInLen.toNat ≤ s.inp.size ∧
      ∀ j, (h : j < (encode (.luma 10 0 0)).length) → s.inp.read (s.job.inPos + j) = (encode (.luma 10 0 0))[j] := by
  refine ⟨.inl rfl, by decide, by decide, by decide, by decide, by decide, ?_⟩
  decide

/-- PendingRunNeedsNoByte: a run is owed and IN is used up. -/
theorem witness_pending_run :
    let s := { decoding 4 2 initialPixel [] with job.runRem := 61 };
    CoreTurn s ∧ s.phase = .decPixel ∧ 0 < s.job.runRem ∧ HasRoom s := by
  refine ⟨.inl rfl, by decide, by decide, ?_⟩
  unfold HasRoom; decide

/-- CutChunkEndsTheJob: no byte left (V50), and a payload byte missing (V53). -/
theorem witness_cut_chunk :
    (let s := decoding 4 1 initialPixel [];
      CoreTurn s ∧ s.phase = .decPixel ∧ s.job.runRem = 0 ∧ s.job.inPos ≤ s.job.jInLen.toNat ∧
        s.job.jInLen.toNat ≤ s.inp.size ∧ s.job.inPos = s.job.jInLen.toNat) ∧
      (let s := decoding 4 1 initialPixel [0x80];
        CoreTurn s ∧ s.phase = .decPixel ∧ s.job.runRem = 0 ∧ s.job.inPos ≤ s.job.jInLen.toNat ∧
          s.job.jInLen.toNat ≤ s.inp.size ∧
          s.job.jInLen.toNat < s.job.inPos + chunkLength (s.inp.read s.job.inPos)) := by
  refine ⟨⟨.inl rfl, ?_⟩, ⟨.inl rfl, ?_⟩⟩ <;> decide

/-- What the START statements assume of a state and a value written to CTRL. -/
def Launch (s : State) (v : Word64) (mode : Bool) : Prop :=
  HostTurn (.writeReg 0 v) s ∧ CtrlWrite v true mode ∧ s.status.busy = false ∧ s.phase = .idle ∧ BuffersExist s

/-- EncodeStartValidatesThenBegins: a start for each branch of the chain, the reserved CTRL bits set in the last. -/
theorem witness_encode_starts :
    Launch (starting 1 (encodeCfg 0 1 5 0 0) []) 1 false ∧ Launch (starting 1 (encodeCfg 1 1 5 8 64) []) 1 false ∧
      Launch (starting 1 (encodeCfg 1 2 4 7 64) []) 1 false ∧ Launch (starting 1 (encodeCfg 1 1 4 4 26) []) 1 false ∧
      Launch (starting 0xFFFFFFFD (encodeCfg 1 1 4 4 27) []) 0xFFFFFFFD false := by
  unfold Launch CtrlWrite BuffersExist
  refine ⟨⟨⟨_, rfl⟩, ?_⟩, ⟨⟨_, rfl⟩, ?_⟩, ⟨⟨_, rfl⟩, ?_⟩, ⟨⟨_, rfl⟩, ?_⟩, ⟨⟨_, rfl⟩, ?_⟩⟩ <;> decide

/-- DecodeStartValidatesThenBegins: a start for each branch of the chain. -/
theorem witness_decode_starts :
    Launch (starting 3 (decodeCfg 4 13 64) smallHeader) 3 true ∧ Launch (starting 3 (decodeCfg 4 14 64) []) 3 true ∧
      Launch (starting 3 (decodeCfg 4 14 64) [0x71, 0x6F, 0x69, 0x66]) 3 true ∧
      Launch (starting 3 (decodeCfg 4 14 64) [0x71, 0x6F, 0x69, 0x66, 0, 0, 0, 1, 0, 0, 0, 1, 5]) 3 true ∧
      Launch (starting 3 (decodeCfg 5 14 64) smallHeader) 3 true ∧
      Launch (starting 3 (decodeCfg 4 14 3) smallHeader) 3 true ∧
      Launch (starting 3 (decodeCfg 4 14 4) smallHeader) 3 true := by
  unfold Launch CtrlWrite BuffersExist
  refine ⟨⟨⟨_, rfl⟩, ?_⟩, ⟨⟨_, rfl⟩, ?_⟩, ⟨⟨_, rfl⟩, ?_⟩, ⟨⟨_, rfl⟩, ?_⟩, ⟨⟨_, rfl⟩, ?_⟩, ⟨⟨_, rfl⟩, ?_⟩,
    ⟨⟨_, rfl⟩, ?_⟩⟩ <;> decide

/-- EqualPixelExtendsTheRun: a run that does not reach 62 (60 to 61), and one that does with room for its byte. -/
theorem witness_equal_pixel :
    (let s := encoding 1 initialPixel 60 clearedCache [0, 0, 0, 255];
      CoreTurn s ∧ s.phase = .encPixel ∧ PixelExists s ∧ currentPixel s = s.job.prev ∧ s.job.run + 1 ≠ 62) ∧
      (let s := encoding 1 initialPixel 61 clearedCache [0, 0, 0, 255];
        CoreTurn s ∧ s.phase = .encPixel ∧ PixelExists s ∧ currentPixel s = s.job.prev ∧ s.job.run + 1 = 62 ∧
          s.job.outPos + 1 ≤ s.out.size) := by
  unfold PixelExists
  refine ⟨⟨.inl rfl, ?_⟩, ⟨.inl rfl, ?_⟩⟩ <;> decide

/-- OtherPixelIsWrittenAsAChunk: a flush of 61 and an RGBA chunk, six bytes in all. -/
theorem witness_other_pixel :
    let s := encoding 1 initialPixel 61 clearedCache [0, 0, 0, 128];
    CoreTurn s ∧ s.phase = .encPixel ∧ PixelExists s ∧ currentPixel s ≠ s.job.prev ∧ s.job.run ≤ 61 ∧
      s.job.outPos + (flushed s.job.run ++ chunkBytes s).length ≤ s.out.size := by
  unfold PixelExists
  refine ⟨.inl rfl, ?_⟩
  decide

/-- TailStepEndsTheJob: with and without a pending run. -/
theorem witness_tail :
    (let s := { encoding 1 initialPixel 61 clearedCache [] with phase := .encTail };
      CoreTurn s ∧ s.phase = .encTail ∧ s.job.run ≤ 61 ∧
        s.job.outPos + (flushed s.job.run ++ [0, 0, 0, 0, 0, 0, 0, 1]).length ≤ s.out.size) ∧
      (let s := { encoding 1 initialPixel 0 clearedCache [] with phase := .encTail };
        CoreTurn s ∧ s.phase = .encTail ∧ s.job.run ≤ 61 ∧
          s.job.outPos + (flushed s.job.run ++ [0, 0, 0, 0, 0, 0, 0, 1]).length ≤ s.out.size) := by
  refine ⟨⟨.inl rfl, ?_⟩, ⟨.inl rfl, ?_⟩⟩ <;> decide

/-- A running encode job of two pixels that meets the invariant. -/
theorem encoding_inv : MachineInv (encoding 2 initialPixel 0 clearedCache [0, 0, 0, 255, 1, 0, 0, 255]) where
  inpWf := by decide
  outWf := by decide
  status := by decide
  busy := by decide
  unread := by decide
  cache := fun _ => CacheHashed_clearedCache
  encPixel := fun _ =>
    ⟨⟨by decide, by decide, by decide, by decide, by decide, by decide, by decide, by decide, by decide⟩, by decide⟩
  encTail := fun h => nomatch h
  decPixel := fun h => nomatch h

/-- The same job with its pixels consumed, a run of two pending. -/
def tailState : State :=
  let s := encoding 2 initialPixel 2 clearedCache [0, 0, 0, 255, 0, 0, 0, 255]
  { s with phase := .encTail, job.pixPos := 2 }

theorem tailState_inv : MachineInv tailState where
  inpWf := by decide
  outWf := by decide
  status := by decide
  busy := by decide
  unread := by decide
  cache := fun _ => CacheHashed_clearedCache
  encPixel := fun h => nomatch h
  encTail := fun _ =>
    ⟨⟨by decide, by decide, by decide, by decide, by decide, by decide, by decide, by decide, by decide⟩, by decide⟩
  decPixel := fun h => nomatch h

/-- A running decode job meets the invariant when its spaces are canonical, its cache is cleared and its bounds hold. -/
theorem decoding_inv_of {s : State} (hi : s.inp.wf = true) (ho : s.out.wf = true) (hs : s.status = Status.running)
    (hp : s.phase = .decPixel) (hu : s.doneUnread = true) (hc : s.job.cache = clearedCache) (hd : DecodeOk s) :
    MachineInv s where
  inpWf := hi
  outWf := ho
  status := by rw [hs]; decide
  busy := by simp [hs, hp, Status.running]
  unread := by simp [hs, hu, Status.running]
  cache := fun _ => hc ▸ CacheHashed_clearedCache
  encPixel := by simp [hp]
  encTail := by simp [hp]
  decPixel := fun _ => hd

/-- A running decode job of three pixels that meets the invariant. -/
theorem decoding_inv : MachineInv (decoding 4 3 initialPixel [0xC2]) :=
  decoding_inv_of (by decide) (by decide) rfl rfl rfl rfl
    ⟨by decide, by decide, by decide, by decide, by decide, by decide, by decide⟩

/-- RunOvershootIsCut: three pixels are owed and the RUN is of 62. -/
theorem witness_overshoot :
    let s := decoding 4 3 initialPixel [0xC2];
    MachineInv s ∧ s.agenda = [] ∧ s.phase = .decPixel ∧ s.job.jN - s.job.pixPos ≤ 62 :=
  ⟨decoding_inv, by decide⟩

/-- The same with reset as the next turn. -/
theorem decoding_reset_inv : MachineInv { decoding 4 3 initialPixel [0xC2] with agenda := [.host .reset] } :=
  decoding_inv_of (by decide) (by decide) rfl rfl rfl rfl
    ⟨by decide, by decide, by decide, by decide, by decide, by decide, by decide⟩

/-- An idle machine meets the invariant when its spaces are canonical and its STATUS is legal. -/
theorem idle_inv {s : State} (hi : s.inp.wf = true) (ho : s.out.wf = true) (hs : s.status.legal = true)
    (hb : s.status.busy = false) (hu : s.doneUnread = true → s.status.done = true) (hp : s.phase = .idle) :
    MachineInv s where
  inpWf := hi
  outWf := ho
  status := hs
  busy := by simp [hb, hp]
  unread := ⟨by simp [hb], fun h => .inr (hu h)⟩
  cache := by simp [hp]
  encPixel := by simp [hp]
  encTail := by simp [hp]
  decPixel := by simp [hp]

/-- EveryStepKeepsTheInvariant: a state of each job state that meets the invariant and steps. -/
theorem witness_invariant_steps :
    (MachineInv (encoding 2 initialPixel 0 clearedCache [0, 0, 0, 255, 1, 0, 0, 255]) ∧
        after (step (encoding 2 initialPixel 0 clearedCache [0, 0, 0, 255, 1, 0, 0, 255])) (fun _ => true) = true) ∧
      (MachineInv tailState ∧ after (step tailState) (fun _ => true) = true) ∧
      (MachineInv (decoding 4 3 initialPixel [0xC2]) ∧
        after (step (decoding 4 3 initialPixel [0xC2])) (fun _ => true) = true) ∧
      (MachineInv (starting 1 (encodeCfg 1 1 4 4 27) []) ∧
        after (step (starting 1 (encodeCfg 1 1 4 4 27) [])) (fun _ => true) = true) := by
  refine ⟨⟨encoding_inv, ?_⟩, ⟨tailState_inv, ?_⟩, ⟨decoding_inv, ?_⟩,
    ⟨idle_inv ?_ ?_ ?_ ?_ ?_ ?_, ?_⟩⟩ <;> decide

/-- CoreStepIsAlwaysEnabled, CoreStaysInsideItsBuffers: a core turn in a state that meets the invariant, with an
address at the latched OUT_CAP. -/
theorem witness_core_turn :
    MachineInv (decoding 4 3 initialPixel [0xC2]) ∧ CoreTurn (decoding 4 3 initialPixel [0xC2]) ∧
      after (step (decoding 4 3 initialPixel [0xC2])) (fun _ => true) = true ∧
      (decoding 4 3 initialPixel [0xC2]).job.jOutCap.toNat ≤ 64 :=
  ⟨decoding_inv, .inl rfl, by decide, by decide⟩

/-- EncodedLengthIsBounded: a job about to end. -/
theorem witness_length : MachineInv tailState ∧ CoreTurn tailState ∧ tailState.phase = .encTail :=
  ⟨tailState_inv, .inl rfl, rfl⟩

/-- A running encode job of three channels, (40,50,60) and the same again. -/
def rgbJob : State :=
  let s := encoding 2 initialPixel 0 clearedCache [40, 50, 60, 40, 50, 60];
  { s with job := { s.job with jC := 3, jInLen := 6 } }

/-- ThreeChannelsNeverNeedRgba: its hypotheses hold of that job. -/
theorem witness_three_channels : MachineInv rgbJob ∧ rgbJob.phase = .encPixel ∧ rgbJob.job.jC = 3 where
  left :=
    { inpWf := by decide
      outWf := by decide
      status := by decide
      busy := by decide
      unread := by decide
      cache := fun _ => CacheHashed_clearedCache
      encPixel := fun _ =>
        ⟨⟨by decide, by decide, by decide, by decide, by decide, by decide, by decide, by decide, by decide⟩, by decide⟩
      encTail := fun h => nomatch h
      decPixel := fun h => nomatch h }
  right := ⟨rfl, rfl⟩

/-- An idle machine whose job has ended, with DONE = 1 unread, and a next turn of the host. -/
def endedUnread (m : HostMove) : State :=
  { State.resetSized 4 4 with status := Status.succeeded, doneUnread := true, agenda := [.host m] }

/-- RegisterReadHasNoSideEffect: the last register, read after reset, before DONE = 1 is read, and after it; a register
below the results before DONE = 1 is read; and the first number past the last register, read and written. -/
theorem witness_register_read :
    (HostTurn (.readReg 13) { State.resetSized 4 4 with agenda := [.host (.readReg 13)] } ∧ 13 ≤ 13 ∧
        regWidth 13 = some 8 ∧ ¬((State.resetSized 4 4).doneUnread = true)) ∧
      (HostTurn (.readReg 9) (endedUnread (.readReg 9)) ∧ (endedUnread (.readReg 9)).status.busy = false) ∧
      (HostTurn (.readReg 8) (endedUnread (.readReg 8)) ∧ ¬(9 ≤ 8)) ∧
      (HostTurn (.readReg 14) { State.resetSized 4 4 with agenda := [.host (.readReg 14)] } ∧ 13 < 14) ∧
      HostTurn (.writeReg 14 0) { State.resetSized 4 4 with agenda := [.host (.writeReg 14 0)] } :=
  ⟨⟨⟨[], rfl⟩, by decide, rfl, by decide⟩, ⟨⟨[], rfl⟩, rfl⟩, ⟨⟨[], rfl⟩, by decide⟩, ⟨⟨[], rfl⟩, by decide⟩, [], rfl⟩

/-- HandOverChangesOnlyAtOrderingPoints: the read of DONE = 1, and a step that changes the hand-over at each of the three
points. -/
theorem witness_hand_over :
    (HostTurn (.readReg 1) (endedUnread (.readReg 1)) ∧ (endedUnread (.readReg 1)).status.busy = false ∧
        (endedUnread (.readReg 1)).status.done = true ∧
        after (step (endedUnread (.readReg 1))) (fun t => decide (t.doneUnread ≠ true)) = true) ∧
      after (step (starting 1 (encodeCfg 1 1 4 4 27) [])) (fun t => decide (t.doneUnread ≠ false)) = true ∧
      after (step (endedUnread .reset)) (fun t => decide (t.doneUnread ≠ true)) = true :=
  ⟨⟨⟨[], rfl⟩, rfl, rfl, by decide⟩, by decide, by decide⟩

/-- ConfigurationIsPlainStorage: the first and the last configuration register, each at its greatest value. -/
theorem witness_configuration :
    (HostTurn (.writeReg 2 0xFFFFFFFF) { State.resetSized 4 4 with agenda := [.host (.writeReg 2 0xFFFFFFFF)] } ∧
        (State.resetSized 4 4).status.busy = false ∧ regWidth 2 = some 32 ∧ (0xFFFFFFFF : Word64).toNat < 2 ^ 32) ∧
      (HostTurn (.writeReg 8 (BitVec.allOnes 64))
          { State.resetSized 4 4 with agenda := [.host (.writeReg 8 (BitVec.allOnes 64))] } ∧
        regWidth 8 = some 64 ∧ (BitVec.allOnes 64).toNat < 2 ^ 64) :=
  ⟨⟨⟨[], rfl⟩, rfl, rfl, by decide⟩, ⟨[], rfl⟩, rfl, by decide⟩

/-- ReadOnlyRegistersIgnoreWrites: STATUS, and the first and the last result register. -/
theorem witness_read_only :
    (HostTurn (.writeReg 1 5) { State.resetSized 4 4 with agenda := [.host (.writeReg 1 5)] } ∧
        regWidth 1 = some 32 ∧ (5 : Word64).toNat < 2 ^ 32) ∧
      (HostTurn (.writeReg 9 5) { State.resetSized 4 4 with agenda := [.host (.writeReg 9 5)] } ∧
        9 ≤ 9 ∧ regWidth 9 = some 64 ∧ (5 : Word64).toNat < 2 ^ 64) ∧
      (HostTurn (.writeReg 13 5) { State.resetSized 4 4 with agenda := [.host (.writeReg 13 5)] } ∧
        9 ≤ 13 ∧ regWidth 13 = some 8 ∧ (5 : Word64).toNat < 2 ^ 8) :=
  ⟨⟨⟨[], rfl⟩, rfl, by decide⟩, ⟨⟨[], rfl⟩, by decide, rfl, by decide⟩, ⟨[], rfl⟩, by decide, rfl, by decide⟩

/-- WritesWhileBusyAreIgnored: a START while a job runs. -/
theorem witness_busy_write :
    let s := { decoding 4 1 initialPixel [] with agenda := [.host (.writeReg 0 3)] };
    HostTurn (.writeReg 0 3) s ∧ s.status.busy = true ∧ regWidth 0 = some 32 ∧ (3 : Word64).toNat < 2 ^ 32 :=
  ⟨⟨[], rfl⟩, rfl, rfl, by decide⟩

/-- CtrlSeesOnlyStartAndMode: a write without START, and two writes that differ in reserved bits only. -/
theorem witness_ctrl :
    HostTurn (.writeReg 0 0xFFFFFFFE) { State.resetSized 4 4 with agenda := [.host (.writeReg 0 0xFFFFFFFE)] } ∧
      CtrlWrite 0xFFFFFFFE false true ∧ CtrlWrite 1 true false ∧ CtrlWrite 0xFFFFFFFD true false := by
  refine ⟨⟨[], rfl⟩, ?_⟩
  unfold CtrlWrite; decide

/-- StartWithoutBuffersIsRefused: IN_LEN one byte above IN_SIZE; OUT_CAP one byte above OUT_SIZE. -/
theorem witness_no_buffers :
    (let s := starting 1 (encodeCfg 1 1 4 65 64) [];
      HostTurn (.writeReg 0 1) s ∧ CtrlWrite 1 true false ∧ s.status.busy = false ∧ ¬ BuffersExist s) ∧
      (let s := starting 3 (decodeCfg 4 64 65) [];
        HostTurn (.writeReg 0 3) s ∧ CtrlWrite 3 true true ∧ s.status.busy = false ∧ ¬ BuffersExist s) := by
  unfold CtrlWrite BuffersExist
  refine ⟨⟨⟨[], rfl⟩, ?_⟩, ⟨⟨[], rfl⟩, ?_⟩⟩ <;> decide

/-- HostHasNoMemoryMoveWhileBusy: each of the three moves while a job runs, and after it before DONE = 1 is read. -/
theorem witness_duty :
    ((decoding 4 1 initialPixel []).status.busy = true ∧
        HostTurn (.writeIn 0 1) { decoding 4 1 initialPixel [] with agenda := [.host (.writeIn 0 1)] } ∧
        HostTurn (.writeOut 0 1) { decoding 4 1 initialPixel [] with agenda := [.host (.writeOut 0 1)] } ∧
        HostTurn (.readOut 0) { decoding 4 1 initialPixel [] with agenda := [.host (.readOut 0)] }) ∧
      (endedUnread (.readOut 0)).doneUnread = true ∧ HostTurn (.writeIn 0 1) (endedUnread (.writeIn 0 1)) ∧
      HostTurn (.writeOut 0 1) (endedUnread (.writeOut 0 1)) ∧ HostTurn (.readOut 0) (endedUnread (.readOut 0)) :=
  ⟨⟨rfl, ⟨[], rfl⟩, ⟨[], rfl⟩, ⟨[], rfl⟩⟩, rfl, ⟨[], rfl⟩, ⟨[], rfl⟩, ⟨[], rfl⟩⟩

/-- IdleHostReachesInAndOut: each of the three moves at the last address. -/
theorem witness_idle_host :
    (State.resetSized 4 4).status.busy = false ∧ (State.resetSized 4 4).doneUnread = false ∧
      HostTurn (.writeIn 3 1) { State.resetSized 4 4 with agenda := [.host (.writeIn 3 1)] } ∧
      HostTurn (.writeOut 3 1) { State.resetSized 4 4 with agenda := [.host (.writeOut 3 1)] } ∧
      HostTurn (.readOut 3) { State.resetSized 4 4 with agenda := [.host (.readOut 3)] } ∧
      3 < (State.resetSized 4 4).inp.size ∧ 3 < (State.resetSized 4 4).out.size :=
  ⟨rfl, rfl, ⟨[], rfl⟩, ⟨[], rfl⟩, ⟨[], rfl⟩, by decide, by decide⟩

/-- IdleCoreTakesNoStep: right after reset, with and without turns to come. -/
theorem witness_idle_core :
    (CoreTurn (State.resetSized 4 4) ∧ (State.resetSized 4 4).phase = .idle) ∧
      CoreTurn { State.resetSized 4 4 with agenda := [.core, .host .reset] } :=
  ⟨⟨.inl rfl, rfl⟩, .inr ⟨[.host .reset], rfl⟩⟩

/-- ResetPutsTheBlockInIdle: reset while a job runs, with an address at its OUT_CAP, and while none does. -/
theorem witness_reset :
    HostTurn .reset { decoding 4 1 initialPixel [] with agenda := [.host .reset] } ∧
      (decoding 4 1 initialPixel []).job.jOutCap.toNat ≤ 64 ∧
      HostTurn .reset { State.resetSized 4 4 with agenda := [.host .reset] } ∧
      (State.resetSized 4 4).status.busy = false :=
  ⟨⟨[], rfl⟩, by decide, ⟨[], rfl⟩, rfl⟩

/-- ByteWriteIsReadBack: a canonical space, an address in it, and another address. -/
theorem witness_byte_write : (space 3 [7]).wf = true ∧ 63 < (space 3 [7]).size ∧ 3 ≠ 63 := by decide

/-- CanonicalSpacesAreDeterminedByReads: the same bytes written in two orders. -/
theorem witness_canonical :
    let m := (space 3 [7]).write 5 9;
    let n := (space 5 [9]).write 3 7;
    m.wf = true ∧ n.wf = true ∧ m.size = n.size ∧ m.drawn = [] ∧ n.drawn = [] ∧ ∀ a, m.read a = n.read a := by
  refine ⟨by decide, by decide, by decide, by decide, by decide, fun a => ?_⟩
  exact congrArg (fun k : Memory => k.read a) (by decide)

/-- StartForgetsTheJobBefore: two machines that differ in the job before, both starting. -/
theorem witness_start_forgets :
    let s := starting 1 (encodeCfg 1 1 4 4 27) [];
    let s' := { s with job := (decoding 3 5 zeroPixel []).job, status := Status.failed .badMagic }
    HostTurn (.writeReg 0 1) s ∧ HostTurn (.writeReg 0 1) s' ∧ s.status.busy = false ∧ s'.status.busy = false ∧
      CtrlWrite 1 true (BitVec.getLsbD (1 : Word64) 1) ∧ s'.cfg = s.cfg ∧ s'.inp = s.inp ∧ s'.out = s.out ∧
      after (step s) (fun t => t.status.busy) = true ∧ after (step s') (fun t => t.status.busy) = true := by
  unfold CtrlWrite
  refine ⟨⟨[], rfl⟩, ⟨[], rfl⟩, ?_⟩
  decide

/-- EncodeStepSeesOnlyJobAndInput: two machines whose IN differs at and above J_IN_LEN only, in a pixel step and in the
tail step. -/
theorem witness_same_input :
    (let s := encoding 2 initialPixel 0 clearedCache [0, 0, 0, 255, 1, 0, 0, 255];
      let s' := { s with inp := s.inp.write 8 9, cfg := encodeCfg 7 7 7 7 7 };
      MachineInv s ∧ CoreTurn s ∧ CoreTurn s' ∧ s.phase = .encPixel ∧ s'.phase = s.phase ∧ s'.job = s.job ∧
        s'.out = s.out ∧ s.inp.size = s'.inp.size ∧ (∀ a, a < s.job.jInLen.toNat → s'.inp.read a = s.inp.read a) ∧
        after (step s) (fun _ => true) = true ∧ after (step s') (fun _ => true) = true) ∧
      (let s := tailState;
        let s' := { s with inp := s.inp.write 8 9, cfg := encodeCfg 7 7 7 7 7 };
        MachineInv s ∧ CoreTurn s ∧ CoreTurn s' ∧ s.phase = .encTail ∧ s'.phase = s.phase ∧ s'.job = s.job ∧
          s'.out = s.out ∧ s.inp.size = s'.inp.size ∧
          (∀ a, a < s.job.jInLen.toNat → s'.inp.read a = s.inp.read a) ∧
          after (step s) (fun _ => true) = true ∧ after (step s') (fun _ => true) = true) := by
  refine ⟨⟨encoding_inv, .inl rfl, .inl rfl, rfl, rfl, rfl, rfl, rfl, fun a ha => ?_, by decide, by decide⟩,
    tailState_inv, .inl rfl, .inl rfl, rfl, rfl, rfl, rfl, rfl, fun a ha => ?_, by decide, by decide⟩ <;>
  · rw [Memory.read_write, if_neg]
    rintro rfl
    exact absurd ha (by decide)

/-- EncodeJobEndsInItsStepCount and DecodeJobEndsWithinItsStepCount: the two running jobs. -/
theorem witness_running_jobs :
    (MachineInv (encoding 2 initialPixel 0 clearedCache [0, 0, 0, 255, 1, 0, 0, 255]) ∧
        (encoding 2 initialPixel 0 clearedCache [0, 0, 0, 255, 1, 0, 0, 255]).agenda = [] ∧
        (encoding 2 initialPixel 0 clearedCache [0, 0, 0, 255, 1, 0, 0, 255]).phase = .encPixel) ∧
      (MachineInv (decoding 4 3 initialPixel [0xC2]) ∧ (decoding 4 3 initialPixel [0xC2]).agenda = [] ∧
        (decoding 4 3 initialPixel [0xC2]).phase = .decPixel) :=
  ⟨⟨encoding_inv, rfl, rfl⟩, decoding_inv, rfl, rfl⟩

/-- StatusAndResultsChangeOnlyAtJobEdges: a step in which STATUS changes, for each of the three edges. -/
theorem witness_edges :
    (MachineInv (starting 1 (encodeCfg 1 1 4 4 27) []) ∧
        after (step (starting 1 (encodeCfg 1 1 4 4 27) [])) (fun t => decide (t.status ≠ Status.cleared)) = true) ∧
      (MachineInv { decoding 4 3 initialPixel [0xC2] with agenda := [.host .reset] } ∧
        after (step { decoding 4 3 initialPixel [0xC2] with agenda := [.host .reset] })
          (fun t => decide (t.status ≠ Status.running)) = true) ∧
      (MachineInv tailState ∧ after (step tailState) (fun t => decide (t.status ≠ Status.running)) = true) := by
  refine ⟨⟨idle_inv ?_ ?_ ?_ ?_ ?_ ?_, ?_⟩, ⟨decoding_reset_inv, ?_⟩, ⟨tailState_inv, ?_⟩⟩ <;> decide

/-- What RequestedChannelsOnlyChangeTheStores assumes of two decode jobs before their steps. -/
def SameStream (s s' : State) : Prop :=
  MachineInv s ∧ MachineInv s' ∧ CoreTurn s ∧ CoreTurn s' ∧ s.phase = .decPixel ∧ s'.phase = .decPixel ∧
    s.job.jReq = 4 ∧ s'.job = { s.job with jReq := 3, jOutCap := s'.job.jOutCap } ∧ s'.inp = s.inp ∧
    s'.status = s.status

/-- RequestedChannelsOnlyChangeTheStores: one stream, decoded at four and at three channels, in a step that goes on, in the
last step, and in one that is cut. -/
theorem witness_requested_channels :
    (SameStream (decoding 4 3 initialPixel [0xC2]) (decoding 3 3 initialPixel [0xC2]) ∧
        after (step (decoding 4 3 initialPixel [0xC2])) (fun t => decide (t.phase ≠ .idle)) = true ∧
        after (step (decoding 3 3 initialPixel [0xC2])) (fun _ => true) = true) ∧
      (SameStream (decoding 4 1 initialPixel [0xC2]) (decoding 3 1 initialPixel [0xC2]) ∧
        after (step (decoding 4 1 initialPixel [0xC2])) (fun t => decide (t.status.word = 2)) = true ∧
        after (step (decoding 3 1 initialPixel [0xC2])) (fun _ => true) = true) ∧
      (SameStream (decoding 4 1 initialPixel [0x80]) (decoding 3 1 initialPixel [0x80]) ∧
        after (step (decoding 4 1 initialPixel [0x80])) (fun t => decide (t.status.word = 0x66)) = true ∧
        after (step (decoding 3 1 initialPixel [0x80])) (fun _ => true) = true) := by
  refine ⟨⟨⟨decoding_inv_of ?_ ?_ rfl rfl rfl rfl ⟨?_, ?_, ?_, ?_, ?_, ?_, ?_⟩,
        decoding_inv_of ?_ ?_ rfl rfl rfl rfl ⟨?_, ?_, ?_, ?_, ?_, ?_, ?_⟩, .inl rfl, .inl rfl, ?_⟩, ?_⟩,
      ⟨⟨decoding_inv_of ?_ ?_ rfl rfl rfl rfl ⟨?_, ?_, ?_, ?_, ?_, ?_, ?_⟩,
        decoding_inv_of ?_ ?_ rfl rfl rfl rfl ⟨?_, ?_, ?_, ?_, ?_, ?_, ?_⟩, .inl rfl, .inl rfl, ?_⟩, ?_⟩,
      ⟨decoding_inv_of ?_ ?_ rfl rfl rfl rfl ⟨?_, ?_, ?_, ?_, ?_, ?_, ?_⟩,
        decoding_inv_of ?_ ?_ rfl rfl rfl rfl ⟨?_, ?_, ?_, ?_, ?_, ?_, ?_⟩, .inl rfl, .inl rfl, ?_⟩, ?_⟩ <;>
    decide

/-- DecodeStepSeesOnlyJobAndStream: two machines whose IN differs at and above J_IN_LEN only. -/
theorem witness_same_stream :
    let s := decoding 4 3 initialPixel [0xC2];
    let s' := { s with inp := s.inp.write 15 9, cfg := encodeCfg 7 7 7 7 7 };
    MachineInv s ∧ CoreTurn s ∧ CoreTurn s' ∧ s.phase = .decPixel ∧ s'.phase = .decPixel ∧ s'.job = s.job ∧
      s'.out = s.out ∧ s'.status = s.status ∧ s.inp.size = s'.inp.size ∧
      (∀ a, a < s.job.jInLen.toNat → s'.inp.read a = s.inp.read a) ∧
      after (step s) (fun t => decide (t.status.word ≠ 0x66)) = true ∧ after (step s') (fun _ => true) = true := by
  refine ⟨decoding_inv, .inl rfl, .inl rfl, rfl, rfl, rfl, rfl, rfl, rfl, fun a ha => ?_, by decide, by decide⟩
  rw [Memory.read_write, if_neg]
  rintro rfl
  exact absurd ha (by decide)

/-- ErrorEntryEndsTheJob: at START, and in a DEC_PIXEL step with an address at the latched OUT_CAP. -/
theorem witness_error_entry :
    (State.resetSized 4 4).phase ≠ .decPixel ∧ (decoding 4 1 initialPixel []).job.jOutCap.toNat ≤ 64 := by decide

/-- DecoderFollowsTheEncoder: caches that differ in slot 53 only, and a chunk that ends at J_IN_LEN. -/
theorem witness_caches_agree :
    let s := encoding 3 initialPixel 0 clearedCache [];
    let d := { decoding 4 3 initialPixel [0x7F] with job.cache := cacheStore clearedCache initialPixel };
    let i := chooseChunk ⟨1, 1, 1, 255⟩ s.job.prev (cacheRead s.job.cache (pixelHash ⟨1, 1, 1, 255⟩));
    CachesAgree s.job.cache d.job.cache ∧ s.job.prev = d.job.prev ∧
      d.job.inPos + (encode i).length ≤ d.job.jInLen.toNat ∧ HasRoom d := by
  unfold CachesAgree HasRoom
  refine ⟨?_, by decide, by decide, by decide⟩
  decide

/-- An encode job of a 1 by 1 image, not yet started. -/
def imageState : State :=
  { State.resetSized 64 64 with cfg := encodeCfg 1 1 4 4 27, inp := space 0 [1, 0, 255, 255] }

/-- Its end. -/
def streamState : State :=
  match Host.Core.run core 3 { imageState with agenda := [.host (.writeReg 0 1)] } with
  | .next e => e
  | .fault _ => imageState
  | .refused _ => imageState

/-- A decode job of its stream, not yet started. -/
def againState : State :=
  { State.resetSized 64 64 with
    cfg := { decodeCfg 4 0 4 with inLen := streamState.res.outLen }, inp := streamState.out }

/-- DecodingTheEncodedStreamGivesTheImage: an image and a decode job of its stream that meet every hypothesis. -/
theorem witness_round_trip :
    (MachineInv imageState ∧ imageState.status.busy = false ∧ imageState.cfg.width ≠ 0 ∧ imageState.cfg.height ≠ 0 ∧
        imageState.cfg.channels = 4 ∧ imageState.cfg.inLen.toNat = 1 * 1 * 4 ∧
        22 + 1 * 1 * (4 + 1) ≤ imageState.cfg.outCap.toNat ∧ BuffersExist imageState) ∧
      (MachineInv againState ∧ againState.status.busy = false ∧ againState.cfg.inLen = streamState.res.outLen ∧
        againState.cfg.reqChannels = imageState.cfg.channels ∧ 1 * 1 * 4 ≤ againState.cfg.outCap.toNat ∧
        BuffersExist againState ∧ againState.inp = streamState.out ∧ streamState.res.outLen = 23) := by
  unfold BuffersExist
  refine ⟨⟨idle_inv ?_ ?_ ?_ ?_ ?_ ?_, ?_⟩, idle_inv ?_ ?_ ?_ ?_ ?_ ?_, ?_⟩ <;> decide

end Sys2Proof.Tests
end

section
/-! PROOFS. A host write of a register (10_state.md R15, R19): what it does while BUSY, and what a START makes of the
machine, said once for each of the two jobs. -/

namespace Sys2Proof.Machine

open Sys2Proof.Claims

/-! ### The host's turn -/

/-- A move of the host is made on the machine with its turn taken off the agenda. -/
theorem step_of_HostTurn {s : State} {m : HostMove} (h : HostTurn m s) : step s = hostStep m (turnTaken s) := by
  obtain ⟨rest, h⟩ := h
  rw [step_of_hostTurn h, turnTaken, h, List.tail_cons]

@[simp] theorem turnTaken_cfg (s : State) : (turnTaken s).cfg = s.cfg := rfl
@[simp] theorem turnTaken_status (s : State) : (turnTaken s).status = s.status := rfl
@[simp] theorem turnTaken_inp (s : State) : (turnTaken s).inp = s.inp := rfl
@[simp] theorem turnTaken_out (s : State) : (turnTaken s).out = s.out := rfl

/-- R19: while BUSY a register write changes nothing. -/
theorem hostWriteReg_busy {n w : Nat} {v : Word64} {s : State} (hw : regWidth n = some w) (hv : v.toNat < 2 ^ w)
    (hb : s.status.busy = true) : hostWriteReg n v s = .next s := by
  simp [hostWriteReg, hw, Nat.not_le.2 hv, hb]

/-- R15, R17: while no job runs a write of CTRL is a command, and any other write goes to the configuration. -/
theorem hostWriteReg_idle {n w : Nat} {v : Word64} {s : State} (hw : regWidth n = some w) (hv : v.toNat < 2 ^ w)
    (hb : s.status.busy = false) :
    hostWriteReg n v s = if n = 0 then writeCtrl v s else .next { s with cfg := s.cfg.store n v } := by
  simp [hostWriteReg, hw, Nat.not_le.2 hv, hb]

/-- R15, R34: a START that has a step begins the job that MODE names. -/
theorem writeCtrl_start_eq_next {v : Word64} {s t : State} (hv : ctrlStart v = true) (h : writeCtrl v s = .next t) :
    (if ctrlDecodes v = true then startDecode s.awaitDone else startEncode s.awaitDone) = .next t := by
  rw [writeCtrl, if_pos hv] at h
  split at h
  · cases h
  · exact h

/-! ### The two STARTs -/

/-- The machine after the START of an encode job that passes validation (R84). -/
def State.encodeStarted (s : State) : State :=
  let h : Header :=
    { width := s.cfg.width, height := s.cfg.height, channels := s.cfg.channels, colorspace := s.cfg.colorspace }
  { (latchEncode s).emitted (headerBytes h) with status := Status.running, phase := .encPixel }

/-- The machine after the START of a decode job that passes validation (R105). -/
def State.decodeStarted (s : State) : State :=
  { latchDecode s with status := Status.running, phase := .decPixel }

theorem startEncode_of_error {s : State} {e : ErrorCode} (hc : encodeCheck s.cfg = some e) :
    startEncode s = .next (raiseError e s) := by
  rw [startEncode, hc]

/-- A START of an encode job that passes validation needs OUT to have the 14 header bytes, and nothing else. -/
theorem startEncode_valid_eq_next {s t : State} (hc : encodeCheck s.cfg = none) :
    startEncode s = .next t ↔ 14 ≤ s.out.size ∧ t = s.encodeStarted := by
  rw [startEncode, hc]
  constructor
  · intro h
    obtain ⟨u, hu, ht⟩ := andThen_eq_next.1 h
    obtain ⟨hfit, rfl⟩ := emit_eq_next.1 hu
    exact ⟨by simpa [latchEncode] using hfit, by cases ht; rfl⟩
  · rintro ⟨hfit, rfl⟩
    exact andThen_eq_next.2 ⟨_, emit_fits (by simpa [latchEncode] using hfit), rfl⟩

theorem startDecode_of_error {s : State} {e : ErrorCode} (hc : decodeCheck s.cfg s.inp = some e) :
    startDecode s = .next (raiseError e s) := by
  rw [startDecode, hc]

theorem startDecode_valid {s : State} (hc : decodeCheck s.cfg s.inp = none) :
    startDecode s = .next s.decodeStarted := by
  rw [startDecode, hc]; rfl

/-! ### What a START leaves of the job before it (R29) -/

/-- After a START nothing that the host or the new job reads tells `t` from `t'`: STATUS, and where a job runs its phase,
OUT, the parameters, the cache, `prev`, the positions and the run counter of the job that runs. -/
def StartedAlike (t t' : State) : Prop :=
  t'.status = t.status ∧
    (t.status.busy = true →
      t'.phase = t.phase ∧ t'.out = t.out ∧ t'.job.jW = t.job.jW ∧ t'.job.jH = t.job.jH ∧ t'.job.jC = t.job.jC ∧
        t'.job.jCS = t.job.jCS ∧ t'.job.jInLen = t.job.jInLen ∧ t'.job.jOutCap = t.job.jOutCap ∧
        t'.job.jN = t.job.jN ∧ t'.job.cache = t.job.cache ∧ t'.job.prev = t.job.prev ∧
        t'.job.pixPos = t.job.pixPos ∧
        (t.phase = .encPixel → t'.job.run = t.job.run ∧ t'.job.outPos = t.job.outPos) ∧
        (t.phase = .decPixel →
          t'.job.jReq = t.job.jReq ∧ t'.job.runRem = t.job.runRem ∧ t'.job.inPos = t.job.inPos))

/-- A START that fails validation reports its code alone: no job runs after it. -/
theorem raiseError_startedAlike (e : ErrorCode) (s s' : State) : StartedAlike (raiseError e s) (raiseError e s') :=
  ⟨rfl, fun hb => by simp [Status.failed] at hb⟩

/-- An encode job begins from the configuration and OUT alone. -/
theorem encodeStarted_startedAlike {s s' : State} (hcfg : s'.cfg = s.cfg) (hout : s'.out = s.out) :
    StartedAlike s.encodeStarted s'.encodeStarted := by
  simp [StartedAlike, State.encodeStarted, latchEncode, hcfg, hout]

/-- A decode job begins from the configuration, the header in IN and OUT alone. -/
theorem decodeStarted_startedAlike {s s' : State} (hcfg : s'.cfg = s.cfg) (hinp : s'.inp = s.inp)
    (hout : s'.out = s.out) : StartedAlike s.decodeStarted s'.decodeStarted := by
  simp [StartedAlike, State.decodeStarted, latchDecode, hcfg, hinp, hout]

theorem startEncode_startedAlike {s s' t t' : State} (hcfg : s'.cfg = s.cfg) (hout : s'.out = s.out)
    (h : startEncode s = .next t) (h' : startEncode s' = .next t') : StartedAlike t t' := by
  cases hc : encodeCheck s.cfg with
  | some e =>
    rw [startEncode_of_error hc] at h
    rw [startEncode_of_error (hcfg ▸ hc)] at h'
    cases h; cases h'
    exact raiseError_startedAlike e s s'
  | none =>
    obtain ⟨-, rfl⟩ := (startEncode_valid_eq_next hc).1 h
    obtain ⟨-, rfl⟩ := (startEncode_valid_eq_next (hcfg ▸ hc)).1 h'
    exact encodeStarted_startedAlike hcfg hout

theorem startDecode_startedAlike {s s' t t' : State} (hcfg : s'.cfg = s.cfg) (hinp : s'.inp = s.inp)
    (hout : s'.out = s.out) (h : startDecode s = .next t) (h' : startDecode s' = .next t') : StartedAlike t t' := by
  have hcheck : decodeCheck s'.cfg s'.inp = decodeCheck s.cfg s.inp := by rw [hcfg, hinp]
  cases hc : decodeCheck s.cfg s.inp with
  | some e =>
    rw [startDecode_of_error hc] at h
    rw [startDecode_of_error (hcheck.trans hc)] at h'
    cases h; cases h'
    exact raiseError_startedAlike e s s'
  | none =>
    rw [startDecode_valid hc] at h
    rw [startDecode_valid (hcheck.trans hc)] at h'
    cases h; cases h'
    exact decodeStarted_startedAlike hcfg hinp hout

/-- A step that is the host's START, while no job runs, is the START of the job that MODE names. -/
theorem step_start_eq_next {s t : State} {v : Word64} {mode : Bool} (hturn : HostTurn (.writeReg 0 v) s)
    (hb : s.status.busy = false) (hv : CtrlWrite v true mode) (h : step s = .next t) :
    (if ctrlDecodes v = true then startDecode (turnTaken s).awaitDone else startEncode (turnTaken s).awaitDone) =
      .next t := by
  obtain ⟨hwidth, hstart, -⟩ := hv
  rw [step_of_HostTurn hturn, hostStep, hostWriteReg_idle rfl hwidth (by simpa using hb), if_pos rfl] at h
  exact writeCtrl_start_eq_next hstart h

/-- Settles O36: the branch of R19 in a register write. -/
theorem writesWhileBusyAreIgnored : Obligations.WritesWhileBusyAreIgnored := by
  unfold Obligations.WritesWhileBusyAreIgnored
  intro s n w v hturn hb hw hv
  rw [step_of_HostTurn hturn]
  exact hostWriteReg_busy hw hv (by simpa using hb)

/-- Settles O52: both machines run the START of one job, and either START is a function of the configuration, IN and OUT
but for registers that the new job does not read. -/
theorem startForgetsTheJobBefore : Obligations.StartForgetsTheJobBefore := by
  unfold Obligations.StartForgetsTheJobBefore
  intro s s' t t' v hturn hturn' hb hb' hv hcfg hinp hout h h'
  have hstart := step_start_eq_next hturn hb hv h
  have hstart' := step_start_eq_next hturn' hb' hv h'
  change StartedAlike t t'
  by_cases hmode : ctrlDecodes v = true
  · rw [if_pos hmode] at hstart hstart'
    exact startDecode_startedAlike (by simpa using hcfg) (by simpa using hinp) (by simpa using hout) hstart hstart'
  · rw [if_neg hmode] at hstart hstart'
    exact startEncode_startedAlike (by simpa using hcfg) (by simpa using hout) hstart hstart'

end Sys2Proof.Machine
end

section
/-! PROOFS. The buffers a START needs (20_memory.md R34). -/

namespace Sys2Proof.Machine

open Sys2Proof.Claims

@[simp] theorem buffersExist_turnTaken (s : State) : BuffersExist (turnTaken s) ↔ BuffersExist s := Iff.rfl

/-- While no job runs, the host's write of CTRL is the command it names. -/
theorem step_ctrlWrite_idle {s : State} {v : Word64} {start mode : Bool} (hturn : HostTurn (.writeReg 0 v) s)
    (hv : CtrlWrite v start mode) (hb : s.status.busy = false) : step s = writeCtrl v (turnTaken s) := by
  obtain ⟨hwidth, -, -⟩ := hv
  rw [step_of_HostTurn hturn, hostStep, hostWriteReg_idle rfl hwidth (by simpa using hb), if_pos rfl]

/-- R34: a START is refused for its buffers before either job looks at the configuration. -/
theorem writeCtrl_start_buffersMissing {s : State} {v : Word64} (hv : ctrlStart v = true) (hbuf : ¬ BuffersExist s) :
    writeCtrl v s = .refused .buffersMissing := by
  have hlack : s.inp.size < s.cfg.inLen.toNat ∨ s.out.size < s.cfg.outCap.toNat := by
    simpa only [BuffersExist, not_and_or, Nat.not_le] using hbuf
  rw [writeCtrl, if_pos hv, if_pos hlack]

/-- Settles O38: the step is the CTRL command, and a START refuses for either buffer that is too small. -/
theorem startWithoutBuffersIsRefused : Obligations.StartWithoutBuffersIsRefused := by
  unfold Obligations.StartWithoutBuffersIsRefused
  intro s v mode hturn hv hb hbuf
  have ⟨_, hstart, _⟩ := hv
  rw [step_ctrlWrite_idle hturn hv hb]
  exact writeCtrl_start_buffersMissing hstart (by simpa using hbuf)

end Sys2Proof.Machine
end

section
/-! PROOFS. The tag dispatch of a chunk's first byte (30_encoding.md R53): one equation of `decode` per chunk type. -/

namespace Sys2Proof

/-- Both 8-bit tags have the 2-bit tag of RUN: a byte with another 2-bit tag is neither. -/
theorem not_eightBitTag_of_tag_ne_run {b0 : Byte} (h : bitField b0 6 2 ≠ 0b11#2) : b0 ≠ 0xFE#8 ∧ b0 ≠ 0xFF#8 :=
  ⟨fun hrgb => h (by rw [hrgb]; rfl), fun hrgba => h (by rw [hrgba]; rfl)⟩

theorem tag_cases : ∀ t : BitVec 2, t = 0b00#2 ∨ t = 0b01#2 ∨ t = 0b10#2 ∨ t = 0b11#2 := by decide

theorem decode_of_tag_rgb (r g b : Byte) (rest : List Byte) :
    decode (0xFE#8 :: r :: g :: b :: rest) = .ok (.rgb r g b, rest) := rfl

theorem decode_of_tag_rgba (r g b a : Byte) (rest : List Byte) :
    decode (0xFF#8 :: r :: g :: b :: a :: rest) = .ok (.rgba r g b a, rest) := rfl

theorem decode_of_tag_index {b0 : Byte} (h : bitField b0 6 2 = 0b00#2) (tail : List Byte) :
    decode (b0 :: tail) = .ok (.index (bitField b0 0 6), tail) := by
  obtain ⟨hrgb, hrgba⟩ := not_eightBitTag_of_tag_ne_run (b0 := b0) (by simp [h])
  simp [decode, hrgb, hrgba, h]

theorem decode_of_tag_diff {b0 : Byte} (h : bitField b0 6 2 = 0b01#2) (tail : List Byte) :
    decode (b0 :: tail) =
      .ok (.diff (unbias (bitField b0 4 2) 2) (unbias (bitField b0 2 2) 2) (unbias (bitField b0 0 2) 2), tail) := by
  obtain ⟨hrgb, hrgba⟩ := not_eightBitTag_of_tag_ne_run (b0 := b0) (by simp [h])
  simp [decode, hrgb, hrgba, h]

theorem decode_of_tag_luma {b0 : Byte} (h : bitField b0 6 2 = 0b10#2) (b1 : Byte) (rest : List Byte) :
    decode (b0 :: b1 :: rest) =
      .ok (.luma (unbias (bitField b0 0 6) 32) (unbias (bitField b1 4 4) 8) (unbias (bitField b1 0 4) 8), rest) := by
  obtain ⟨hrgb, hrgba⟩ := not_eightBitTag_of_tag_ne_run (b0 := b0) (by simp [h])
  simp [decode, hrgb, hrgba, h]

theorem decode_of_tag_run {b0 : Byte} (hrgb : b0 ≠ 0xFE#8) (hrgba : b0 ≠ 0xFF#8) (h : bitField b0 6 2 = 0b11#2)
    (tail : List Byte) : decode (b0 :: tail) = .ok (.run ((bitField b0 0 6).toNat + 1), tail) := by
  simp [decode, hrgb, hrgba, h]

/-- Settles O4: the two 8-bit tags first, then the four values of the 2-bit tag; in each case `decode` answers the one
chunk, and the clauses of the other types are about another first byte. -/
theorem firstByteSelectsChunkByPriority : Obligations.FirstByteSelectsChunkByPriority := by
  unfold Obligations.FirstByteSelectsChunkByPriority
  intro b0 tail hlen
  obtain ⟨b1, b2, b3, b4, rest, rfl⟩ : ∃ b1 b2 b3 b4 rest, tail = b1 :: b2 :: b3 :: b4 :: rest := by
    rcases tail with _ | ⟨b1, _ | ⟨b2, _ | ⟨b3, _ | ⟨b4, rest⟩⟩⟩⟩ <;> simp at hlen ⊢
  have htag : b0.extractLsb' 6 2 = bitField b0 6 2 := rfl
  rw [htag]
  by_cases hrgb : b0 = 0xFE#8
  · subst hrgb
    exact ⟨_, _, decode_of_tag_rgb b1 b2 b3 (b4 :: rest), by simp [bitField]⟩
  by_cases hrgba : b0 = 0xFF#8
  · subst hrgba
    exact ⟨_, _, decode_of_tag_rgba b1 b2 b3 b4 rest, by simp [bitField]⟩
  obtain h | h | h | h := tag_cases (bitField b0 6 2)
  · exact ⟨_, _, decode_of_tag_index h _, by simp [h, hrgb, hrgba]⟩
  · exact ⟨_, _, decode_of_tag_diff h _, by simp [h, hrgb, hrgba]⟩
  · exact ⟨_, _, decode_of_tag_luma h _ _, by simp [h, hrgb, hrgba]⟩
  · exact ⟨_, _, decode_of_tag_run hrgb hrgba h _, by simp [h, hrgb, hrgba]⟩

end Sys2Proof
end

section
/-! PROOFS. The hash and the delta pipeline (40_datapath.md R68 to R71). -/

namespace Sys2Proof.Machine

/-! ### The hash -/

/-- R68: six bits hold the exact sum modulo 64. -/
theorem pixelHash_toNat (p : Pixel) :
    (pixelHash p).toNat = (p.r.toNat * 3 + p.g.toNat * 5 + p.b.toNat * 7 + p.a.toNat * 11) % 64 := by
  simp only [pixelHash, BitVec.toNat_ofNat, Nat.reducePow]

/-- The hash as wrapping six-bit arithmetic on the low six bits of each component. -/
theorem pixelHash_eq_six_bit_sum (p : Pixel) :
    pixelHash p = p.r.setWidth 6 * 3 + p.g.setWidth 6 * 5 + p.b.setWidth 6 * 7 + p.a.setWidth 6 * 11 := by
  simp only [pixelHash, BitVec.ofNat_add, BitVec.ofNat_mul, BitVec.ofNat_toNat, BitVec.ofNat_eq_ofNat]

/-- R69: cutting a wrapping sum of products down to its low six bits is a wrapping sum of products of the cut parts. -/
theorem setWidth_six_weighted_sum {w : Nat} (hw : 6 ≤ w) (p : Pixel) :
    (p.r.setWidth w * 3 + p.g.setWidth w * 5 + p.b.setWidth w * 7 + p.a.setWidth w * 11).setWidth 6 =
      p.r.setWidth 6 * 3 + p.g.setWidth 6 * 5 + p.b.setWidth 6 * 7 + p.a.setWidth 6 * 11 := by
  simp only [BitVec.setWidth_add _ _ hw, BitVec.setWidth_mul _ _ hw, BitVec.setWidth_setWidth_of_le _ hw,
    BitVec.ofNat_eq_ofNat, BitVec.setWidth_ofNat_of_le hw]

/-- Settles O8: the first clause is the definition's `BitVec.ofNat 6`; in a width of six bits or more, the low six bits
of the wrapping sum are the six-bit sum. -/
theorem hashIsLowSixBitsInAnyWidth : Obligations.HashIsLowSixBitsInAnyWidth := by
  unfold Obligations.HashIsLowSixBitsInAnyWidth
  exact ⟨pixelHash_toNat, fun w p hw => (pixelHash_eq_six_bit_sum p).trans (setWidth_six_weighted_sum hw p).symm⟩

/-! ### The delta pipeline -/

/-- One lane of the pipeline: the wrapped difference of two components is a signed byte and differs from the exact
difference by a multiple of 256 (R70, R71). -/
theorem s8_comp_sub_comp_spec (x y : Byte) :
    -128 ≤ s8 (comp x - comp y) ∧ s8 (comp x - comp y) ≤ 127 ∧
      (s8 (comp x - comp y) - ((x.toNat : Int) - y.toNat)) % 256 = 0 := by
  obtain ⟨hlo, hhi⟩ := s8_range (comp x - comp y)
  exact ⟨hlo, hhi, Int.emod_eq_emod_iff_emod_sub_eq_zero.mp (s8_emod (comp x - comp y))⟩

theorem deltas_aeq_iff (p q : Pixel) : (deltas p q).aeq = true ↔ p.a = q.a := decide_eq_true_iff

/-- Settles O9: each of the three colour lanes is `s8` of a difference of components; the coupled deltas and the alpha
test are the pipeline's own definitions. -/
theorem deltasAreWrappedSignedDifferences : Obligations.DeltasAreWrappedSignedDifferences := by
  unfold Obligations.DeltasAreWrappedSignedDifferences
  intro p q
  exact ⟨s8_comp_sub_comp_spec p.r q.r, s8_comp_sub_comp_spec p.g q.g, s8_comp_sub_comp_spec p.b q.b, rfl, rfl,
    deltas_aeq_iff p q⟩

end Sys2Proof.Machine
end

section
/-! PROOFS. The encoder's pixel step (41_encoder.md R86 to R97), as the statements about it say it: one spec of the
step, and what a step writes and leaves in the job for a counted pixel, the 62nd of a run, and any other. -/

namespace Sys2Proof.Machine

open Sys2Proof.Claims

/-! ### What every pixel step does -/

theorem coreStep_encPixel {s : State} (h : s.phase = .encPixel) : coreStep s = encPixelStep s := by
  simp only [coreStep, h]

/-- Bytes written at `out_pos` are exactly what `Emits` asks for. -/
theorem emits_of_out_eq_writeBytes {s t : State} {bytes : List Byte}
    (h : t.out = s.out.writeBytes s.job.outPos bytes) : Emits s t bytes where
  written j hj := by rw [h, Memory.read_writeBytes_inside _ _ _ _ hj]
  otherBytes a ha := by rw [h, Memory.read_writeBytes_outside _ _ _ _ ha]
  outSize := by rw [h, Memory.writeBytes_size]

/-- A pixel step leaves everything but the job, OUT and the phase. -/
theorem encoded_encodeFrame (s : State) (p : Pixel) : EncodeFrame s (s.encoded p) where
  frame := ⟨rfl, rfl, rfl, rfl⟩
  res := rfl
  status := rfl
  modelSide := ⟨rfl, rfl⟩
  phase := rfl

/-- The core's turn in ENC_PIXEL, from a pixel step that goes on: its frame, its bytes and its job. -/
theorem step_encPixel_spec {s : State} {bytes : List Byte} {j : Job} (hturn : CoreTurn s) (hphase : s.phase = .encPixel)
    (hgoes : encPixelStep (turnTaken s) = .next ((turnTaken s).encoded (currentPixel s)))
    (hbytes : encodeStepBytes (currentPixel s) s.job = bytes) (hjob : encodeStepJob (currentPixel s) s.job = j) :
    ∃ t, step s = .next t ∧ EncodeFrame (turnTaken s) t ∧ Emits s t bytes ∧ t.job = j := by
  subst hbytes hjob
  have hstep : step s = .next ((turnTaken s).encoded (currentPixel s)) := by
    rw [step_of_coreTurn hturn, ← hgoes]
    exact coreStep_encPixel hphase
  exact ⟨_, hstep, encoded_encodeFrame _ _, emits_of_out_eq_writeBytes rfl, rfl⟩

/-! ### A pixel of a run (R87) -/

/-- A run below 62 needs no room in OUT: nothing is written. -/
theorem encPixelStep_run_counts {s : State} (hphase : s.phase = .encPixel) (hpixel : PixelExists s)
    (heq : currentPixel s = s.job.prev) (hr : s.job.run + 1 ≠ 62) :
    encPixelStep s = .next (s.encoded (currentPixel s)) := by
  have hnext : encPixelStep s = .next (nextPixel (s.setRun (s.job.run + 1))) := by
    have hfetch : fetchPixel s = some (currentPixel s) := fetchPixel_inside hpixel
    simp only [encPixelStep, hfetch, if_pos heq, extendRun_counts hr, andThen_next]
  rw [hnext]
  congr 1
  apply State.eq_of_fields <;>
    simp [State.encoded, encodeStepJob, encodeStepBytes, nextPixel_phase, heq, hr, hphase, Memory.writeBytes]

theorem encodeStepBytes_run_counts {p : Pixel} {j : Job} (hp : p = j.prev) (hr : j.run + 1 ≠ 62) :
    encodeStepBytes p j = [] := by
  rw [encodeStepBytes, if_pos hp, if_neg hr]

theorem encodeStepJob_run_counts {p : Pixel} {j : Job} (hp : p = j.prev) (hr : j.run + 1 ≠ 62) :
    encodeStepJob p j = { j with run := j.run + 1, pixPos := j.pixPos + 1 } := by
  simp [encodeStepJob, encodeStepBytes, hp, hr]

theorem encodeStepBytes_run_full {p : Pixel} {j : Job} (hp : p = j.prev) (hr : j.run + 1 = 62) :
    encodeStepBytes p j = [0xFD] := by
  rw [encodeStepBytes, if_pos hp, if_pos hr]; rfl

theorem encodeStepJob_run_full {p : Pixel} {j : Job} (hp : p = j.prev) (hr : j.run + 1 = 62) :
    encodeStepJob p j = { j with run := 0, pixPos := j.pixPos + 1, outPos := j.outPos + 1 } := by
  subst hp
  simp [encodeStepJob, encodeStepBytes_run_full rfl hr, hr]

/-- Settles O27: the spec of the step, with the bytes and the job of a run pixel below 62 and at 62; only the 62nd needs
room in OUT. -/
theorem equalPixelExtendsTheRun : Obligations.EqualPixelExtendsTheRun := by
  unfold Obligations.EqualPixelExtendsTheRun
  intro s hturn hphase hpixel heq
  refine ⟨fun hr => ?below, fun hr hroom => ?full⟩
  case below =>
    exact step_encPixel_spec hturn hphase (encPixelStep_run_counts (s := turnTaken s) hphase hpixel heq hr)
      (encodeStepBytes_run_counts heq hr) (encodeStepJob_run_counts heq hr)
  case full =>
    have hbytes := encodeStepBytes_run_full heq hr
    have hfits : s.job.outPos + (encodeStepBytes (currentPixel s) s.job).length ≤ s.out.size := by rwa [hbytes]
    exact step_encPixel_spec hturn hphase (encPixelStep_fits (s := turnTaken s) hphase hpixel hfits) hbytes
      (encodeStepJob_run_full heq hr)

/-! ### Any other pixel (R89) -/

/-- A pending run of at most 61 pixels is flushed as one RUN byte, whose field is the run less one (R59, R88). -/
theorem flushBytes_eq_flushed : ∀ {n : Nat}, n ≤ 61 → flushBytes n = flushed n := by decide

theorem encodeStepBytes_other {s : State} (hne : currentPixel s ≠ s.job.prev) (hrun : s.job.run ≤ 61) :
    encodeStepBytes (currentPixel s) s.job = flushed s.job.run ++ chunkBytes s := by
  rw [encodeStepBytes, if_neg hne, flushBytes_eq_flushed hrun]; rfl

theorem encodeStepJob_other {p : Pixel} {j : Job} (hne : p ≠ j.prev) :
    encodeStepJob p j =
      { j with
        cache := cacheStore j.cache p
        prev := p
        run := 0
        pixPos := j.pixPos + 1
        outPos := j.outPos + (encodeStepBytes p j).length } := by
  simp [encodeStepJob, hne]

/-- Settles O28: the spec of the step, with the bytes and the job of a pixel that is not part of a run; the new cache is
the old one with the pixel stored, so it reads as R79 says. -/
theorem otherPixelIsWrittenAsAChunk : Obligations.OtherPixelIsWrittenAsAChunk := by
  unfold Obligations.OtherPixelIsWrittenAsAChunk
  intro s hturn hphase hpixel hne hrun hroom
  have hbytes := encodeStepBytes_other hne hrun
  rw [← hbytes] at hroom ⊢
  obtain ⟨t, hstep, hframe, hemits, hjob⟩ :=
    step_encPixel_spec hturn hphase (encPixelStep_fits (s := turnTaken s) hphase hpixel hroom) rfl
      (encodeStepJob_other hne)
  have hcache : t.job.cache = cacheStore s.job.cache (currentPixel s) := by rw [hjob]
  have hread := cacheRead_cacheStore s.job.cache (currentPixel s)
  rw [← hcache] at hread hjob
  exact ⟨t, hstep, hframe, hemits, by rw [hread, if_pos rfl], fun i hi => by rw [hread, if_neg hi], hjob⟩

end Sys2Proof.Machine
end

section
/-! PROOFS. The fields of a chunk's bytes as quotients and remainders of the bytes' values
(30_encoding.md R56 to R60). -/

namespace Sys2Proof

/-- R7: the field of `len` bits from bit `lo` up. -/
theorem bitField_toNat (b : Byte) (lo len : Nat) : (bitField b lo len).toNat = b.toNat / 2 ^ lo % 2 ^ len := by
  rw [bitField, BitVec.extractLsb'_toNat, Nat.shiftRight_eq_div_pow]

theorem unbias_bitField (b : Byte) (lo len : Nat) (bias : Int) :
    unbias (bitField b lo len) bias = ((b.toNat / 2 ^ lo % 2 ^ len : Nat) : Int) - bias := by
  rw [unbias, bitField_toNat]

/-- The four 2-bit tags divide the first bytes into quarters of 64 (R53). -/
theorem bitField_tag_eq {b : Byte} {t : BitVec 2} (hlo : t.toNat * 64 ≤ b.toNat) (hhi : b.toNat < t.toNat * 64 + 64) :
    bitField b 6 2 = t := by
  apply BitVec.eq_of_toNat_eq
  rw [bitField_toNat]
  omega

end Sys2Proof
end

section
/-! PROOFS. The decoder's steps (42_decoder.md R107 to R116), as the statements about them say it: one spec of a
produced pixel, one of the end of the stream, and each chunk as one of the two. -/

namespace Sys2Proof.Machine

open Sys2Proof.Claims

/-- R8: a byte made of an integer is the integer modulo 256. -/
theorem u8_toNat (v : Int) : ((u8 v).toNat : Int) = v % 256 := by
  rw [u8, BitVec.toNat_ofInt, Int.toNat_of_nonneg (by omega)]
  rfl

/-! ### A produced pixel (R116, R118) -/

/-- The bytes of a pixel, written at `a`, read back lane by lane; the fourth is there at four requested channels
(R117). -/
theorem read_writeBytes_pixelBytes (m : Memory) (a : Nat) (req : Byte) (p : Pixel) :
    (m.writeBytes a (pixelBytes req p)).read a = p.r ∧ (m.writeBytes a (pixelBytes req p)).read (a + 1) = p.g ∧
      (m.writeBytes a (pixelBytes req p)).read (a + 2) = p.b ∧
      (req = 4 → (m.writeBytes a (pixelBytes req p)).read (a + 3) = p.a) := by
  unfold pixelBytes
  split
  · simp [Memory.writeBytes, Memory.read_write, Nat.add_assoc]
  · next hreq => simpa [Memory.writeBytes, Memory.read_write, Nat.add_assoc] using fun h : req = 4 => absurd h hreq

/-- The machine after a decode job has used `used` bytes, owes `owed` pixels and has produced `px`. -/
def State.produced (s : State) (px : Pixel) (used owed : Nat) : State :=
  finishIfLast (((s.advanceIn used).setRunRem owed).committed px)

theorem produced_job (s : State) (px : Pixel) (used owed : Nat) :
    (s.produced px used owed).job =
      { s.job with
        cache := cacheStore s.job.cache px
        prev := px
        pixPos := s.job.pixPos + 1
        inPos := s.job.inPos + used
        runRem := owed } := by
  simp [State.produced]

theorem produced_out (s : State) (px : Pixel) (used owed : Nat) :
    (s.produced px used owed).out = s.out.writeBytes (pixelAddress s) (pixelBytes s.job.jReq px) := by
  simp [State.produced, pixelAddress]

theorem produced_last {s : State} (h : s.job.pixPos + 1 = s.job.jN) (px : Pixel) (used owed : Nat) :
    s.produced px used owed = finishDecode (((s.advanceIn used).setRunRem owed).committed px) :=
  finishIfLast_last h

theorem produced_notLast {s : State} (h : s.job.pixPos + 1 ≠ s.job.jN) (px : Pixel) (used owed : Nat) :
    s.produced px used owed = ((s.advanceIn used).setRunRem owed).committed px :=
  finishIfLast_notLast h

theorem succeeded_word : Status.succeeded.word = 2 := by decide

theorem failed_unexpectedEndOfStream_word : (Status.failed .unexpectedEndOfStream).word = 0x66 := by decide

theorem produced_produces (s : State) (px : Pixel) (used owed : Nat) :
    Produces s (s.produced px used owed) px used owed := by
  obtain ⟨hred, hgreen, hblue, halpha⟩ := read_writeBytes_pixelBytes s.out (pixelAddress s) s.job.jReq px
  have hjob := produced_job s px used owed
  have hout := produced_out s px used owed
  exact {
    prev := by rw [hjob]
    ownSlot := by rw [hjob, cacheRead_cacheStore, if_pos rfl]
    otherSlots := fun i hi => by rw [hjob, cacheRead_cacheStore, if_neg hi]
    inPos := by rw [hjob]
    runRem := by rw [hjob]
    pixPos := by rw [hjob]
    red := by rw [hout, hred]
    green := by rw [hout, hgreen]
    blue := by rw [hout, hblue]
    alpha := by rwa [hout]
    otherBytes := fun a ha => by
      rw [hout, Memory.read_writeBytes_outside]
      rwa [pixelBytes_length]
    outSize := by rw [hout, Memory.writeBytes_size]
    parameters := by rw [hjob]; exact ⟨rfl, rfl, rfl, rfl, rfl, rfl, rfl, rfl⟩
    encoderSide := by rw [hjob]; exact ⟨rfl, rfl⟩
    frame := by constructor <;> simp [State.produced]
    modelSide := by simp [State.produced]
    last := fun h => by simp [produced_last h, succeeded_word]
    notLast := fun h => by simp [produced_notLast h] }

/-- With room in OUT a pixel is always produced, whatever IN and J_IN_LEN are. -/
theorem produce_produces {s : State} (hroom : HasRoom s) (px : Pixel) (used owed : Nat) :
    ∃ t, produce px ((s.advanceIn used).setRunRem owed) = .next t ∧ Produces s t px used owed := by
  have hfits : pixelAddress s + (pixelBytes s.job.jReq px).length ≤ s.out.size := by rwa [pixelBytes_length]
  exact ⟨s.produced px used owed, produce_fits hfits, produced_produces s px used owed⟩

/-! ### The end of the stream (R107, R130) -/

theorem raiseError_truncates (s : State) : Truncates s (raiseError .unexpectedEndOfStream s) where
  status := failed_unexpectedEndOfStream_word
  outLen := rfl
  phase := rfl
  job := rfl
  outAbove a ha := by
    rw [raiseError_out]
    split
    · exact Memory.read_forget_outside _ _ _ _ ha
    · rfl
  outSize := by rw [raiseError_out]; split <;> simp
  frame := ⟨rfl, rfl, rfl, rfl⟩
  agenda := rfl

/-! ### A chunk produces a pixel or ends the job (R109 to R114) -/

/-- A chunk of one byte does not ask for another: it never runs into the end of the stream. -/
theorem exec_oneByte {i : Instr} {s : State} (h : i.length = 1) :
    exec i s = produce (chunkPixel i s.job) ((s.advanceIn i.length).setRunRem (chunkOwes i s.job)) := by
  cases i with
  | index | diff | run => rfl
  | rgb | rgba | luma => cases h

theorem exec_produces {i : Instr} {s : State}
    (h : i.length = 1 ∨ s.job.inPos + i.length ≤ s.job.jInLen.toNat) (hroom : HasRoom s) :
    ∃ t, exec i s = .next t ∧ Produces s t (chunkPixel i s.job) i.length (chunkOwes i s.job) := by
  have hexec : exec i s = produce (chunkPixel i s.job) ((s.advanceIn i.length).setRunRem (chunkOwes i s.job)) := by
    rcases h with hone | henough
    · exact exec_oneByte hone
    · rw [← encode_length] at henough ⊢
      exact exec_enough henough
  rw [hexec]
  exact produce_produces hroom _ _ _

/-- A chunk of more than one byte that does not lie wholly below J_IN_LEN ends the job. -/
theorem exec_truncates {i : Instr} {s : State} (hlen : i.length ≠ 1)
    (hshort : s.job.jInLen.toNat < s.job.inPos + i.length) : ∃ t, exec i s = .next t ∧ Truncates s t := by
  refine ⟨_, ?_, raiseError_truncates s⟩
  cases i with
  | rgb => rw [exec, execRgb]; exact needBytes_short hshort
  | rgba => rw [exec, execRgba]; exact needBytes_short hshort
  | luma => rw [exec, execLuma]; exact needBytes_short hshort
  | index | diff | run => exact absurd rfl hlen

/-- Settles O14: the tag byte FE, then RGB as a chunk of four bytes. -/
theorem rgbProducesItsPixel : Obligations.RgbProducesItsPixel := by
  unfold Obligations.RgbProducesItsPixel
  refine ⟨decode_of_tag_rgb, fun s r g b => ⟨fun henough hroom => ?_, fun hshort => ?_⟩⟩
  · exact exec_produces (i := .rgb r g b) (.inr henough) hroom
  · exact exec_truncates (i := .rgb r g b) (by simp [Instr.length]) hshort

/-- Settles O15: the tag byte FF, then RGBA as a chunk of five bytes. -/
theorem rgbaProducesItsPixel : Obligations.RgbaProducesItsPixel := by
  unfold Obligations.RgbaProducesItsPixel
  refine ⟨decode_of_tag_rgba, fun s r g b a => ⟨fun henough hroom => ?_, fun hshort => ?_⟩⟩
  · exact exec_produces (i := .rgba r g b a) (.inr henough) hroom
  · exact exec_truncates (i := .rgba r g b a) (by simp [Instr.length]) hshort

/-- Settles O16: the first quarter of the first bytes, then INDEX as a chunk of one byte. -/
theorem indexProducesTheSlot : Obligations.IndexProducesTheSlot := by
  unfold Obligations.IndexProducesTheSlot
  refine ⟨fun b0 tail hhi => ?_, fun s i hroom => exec_produces (i := .index i) (.inl rfl) hroom⟩
  have htag : bitField b0 6 2 = 0b00#2 := bitField_tag_eq (Nat.zero_le _) hhi
  have hslot : bitField b0 0 6 = BitVec.ofNat 6 b0.toNat := by
    apply BitVec.eq_of_toNat_eq
    simp [bitField_toNat]
  rw [decode_of_tag_index htag, hslot]

/-- Settles O17: the second quarter of the first bytes, then DIFF as a chunk of one byte; each colour lane is
`u8` of a sum. -/
theorem diffAddsItsDeltas : Obligations.DiffAddsItsDeltas := by
  unfold Obligations.DiffAddsItsDeltas
  refine ⟨fun b0 tail hlo hhi => ?_, fun s dr dg db hroom => ?_⟩
  · have htag : bitField b0 6 2 = 0b01#2 := bitField_tag_eq hlo hhi
    rw [decode_of_tag_diff htag]
    simp [unbias_bitField]
  · obtain ⟨t, hexec, hproduces⟩ := exec_produces (i := .diff dr dg db) (.inl rfl) hroom
    exact ⟨t, _, hexec, hproduces, u8_toNat _, u8_toNat _, u8_toNat _, rfl⟩

/-- Settles O18: the third quarter of the first bytes and the two nibbles of the second byte, then LUMA as a chunk of
two bytes; each colour lane is `u8` of a sum. -/
theorem lumaAddsItsDeltas : Obligations.LumaAddsItsDeltas := by
  unfold Obligations.LumaAddsItsDeltas
  refine ⟨fun b0 b1 tail hlo hhi => ?_, fun s dg drdg dbdg => ⟨fun henough hroom => ?_, fun hshort => ?_⟩⟩
  · have htag : bitField b0 6 2 = 0b10#2 := bitField_tag_eq hlo hhi
    have hnibble : b1.toNat / 16 % 16 = b1.toNat / 16 := Nat.mod_eq_of_lt (by omega)
    rw [decode_of_tag_luma htag]
    simp [unbias_bitField, hnibble]
  · obtain ⟨t, hexec, hproduces⟩ := exec_produces (i := .luma dg drdg dbdg) (.inr henough) hroom
    exact ⟨t, _, hexec, hproduces, u8_toNat _, u8_toNat _, u8_toNat _, rfl⟩
  · exact exec_truncates (i := .luma dg drdg dbdg) (by simp [Instr.length]) hshort

/-- Settles O19: the last quarter of the first bytes but for the two 8-bit tags, then RUN as a chunk of one byte. -/
theorem runProducesThePreviousPixel : Obligations.RunProducesThePreviousPixel := by
  unfold Obligations.RunProducesThePreviousPixel
  refine ⟨fun b0 tail hlo hhi => ?_, fun s n hroom => exec_produces (i := .run n) (.inl rfl) hroom⟩
  have htag : bitField b0 6 2 = 0b11#2 := bitField_tag_eq hlo (by simp; omega)
  have hrgb : b0 ≠ 0xFE#8 := fun h => by simp [h] at hhi
  have hrgba : b0 ≠ 0xFF#8 := fun h => by simp [h] at hhi
  rw [decode_of_tag_run hrgb hrgba htag]
  simp [bitField_toNat]

/-! ### Run continuation (R115) -/

theorem coreStep_decPixel {s : State} (h : s.phase = .decPixel) : coreStep s = decPixelStep s := by
  simp only [coreStep, h]

/-- R115: a run goes on as a produced pixel that used no byte. -/
theorem continueRun_eq_produce (s : State) :
    continueRun s = produce s.job.prev ((s.advanceIn 0).setRunRem (s.job.runRem - 1)) := rfl

/-- Settles O21: with pixels owed the core's turn is a run continuation, which produces `prev`. -/
theorem pendingRunNeedsNoByte : Obligations.PendingRunNeedsNoByte := by
  unfold Obligations.PendingRunNeedsNoByte
  intro s hturn hphase hrun hroom
  have hstep : step s = continueRun (turnTaken s) := by
    rw [step_of_coreTurn hturn]
    exact (coreStep_decPixel (s := turnTaken s) hphase).trans (if_pos hrun)
  rw [hstep, continueRun_eq_produce]
  exact produce_produces (s := turnTaken s) hroom _ _ _

end Sys2Proof.Machine
end

section
/-! PROOFS. Error entry (60_exceptions.md R127, R130): what it records, and what it leaves of OUT. -/

namespace Sys2Proof.Machine

open Sys2Proof.Claims

/-- R16, R130: DONE and ERR are bits 1 and 2 of the word, and the code stands from bit 4. -/
theorem failed_word_toNat (e : ErrorCode) :
    (Status.failed e).word.toNat = 6 + 16 * (Status.failed e).code.toNat := by
  cases e <;> decide

theorem raiseError_coreFrame (e : ErrorCode) (s : State) : CoreFrame s (raiseError e s) :=
  ⟨rfl, rfl, rfl, rfl⟩

/-- What becomes of OUT does not depend on the code, so what is said of the end of the stream holds of every error. -/
theorem raiseError_out_eq_endOfStream (e : ErrorCode) (s : State) :
    (raiseError e s).out = (raiseError .unexpectedEndOfStream s).out := rfl

/-- R47: only an error of a DEC_PIXEL step forgets bytes of OUT. -/
theorem raiseError_out_of_ne_decPixel {s : State} (h : s.phase ≠ .decPixel) (e : ErrorCode) :
    (raiseError e s).out = s.out := by
  rw [raiseError_out, if_neg h]

/-- Settles O26: the code of each error is read off its case; OUT is kept outside DEC_PIXEL, and above the latched
OUT_CAP as at the end of the stream. -/
theorem errorEntryEndsTheJob : Obligations.ErrorEntryEndsTheJob := by
  unfold Obligations.ErrorEntryEndsTheJob
  intro s e
  refine ⟨rfl, rfl, rfl, rfl, failed_word_toNat e, ?code, rfl, rfl, raiseError_coreFrame e s, rfl,
    fun h => raiseError_out_of_ne_decPixel h e, ?_⟩
  case code => cases e <;> rfl
  rw [raiseError_out_eq_endOfStream]
  exact ⟨(raiseError_truncates s).outAbove, (raiseError_truncates s).outSize⟩

end Sys2Proof.Machine
end

section
/-! PROOFS. The chunk format both ways (30_encoding.md R52 to R66): `decode` reads `encode` back, what it reads is an
encoding, and it refuses only bytes that are too few. -/

namespace Sys2Proof

/-! ### Decoding what was encoded -/

/-- R59: the six low bits of a RUN byte are the run length less one. -/
theorem biased_run_toNat {n : Nat} (h1 : 1 ≤ n) (h2 : n ≤ 62) : (biased 6 n (-1)).toNat = n - 1 := by
  have hn : (n : Int) + -1 = ((n - 1 : Nat) : Int) := by omega
  rw [biased, hn, BitVec.ofInt_natCast, BitVec.toNat_ofNat]
  omega

/-- The 2-bit tag of RUN before six bits adds `0xC0`. -/
theorem runTag_append_toNat : ∀ x : BitVec 6, (0b11#2 ++ x).toNat = 0xC0 + x.toNat := by decide

/-- R59, R64, R100: the byte of a run of 1 to 62 pixels, below the two 8-bit tags. -/
theorem run_byte_toNat {n : Nat} (h1 : 1 ≤ n) (h2 : n ≤ 62) : (0b11#2 ++ biased 6 n (-1)).toNat = 0xC0 + (n - 1) := by
  rw [runTag_append_toNat, biased_run_toNat h1 h2]

theorem run_byte_ne_eightBitTag {n : Nat} (h1 : 1 ≤ n) (h2 : n ≤ 62) :
    0b11#2 ++ biased 6 n (-1) ≠ 0xFE#8 ∧ 0b11#2 ++ biased 6 n (-1) ≠ 0xFF#8 := by
  have hbyte := run_byte_toNat h1 h2
  refine ⟨fun h => ?_, fun h => ?_⟩ <;> rw [h, BitVec.toNat_ofNat] at hbyte <;> omega

theorem wf_diff_iff (dr dg db : Int) :
    (Instr.diff dr dg db).wf = true ↔ (-2 ≤ dr ∧ dr ≤ 1) ∧ (-2 ≤ dg ∧ dg ≤ 1) ∧ (-2 ≤ db ∧ db ≤ 1) := by
  simp only [Instr.wf, Bool.and_eq_true, decide_eq_true_eq, and_assoc]

theorem wf_luma_iff (dg drdg dbdg : Int) :
    (Instr.luma dg drdg dbdg).wf = true ↔
      (-32 ≤ dg ∧ dg ≤ 31) ∧ (-8 ≤ drdg ∧ drdg ≤ 7) ∧ (-8 ≤ dbdg ∧ dbdg ≤ 7) := by
  simp only [Instr.wf, Bool.and_eq_true, decide_eq_true_eq, and_assoc]

theorem wf_run_iff (n : Nat) : (Instr.run n).wf = true ↔ 1 ≤ n ∧ n ≤ 62 := decide_eq_true_iff

/-- Decoding reads a well-formed chunk back from its encoding, whatever follows. -/
theorem decode_encode_append {i : Instr} (hwf : i.wf = true) (rest : List Byte) :
    decode (encode i ++ rest) = .ok (i, rest) := by
  cases i with
  | rgb r g b => exact decode_of_tag_rgb r g b rest
  | rgba r g b a => exact decode_of_tag_rgba r g b a rest
  | index k =>
    rw [encode, List.singleton_append, decode_of_tag_index (bitField_tag _ _), bitField_low]
  | diff dr dg db =>
    obtain ⟨hr, hg, hb⟩ := (wf_diff_iff dr dg db).1 hwf
    obtain ⟨htag, hfr, hfg, hfb⟩ := bitField_pairs 0b01#2 (biased 2 dr 2) (biased 2 dg 2) (biased 2 db 2)
    rw [encode, List.singleton_append, decode_of_tag_diff htag, hfr, hfg, hfb, unbias_biased, unbias_biased,
      unbias_biased] <;> omega
  | luma dg drdg dbdg =>
    obtain ⟨hg, hr, hb⟩ := (wf_luma_iff dg drdg dbdg).1 hwf
    rw [encode, List.cons_append, List.singleton_append, decode_of_tag_luma (bitField_tag _ _), bitField_low,
      bitField_high4, bitField_low4, unbias_biased, unbias_biased, unbias_biased] <;> omega
  | run n =>
    obtain ⟨h1, h2⟩ := (wf_run_iff n).1 hwf
    obtain ⟨hrgb, hrgba⟩ := run_byte_ne_eightBitTag h1 h2
    rw [encode, List.singleton_append, decode_of_tag_run hrgb hrgba (bitField_tag _ _), bitField_low,
      biased_run_toNat h1 h2, Nat.sub_add_cancel h1]

/-- Settles O1: the tag selects the chunk's own branch, and each field holds its biased operand. -/
theorem decodeOfEncodeGivesTheChunk : Obligations.DecodeOfEncodeGivesTheChunk := by
  unfold Obligations.DecodeOfEncodeGivesTheChunk
  exact fun i rest hwf => decode_encode_append hwf rest

/-- Settles O7: the tag adds `0xC0` to the run length less one. -/
theorem runByteIsNeverAnEightBitTag : Obligations.RunByteIsNeverAnEightBitTag := by
  unfold Obligations.RunByteIsNeverAnEightBitTag
  intro n hwf
  obtain ⟨h1, h2⟩ := (wf_run_iff n).1 hwf
  exact ⟨_, rfl, run_byte_toNat h1 h2, run_byte_ne_eightBitTag h1 h2⟩

/-! ### Encoding what was decoded -/

/-- R53: the six ways a chunk is read, each with its bytes. -/
theorem decode_eq_ok_cases {bytes rest : List Byte} {i : Instr} (h : decode bytes = .ok (i, rest)) :
    (∃ r g b, bytes = 0xFE#8 :: r :: g :: b :: rest ∧ i = .rgb r g b) ∨
      (∃ r g b a, bytes = 0xFF#8 :: r :: g :: b :: a :: rest ∧ i = .rgba r g b a) ∨
      ∃ b0, b0 ≠ 0xFE#8 ∧ b0 ≠ 0xFF#8 ∧
        ((bitField b0 6 2 = 0b00#2 ∧ bytes = b0 :: rest ∧ i = .index (bitField b0 0 6)) ∨
          (bitField b0 6 2 = 0b01#2 ∧ bytes = b0 :: rest ∧
            i = .diff (unbias (bitField b0 4 2) 2) (unbias (bitField b0 2 2) 2) (unbias (bitField b0 0 2) 2)) ∨
          (bitField b0 6 2 = 0b10#2 ∧ ∃ b1, bytes = b0 :: b1 :: rest ∧
            i = .luma (unbias (bitField b0 0 6) 32) (unbias (bitField b1 4 4) 8) (unbias (bitField b1 0 4) 8)) ∨
          (bitField b0 6 2 = 0b11#2 ∧ bytes = b0 :: rest ∧ i = .run ((bitField b0 0 6).toNat + 1))) := by
  rcases bytes with _ | ⟨b0, tail⟩
  · cases h
  by_cases hrgb : b0 = 0xFE#8
  · subst hrgb
    rcases tail with _ | ⟨r, _ | ⟨g, _ | ⟨b, tail⟩⟩⟩ <;> cases h
    exact .inl ⟨r, g, b, rfl, rfl⟩
  by_cases hrgba : b0 = 0xFF#8
  · subst hrgba
    rcases tail with _ | ⟨r, _ | ⟨g, _ | ⟨b, _ | ⟨a, tail⟩⟩⟩⟩ <;> cases h
    exact .inr (.inl ⟨r, g, b, a, rfl, rfl⟩)
  refine .inr (.inr ⟨b0, hrgb, hrgba, ?_⟩)
  obtain ht | ht | ht | ht := tag_cases (bitField b0 6 2)
  · rw [decode_of_tag_index ht] at h
    cases h
    exact .inl ⟨ht, rfl, rfl⟩
  · rw [decode_of_tag_diff ht] at h
    cases h
    exact .inr (.inl ⟨ht, rfl, rfl⟩)
  · rcases tail with _ | ⟨b1, tail⟩
    · simp [decode, hrgb, hrgba, ht] at h
    · rw [decode_of_tag_luma ht] at h
      cases h
      exact .inr (.inr (.inl ⟨ht, b1, rfl, rfl⟩))
  · rw [decode_of_tag_run hrgb hrgba ht] at h
    cases h
    exact .inr (.inr (.inr ⟨ht, rfl, rfl⟩))

/-- A byte with the tag of RUN that is no 8-bit tag has a run field of at most 61 (R64). -/
theorem run_field_le {b0 : Byte} (hrgb : b0 ≠ 0xFE#8) (hrgba : b0 ≠ 0xFF#8) (ht : bitField b0 6 2 = 0b11#2) :
    (bitField b0 0 6).toNat ≤ 61 := by
  revert b0; decide

theorem biased_run_field (f : BitVec 6) : biased 6 ((f.toNat + 1 : Nat) : Int) (-1) = f := by
  rw [biased, show ((f.toNat + 1 : Nat) : Int) + -1 = (f.toNat : Int) by omega, BitVec.ofInt_natCast,
    BitVec.ofNat_toNat, BitVec.setWidth_eq]

/-- What the decoder takes off is the encoding of a well-formed chunk. -/
theorem eq_encode_append_of_decode {bytes rest : List Byte} {i : Instr} (h : decode bytes = .ok (i, rest)) :
    i.wf = true ∧ bytes = encode i ++ rest := by
  obtain ⟨r, g, b, rfl, rfl⟩ | ⟨r, g, b, a, rfl, rfl⟩ | ⟨b0, hrgb, hrgba, hcase⟩ := decode_eq_ok_cases h
  · exact ⟨rfl, rfl⟩
  · exact ⟨rfl, rfl⟩
  have hlow := byte_eq_tag_low b0
  obtain ⟨ht, rfl, rfl⟩ | ⟨ht, rfl, rfl⟩ | ⟨ht, b1, rfl, rfl⟩ | ⟨ht, rfl, rfl⟩ := hcase <;> rw [ht] at hlow
  · exact ⟨rfl, by rw [encode, ← hlow]; rfl⟩
  · have hpairs := byte_eq_pairs b0
    rw [ht] at hpairs
    have hr := unbias_range (bitField b0 4 2) 2
    have hg := unbias_range (bitField b0 2 2) 2
    have hb := unbias_range (bitField b0 0 2) 2
    refine ⟨(wf_diff_iff _ _ _).2 (by omega), ?_⟩
    rw [encode, biased_unbias, biased_unbias, biased_unbias, ← hpairs]; rfl
  · have hg := unbias_range (bitField b0 0 6) 32
    have hr := unbias_range (bitField b1 4 4) 8
    have hb := unbias_range (bitField b1 0 4) 8
    refine ⟨(wf_luma_iff _ _ _).2 (by omega), ?_⟩
    rw [encode, biased_unbias, biased_unbias, biased_unbias, ← hlow, ← byte_eq_nibbles]; rfl
  · have hfield := run_field_le hrgb hrgba ht
    refine ⟨(wf_run_iff _).2 (by omega), ?_⟩
    rw [encode, biased_run_field, ← hlow]; rfl

/-- Settles O2: in each of the six ways a chunk is read, the fields put back together are the bytes. -/
theorem decodedBytesAreTheEncoding : Obligations.DecodedBytesAreTheEncoding := by
  unfold Obligations.DecodedBytesAreTheEncoding
  exact fun bytes i rest h => eq_encode_append_of_decode h

/-! ### The length of a chunk, from its first byte (R52, R61) -/

theorem chunkLength_le (b0 : Byte) : chunkLength b0 ≤ maxChunkLength := by
  unfold chunkLength maxChunkLength
  split_ifs <;> omega

theorem encodeShape : ∀ i : Instr, Laws.EncodeShape.Statement i
  | .rgb r g b => Laws.EncodeShape.rgb r g b
  | .rgba r g b a => Laws.EncodeShape.rgba r g b a
  | .index k => Laws.EncodeShape.index k
  | .diff dr dg db => Laws.EncodeShape.diff dr dg db
  | .luma dg drdg dbdg => Laws.EncodeShape.luma dg drdg dbdg
  | .run n => Laws.EncodeShape.run n

/-- A chunk that was read has the length its first byte tells. -/
theorem length_eq_chunkLength_of_decode {b0 : Byte} {tail rest : List Byte} {i : Instr}
    (h : decode (b0 :: tail) = .ok (i, rest)) : i.length = chunkLength b0 := by
  obtain ⟨hwf, hbytes⟩ := eq_encode_append_of_decode h
  have hhead := (encodeShape i).2 hwf
  cases hi : encode i with
  | nil => rw [hi] at hhead; cases hhead
  | cons b bs =>
    rw [hi, List.cons_append] at hbytes
    cases hbytes
    rw [hi] at hhead
    exact (Option.some.inj hhead).symm

/-- R62, R107: fewer bytes than the chunk length of the first are refused. -/
theorem decode_short {b0 : Byte} {tail : List Byte} (h : tail.length + 1 < chunkLength b0) :
    decode (b0 :: tail) = .error .endOfStream := by
  cases hd : decode (b0 :: tail) with
  | error e => cases e; rfl
  | ok x =>
    have hchunk := length_eq_chunkLength_of_decode hd
    have htaken := Machine.decode_length hd
    rw [encode_length, List.length_cons] at htaken
    omega

/-- As many bytes as the chunk length of the first are read as a chunk. -/
theorem decode_enough {b0 : Byte} {tail : List Byte} (h : chunkLength b0 ≤ tail.length + 1) :
    ∃ i rest, decode (b0 :: tail) = .ok (i, rest) := by
  by_cases hrgb : b0 = 0xFE#8
  · obtain ⟨r, g, b, rest, rfl⟩ : ∃ r g b rest, tail = r :: g :: b :: rest := by
      rw [hrgb] at h
      rcases tail with _ | ⟨r, _ | ⟨g, _ | ⟨b, rest⟩⟩⟩ <;> simp [chunkLength] at h ⊢
    exact ⟨_, _, hrgb ▸ decode_of_tag_rgb r g b rest⟩
  by_cases hrgba : b0 = 0xFF#8
  · obtain ⟨r, g, b, a, rest, rfl⟩ : ∃ r g b a rest, tail = r :: g :: b :: a :: rest := by
      rw [hrgba] at h
      rcases tail with _ | ⟨r, _ | ⟨g, _ | ⟨b, _ | ⟨a, rest⟩⟩⟩⟩ <;> simp [chunkLength] at h ⊢
    exact ⟨_, _, hrgba ▸ decode_of_tag_rgba r g b a rest⟩
  obtain ht | ht | ht | ht := tag_cases (bitField b0 6 2)
  · exact ⟨_, _, decode_of_tag_index ht tail⟩
  · exact ⟨_, _, decode_of_tag_diff ht tail⟩
  · obtain ⟨b1, rest, rfl⟩ : ∃ b1 rest, tail = b1 :: rest := by
      cases tail with
      | nil => simp [chunkLength, hrgb, hrgba, ht] at h
      | cons b1 rest => exact ⟨b1, rest, rfl⟩
    exact ⟨_, _, decode_of_tag_luma ht b1 rest⟩
  · exact ⟨_, _, decode_of_tag_run hrgb hrgba ht tail⟩

/-- Settles O3: the chunk length of the first byte is the bound on both sides. -/
theorem decodeRefusesOnlyShortBytes : Obligations.DecodeRefusesOnlyShortBytes := by
  unfold Obligations.DecodeRefusesOnlyShortBytes
  refine ⟨rfl, fun b0 tail => ⟨decode_short, fun h => ?_⟩⟩
  obtain ⟨i, rest, hdecode⟩ := decode_enough h
  exact ⟨i, rest, hdecode, (encode_length i).trans (length_eq_chunkLength_of_decode hdecode)⟩

/-- Settles O5: six closed words, decoded. -/
theorem sampleWordsDecode : Obligations.SampleWordsDecode := by
  unfold Obligations.SampleWordsDecode
  decide

end Sys2Proof
end

section
/-! PROOFS. Bytes that a space holds from an address on, and the header among them (20_memory.md R35, R36,
30_encoding.md R49). -/

namespace Sys2Proof.Machine

open Sys2Proof.Claims

/-! ### The 32-bit numbers of a header -/

/-- R35: four bytes read big-endian, as a sum. -/
theorem be32_toNat (b0 b1 b2 b3 : Byte) :
    (be32 b0 b1 b2 b3).toNat = b0.toNat * 2 ^ 24 + b1.toNat * 2 ^ 16 + b2.toNat * 2 ^ 8 + b3.toNat := by
  have happend (x : Nat) (b : Byte) : x <<< 8 ||| b.toNat = x * 2 ^ 8 + b.toNat := by
    rw [← Nat.shiftLeft_add_eq_or_of_lt b.isLt, Nat.shiftLeft_eq]
  simp only [be32, BitVec.toNat_append, happend]
  omega

theorem headerNumber_eq_be32 (m : Memory) (a : Nat) :
    headerNumber m a = (be32 (m.read a) (m.read (a + 1)) (m.read (a + 2)) (m.read (a + 3))).toNat :=
  (be32_toNat _ _ _ _).symm

theorem headerOf_width (m : Memory) : (headerOf m).width.toNat = headerNumber m 4 := (headerNumber_eq_be32 m 4).symm

theorem headerOf_height (m : Memory) : (headerOf m).height.toNat = headerNumber m 8 := (headerNumber_eq_be32 m 8).symm

/-! ### Bytes that lie in a space -/

/-- The bytes `bs` lie in the space from address `a` on. -/
def Memory.Holds (m : Memory) (a : Nat) (bs : List Byte) : Prop := ∀ j, (h : j < bs.length) → m.read (a + j) = bs[j]

theorem Memory.holds_nil (m : Memory) (a : Nat) : m.Holds a [] := fun _ h => absurd h (Nat.not_lt_zero _)

theorem Memory.holds_append {m : Memory} {a : Nat} {xs ys : List Byte} :
    m.Holds a (xs ++ ys) ↔ m.Holds a xs ∧ m.Holds (a + xs.length) ys := by
  constructor
  · intro h
    refine ⟨fun j hj => ?_, fun j hj => ?_⟩
    · rw [h j (by rw [List.length_append]; omega), List.getElem_append_left hj]
    · rw [Nat.add_assoc, h (xs.length + j) (by rw [List.length_append]; omega),
        List.getElem_append_right (Nat.le_add_right _ _)]
      simp
  · rintro ⟨hxs, hys⟩ j hj
    rw [List.length_append] at hj
    by_cases hjx : j < xs.length
    · rw [hxs j hjx, List.getElem_append_left hjx]
    · have hy := hys (j - xs.length) (by omega)
      rw [show a + xs.length + (j - xs.length) = a + j by omega] at hy
      rw [hy, List.getElem_append_right (by omega)]

theorem Memory.holds_cons {m : Memory} {a : Nat} {b : Byte} {bs : List Byte} :
    m.Holds a (b :: bs) ↔ m.read a = b ∧ m.Holds (a + 1) bs := by
  have hone : m.Holds a [b] ↔ m.read a = b := by simp [Memory.Holds]
  rw [← hone]
  exact Memory.holds_append (xs := [b])

/-- Bytes lie where they were written. -/
theorem Memory.holds_writeBytes (m : Memory) (a : Nat) (bs : List Byte) : (m.writeBytes a bs).Holds a bs :=
  fun j hj => Memory.read_writeBytes_inside bs m a j hj

/-- Bytes lie in any space that reads the same there. -/
theorem Memory.Holds.congr {m m' : Memory} {a : Nat} {bs : List Byte} (h : m.Holds a bs)
    (hread : ∀ b, a ≤ b → b < a + bs.length → m'.read b = m.read b) : m'.Holds a bs :=
  fun j hj => (hread (a + j) (by omega) (by omega)).trans (h j hj)

/-- A write behind the bytes leaves them. -/
theorem Memory.Holds.writeBytes_behind {m : Memory} {a b : Nat} {bs vs : List Byte} (h : m.Holds a bs)
    (hb : a + bs.length ≤ b) : (m.writeBytes b vs).Holds a bs :=
  h.congr fun _ _ hlt => Memory.read_writeBytes_outside _ _ _ _ (.inl (by omega))

/-- R49: the header that lies at the start of a space is the one the decoder reads. -/
theorem headerOf_of_holds {h : Header} {m : Memory} (hm : m.Holds 0 (headerBytes h)) :
    headerOf m = h ∧ [m.read 0, m.read 1, m.read 2, m.read 3] = magic := by
  have hread (j : Nat) (hj : j < 14) : m.read j = (headerBytes h)[j]'(by simpa using hj) := by
    rw [← hm j (by simpa using hj), Nat.zero_add]
  have hw := be32_bytes32 h.width
  have hh := be32_bytes32 h.height
  constructor
  · unfold headerOf
    rw [hread 4 (by decide), hread 5 (by decide), hread 6 (by decide), hread 7 (by decide), hread 8 (by decide),
      hread 9 (by decide), hread 10 (by decide), hread 11 (by decide), hread 12 (by decide), hread 13 (by decide)]
    exact congrArg₂ (Header.mk · · h.channels h.colorspace) hw hh
  · rw [hread 0 (by decide), hread 1 (by decide), hread 2 (by decide), hread 3 (by decide)]; rfl

/-- Settles O6: the bytes that lie in the space are the descriptor's, and each number is `be32` of its four. -/
theorem headerReadsBackBigEndian : Obligations.HeaderReadsBackBigEndian := by
  unfold Obligations.HeaderReadsBackBigEndian
  intro h m hm
  have hholds : m.Holds 0 (headerBytes h) := fun j hj => by rw [Nat.zero_add]; exact hm j hj
  obtain ⟨hheader, hmagic⟩ := headerOf_of_holds hholds
  exact ⟨hheader, hmagic, by rw [← headerOf_width, hheader], by rw [← headerOf_height, hheader]⟩

end Sys2Proof.Machine
end

section
/-! PROOFS. The fit tests, the chunk choice and the reconstruction (40_datapath.md R71 to R77, 41_encoder.md R90 to
R96). -/

namespace Sys2Proof.Machine

open Sys2Proof.Claims

/-! ### Reconstruction (R77) -/

theorem applyDIFF_deltas {p q : Pixel} (ha : p.a = q.a) :
    applyDIFF q (deltas p q).dr (deltas p q).dg (deltas p q).db = p := by
  simp only [applyDIFF, deltas, u8_add_s8_sub, ← ha]

theorem applyLUMA_deltas {p q : Pixel} (ha : p.a = q.a) :
    applyLUMA q (deltas p q).dg (deltas p q).drdg (deltas p q).dbdg = p := by
  have hcoupled (x dg d : Int) : x + dg + (d - dg) = x + d := by omega
  simp only [applyLUMA, deltas, hcoupled, u8_add_s8_sub, ← ha]

/-- Settles O10: a fit needs equal alphas, and lane by lane the wrapped difference added back is the component; the
coupled deltas cancel the green one. -/
theorem reconstructionInvertsDeltas : Obligations.ReconstructionInvertsDeltas := by
  unfold Obligations.ReconstructionInvertsDeltas
  intro p q
  exact ⟨fun h => applyDIFF_deltas ((fitsDIFF_iff p q).1 h).1, fun h => applyLUMA_deltas ((fitsLUMA_iff p q).1 h).1⟩

/-! ### The fits (R72 to R74) -/

/-- A coupled delta whose green delta fits LUMA is far from 256, so one more wrap does not move it into the nibble. -/
theorem coupledDelta_range (p q : Pixel) (hg : -32 ≤ (deltas p q).dg ∧ (deltas p q).dg ≤ 31) :
    (-248 < (deltas p q).drdg ∧ (deltas p q).drdg < 248) ∧ (-248 < (deltas p q).dbdg ∧ (deltas p q).dbdg < 248) := by
  have hr := s8_range (comp p.r - comp q.r)
  have hb := s8_range (comp p.b - comp q.b)
  simp only [deltas] at hg ⊢
  omega

theorem fitsLUMA_iff_wrapped (p q : Pixel) :
    fitsLUMA p q = true ↔ p.a = q.a ∧ (-32 ≤ (deltas p q).dg ∧ (deltas p q).dg ≤ 31) ∧
      (-8 ≤ s8 (deltas p q).drdg ∧ s8 (deltas p q).drdg ≤ 7) ∧
        (-8 ≤ s8 (deltas p q).dbdg ∧ s8 (deltas p q).dbdg ≤ 7) := by
  rw [fitsLUMA_iff]
  refine and_congr_right fun _ => and_congr_right fun hg => ?_
  obtain ⟨hr, hb⟩ := coupledDelta_range p q hg
  rw [s8_in_nibble hr, s8_in_nibble hb]

theorem fitsLUMA_of_fitsDIFF {p q : Pixel} (h : fitsDIFF p q = true) : fitsLUMA p q = true := by
  obtain ⟨ha, hr, hg, hb⟩ := (fitsDIFF_iff p q).1 h
  have hdrdg : (deltas p q).drdg = (deltas p q).dr - (deltas p q).dg := rfl
  have hdbdg : (deltas p q).dbdg = (deltas p q).db - (deltas p q).dg := rfl
  exact (fitsLUMA_iff p q).2 ⟨ha, by omega, by omega, by omega⟩

/-- Settles O11: numbers in the nibble's range are their own wrap, and the DIFF ranges lie within the LUMA ones. -/
theorem lumaFitDoesNotSeeTheWrap : Obligations.LumaFitDoesNotSeeTheWrap := by
  unfold Obligations.LumaFitDoesNotSeeTheWrap
  intro p q
  refine ⟨fitsDIFF_iff p q, fitsLUMA_iff_wrapped p q, fun h => ?_, fitsLUMA_of_fitsDIFF⟩
  obtain ⟨-, -, hr, hb⟩ := (fitsLUMA_iff p q).1 h
  exact ⟨s8_of_range (by omega) (by omega), s8_of_range (by omega) (by omega)⟩

/-! ### The bytes of the chosen chunk (R90 to R94) -/

theorem index_byte : ∀ i : BitVec 6, 0b00#2 ++ i = BitVec.ofNat 8 i.toNat := by decide

theorem diff_byte_of_fields : ∀ x y z : BitVec 2,
    0b01#2 ++ x ++ y ++ z = BitVec.ofInt 8 (0x40 + (x.toNat : Int) * 16 + (y.toNat : Int) * 4 + z.toNat) := by decide

theorem luma_byte_of_field : ∀ x : BitVec 6, 0b10#2 ++ x = BitVec.ofInt 8 (0x80 + (x.toNat : Int)) := by decide

theorem nibbles_byte : ∀ x y : BitVec 4, x ++ y = BitVec.ofInt 8 ((x.toNat : Int) * 16 + y.toNat) := by decide

/-- The field of a value whose biased value fits holds that biased value (R60). -/
theorem biased_toNat {w : Nat} {v bias : Int} (h : 0 ≤ v + bias) (h' : v + bias < 2 ^ w) :
    ((biased w v bias).toNat : Int) = v + bias := by
  have hvalue := unbias_biased h h'
  rw [unbias] at hvalue
  omega

/-- R57: the byte of a well-formed DIFF. -/
theorem encode_diff {dr dg db : Int} (h : (Instr.diff dr dg db).wf = true) :
    encode (.diff dr dg db) = [BitVec.ofInt 8 (0x40 + (dr + 2) * 16 + (dg + 2) * 4 + (db + 2))] := by
  obtain ⟨hr, hg, hb⟩ := (wf_diff_iff dr dg db).1 h
  rw [encode, diff_byte_of_fields, biased_toNat, biased_toNat, biased_toNat] <;> omega

/-- R58: the two bytes of a well-formed LUMA. -/
theorem encode_luma {dg drdg dbdg : Int} (h : (Instr.luma dg drdg dbdg).wf = true) :
    encode (.luma dg drdg dbdg) =
      [BitVec.ofInt 8 (0x80 + (dg + 32)), BitVec.ofInt 8 ((drdg + 8) * 16 + (dbdg + 8))] := by
  obtain ⟨hg, hr, hb⟩ := (wf_luma_iff dg drdg dbdg).1 h
  rw [encode, luma_byte_of_field, nibbles_byte, biased_toNat, biased_toNat, biased_toNat] <;> omega

theorem wf_diff_of_fitsDIFF {p q : Pixel} (h : fitsDIFF p q = true) :
    (Instr.diff (deltas p q).dr (deltas p q).dg (deltas p q).db).wf = true :=
  (wf_diff_iff _ _ _).2 ((fitsDIFF_iff p q).1 h).2

theorem wf_luma_of_fitsLUMA {p q : Pixel} (h : fitsLUMA p q = true) :
    (Instr.luma (deltas p q).dg (deltas p q).drdg (deltas p q).dbdg).wf = true :=
  (wf_luma_iff _ _ _).2 ((fitsLUMA_iff p q).1 h).2

/-- R64: the fit tests are the well-formedness of the chunks they choose. -/
theorem chooseChunk_wf (p q hit : Pixel) : (chooseChunk p q hit).wf = true := by
  obtain ⟨-, h⟩ | ⟨-, hfits, h⟩ | ⟨-, hfits, h⟩ | ⟨-, -, h⟩ | ⟨-, -, h⟩ := chooseChunk_cases p q hit <;> rw [h]
  · rfl
  · exact wf_diff_of_fitsDIFF hfits
  · exact wf_luma_of_fitsLUMA hfits
  · rfl
  · rfl

/-- Settles O12: the branch of `chooseChunk` that each condition takes, then the bytes of its chunk. -/
theorem chunkBytesFollowTheConditions : Obligations.ChunkBytesFollowTheConditions := by
  unfold Obligations.ChunkBytesFollowTheConditions
  intro p q hit
  refine ⟨fun h => ?index, fun h ha hd => ?diff, fun h ha hd hl => ?luma, fun h ha hd hl => ?rgb, fun h ha => ?rgba⟩
  case index => rw [chooseChunk, if_pos h, encode, index_byte]
  case diff => rw [chooseChunk, if_neg h, if_pos ha, if_pos hd, encode_diff (wf_diff_of_fitsDIFF hd)]
  case luma =>
    rw [chooseChunk, if_neg h, if_pos ha, if_neg (by simp [hd]), if_pos hl, encode_luma (wf_luma_of_fitsLUMA hl)]
  case rgb => rw [chooseChunk, if_neg h, if_pos ha, if_neg (by simp [hd]), if_neg (by simp [hl])]; rfl
  case rgba => rw [chooseChunk, if_neg h, if_neg ha]; rfl

/-- Settles O13: each branch of the choice carries the ranges of its operands. -/
theorem chosenChunkIsWellFormed : Obligations.ChosenChunkIsWellFormed := by
  unfold Obligations.ChosenChunkIsWellFormed
  exact chooseChunk_wf

end Sys2Proof.Machine
end

section
/-! PROOFS. Byte spaces: a write read back (20_memory.md R36, R38), and the canonical form (log entry 2). -/

namespace Sys2Proof.Machine

/-- Settles O44: what a read sees after a write, and the canonical form under a write. -/
theorem byteWriteIsReadBack : Obligations.ByteWriteIsReadBack := by
  unfold Obligations.ByteWriteIsReadBack
  intro m a b v
  have hread := Memory.read_write m a v
  exact ⟨by rw [hread, if_pos rfl], fun hb => by rw [hread, if_neg hb], fun hwf ha => Memory.write_wf ha hwf⟩

/-! ### Canonical cells without draws are determined by what they list -/

/-- The head of a canonical list: its bounds, its value is no 0, and its tail starts above it. -/
theorem cellsWf_cons_iff {size lo a : Nat} {v : Byte} {cs : List Host.Cell} :
    cellsWf size [] lo ((a, v) :: cs) = true ↔ (lo ≤ a ∧ a < size ∧ v ≠ 0) ∧ cellsWf size [] (a + 1) cs = true := by
  simp [cellsWf, drawAt]

/-- What a canonical list without draws lists is no 0. -/
theorem lookupCell_ne_zero {size a : Nat} :
    ∀ {cs : List Host.Cell} {lo : Nat}, cellsWf size [] lo cs = true → lookupCell cs a ≠ some 0
  | [], _, _ => by simp [lookupCell]
  | (b, w) :: cs, _, h => by
    obtain ⟨⟨-, -, hw⟩, htail⟩ := cellsWf_cons_iff.1 h
    rw [lookupCell]
    split
    · exact fun h0 => hw (Option.some.inj h0)
    · exact lookupCell_ne_zero htail

/-- Two canonical lists that list the same are the same: the smallest address listed is the head of both. -/
theorem cells_eq_of_lookup_eq {size size' : Nat} :
    ∀ {cs cs' : List Host.Cell} {lo lo' : Nat}, cellsWf size [] lo cs = true → cellsWf size' [] lo' cs' = true →
      (∀ a, lookupCell cs a = lookupCell cs' a) → cs = cs'
  | [], [], _, _, _, _, _ => rfl
  | [], (b, w) :: _, _, _, _, _, heq => by simpa [lookupCell] using heq b
  | (a, v) :: _, [], _, _, _, _, heq => by simpa [lookupCell] using heq a
  | (a, v) :: cs, (b, w) :: cs', _, _, h, h', heq => by
    obtain ⟨-, htail⟩ := cellsWf_cons_iff.1 h
    obtain ⟨-, htail'⟩ := cellsWf_cons_iff.1 h'
    have hab : a = b := by
      by_contra hne
      rcases Nat.lt_or_gt_of_ne hne with hlt | hlt
      · have hnone : lookupCell cs' a = none := cellsWf_lookup_none htail' (by omega)
        simpa [lookupCell, Ne.symm hne, hnone] using heq a
      · have hnone : lookupCell cs b = none := cellsWf_lookup_none htail (by omega)
        simpa [lookupCell, hne, hnone] using heq b
    subst hab
    have hvw : v = w := by simpa [lookupCell] using heq a
    have htails : cs = cs' := cells_eq_of_lookup_eq htail htail' fun x => by
      by_cases hx : a = x
      · subst hx
        rw [cellsWf_lookup_none htail (Nat.lt_succ_self a), cellsWf_lookup_none htail' (Nat.lt_succ_self a)]
      · simpa [lookupCell, hx] using heq x
    rw [hvw, htails]

/-- Without draws a read is the byte listed, or 0. -/
theorem Memory.read_of_drawn_nil {m : Memory} (h : m.drawn = []) (a : Nat) :
    m.read a = (lookupCell m.cells a).getD 0 := by
  unfold Memory.read Memory.unlisted
  rw [h]
  cases lookupCell m.cells a <;> rfl

/-- Two options that are not `some 0` are equal when their values with 0 for none are. -/
theorem option_eq_of_getD_zero_eq {x y : Option Byte} (hx : x ≠ some 0) (hy : y ≠ some 0)
    (h : x.getD 0 = y.getD 0) : x = y := by
  cases x with
  | none =>
    cases y with
    | none => rfl
    | some w => exact absurd (congrArg some h.symm) hy
  | some v =>
    cases y with
    | none => exact absurd (congrArg some h) hx
    | some w => exact congrArg some h

/-- Settles O45: listed bytes are not 0, so equal reads are equal listings, and equal listings of rising addresses are
equal lists. -/
theorem canonicalSpacesAreDeterminedByReads : Obligations.CanonicalSpacesAreDeterminedByReads := by
  unfold Obligations.CanonicalSpacesAreDeterminedByReads
  intro m m' hwf hwf' hsize hd hd' hread
  have hcells := (Memory.wf_iff m).1 hwf |>.1
  have hcells' := (Memory.wf_iff m').1 hwf' |>.1
  rw [hd] at hcells
  rw [hd'] at hcells'
  have hlookup (a : Nat) : lookupCell m.cells a = lookupCell m'.cells a := by
    apply option_eq_of_getD_zero_eq (lookupCell_ne_zero hcells) (lookupCell_ne_zero hcells')
    rw [← Memory.read_of_drawn_nil hd, ← Memory.read_of_drawn_nil hd', hread]
  have hlists := cells_eq_of_lookup_eq hcells hcells' hlookup
  cases m; cases m'
  rw [Memory.mk.injEq]
  exact ⟨hsize, hlists, hd.trans hd'.symm⟩

end Sys2Proof.Machine
end

section
/-! PROOFS. The moves of the host (10_state.md R13 to R19, 20_memory.md R42, R46): the register file, the accesses of
the spaces, reset, and what any of them can do, said once. -/

namespace Sys2Proof.Machine

open Sys2Proof.Claims

@[simp] theorem turnTaken_job (s : State) : (turnTaken s).job = s.job := rfl
@[simp] theorem turnTaken_doneUnread (s : State) : (turnTaken s).doneUnread = s.doneUnread := rfl

theorem spacesHeld_eq_true_iff (s : State) : s.spacesHeld = true ↔ s.status.busy = true ∨ s.doneUnread = true :=
  Bool.or_eq_true_iff

theorem spacesHeld_eq_false_iff (s : State) : s.spacesHeld = false ↔ s.status.busy = false ∧ s.doneUnread = false :=
  Bool.or_eq_false_iff

theorem resultsUnread_eq_true_iff (s : State) :
    s.resultsUnread = true ↔ s.doneUnread = true ∧ s.status.busy = false := by
  simp [State.resultsUnread]

/-! ### The register file (R14, R16) -/

/-- A register value zero-extended for the host is the same number. -/
theorem toNat_setWidth_64 {w : Nat} (hw : w ≤ 64) (x : BitVec w) : (x.setWidth 64).toNat = x.toNat := by
  rw [BitVec.toNat_setWidth]
  exact Nat.mod_eq_of_lt (x.isLt.trans_le (Nat.pow_le_pow_right (by decide) hw))

theorem toNat_setWidth_64_lt {w : Nat} (hw : w ≤ 64) (x : BitVec w) : (x.setWidth 64).toNat < 2 ^ w :=
  (toNat_setWidth_64 hw x).trans_lt x.isLt

/-- A value that fits a register comes back from it whole. -/
theorem setWidth_64_setWidth {w : Nat} (hw : w ≤ 64) {v : Word64} (h : v.toNat < 2 ^ w) :
    (v.setWidth w).setWidth 64 = v := by
  apply BitVec.eq_of_toNat_eq
  rw [toNat_setWidth_64 hw, BitVec.toNat_setWidth, Nat.mod_eq_of_lt h]

theorem regWidth_le {n w : Nat} (h : regWidth n = some w) : n ≤ 13 ∧ w ≤ 64 := by
  unfold regWidth at h
  split at h <;> cases h <;> omega

theorem regWidth_above {n : Nat} (h : 13 < n) : regWidth n = none := by
  obtain ⟨k, rfl⟩ := Nat.exists_eq_add_of_le' h
  rfl

theorem regValue_above {n : Nat} (h : 13 < n) (s : State) : regValue s n = none := by
  obtain ⟨k, rfl⟩ := Nat.exists_eq_add_of_le' h
  rfl

/-- Each of the registers 0 to 13 has a width and a value of that width. -/
theorem exists_register {n : Nat} (h : n ≤ 13) (s : State) :
    ∃ w v, regWidth n = some w ∧ regValue s n = some v ∧ v.toNat < 2 ^ w := by
  interval_cases n <;> refine ⟨_, _, rfl, rfl, ?_⟩
  any_goals exact toNat_setWidth_64_lt (by decide) _
  · decide
  all_goals exact BitVec.isLt _

/-- R14, R15: what each register number reads as. -/
theorem regValue_spec {s : State} {n : Nat} {v : Word64} (h : regValue s n = some v) :
    (n = 0 → v = 0) ∧ (n = 1 → v.toNat = s.status.word.toNat) ∧
      (n = 2 → v.toNat = s.cfg.width.toNat) ∧ (n = 3 → v.toNat = s.cfg.height.toNat) ∧
      (n = 4 → v.toNat = s.cfg.channels.toNat) ∧ (n = 5 → v.toNat = s.cfg.colorspace.toNat) ∧
      (n = 6 → v.toNat = s.cfg.reqChannels.toNat) ∧ (n = 7 → v = s.cfg.inLen) ∧
      (n = 8 → v = s.cfg.outCap) ∧ (n = 9 → v = s.res.outLen) ∧
      (n = 10 → v.toNat = s.res.width.toNat) ∧ (n = 11 → v.toNat = s.res.height.toNat) ∧
      (n = 12 → v.toNat = s.res.channels.toNat) ∧ (n = 13 → v.toNat = s.res.colorspace.toNat) := by
  refine ⟨?_, ?_, ?_, ?_, ?_, ?_, ?_, ?_, ?_, ?_, ?_, ?_, ?_, ?_⟩ <;> rintro rfl <;> cases h <;> rfl

/-- R17: a configuration register reads what was stored to it. -/
theorem regValue_store_same {s : State} {n w : Nat} {v : Word64} (h2 : 2 ≤ n) (h8 : n ≤ 8) (hw : regWidth n = some w)
    (hv : v.toNat < 2 ^ w) : regValue { s with cfg := s.cfg.store n v } n = some v := by
  interval_cases n <;> cases hw
  any_goals rfl
  all_goals exact congrArg some (setWidth_64_setWidth (by decide) hv)

/-- R17: a store leaves every other register. -/
theorem regValue_store_other {s : State} {n k : Nat} {v : Word64} (hk : k ≠ n) :
    regValue { s with cfg := s.cfg.store n v } k = regValue s k := by
  unfold ConfigRegs.store
  split <;> unfold regValue <;> split
  any_goals rfl
  all_goals exact absurd rfl hk

/-- Log entry 7: STATUS and the result registers are no place to store to. -/
theorem store_readOnly {n : Nat} (h : n = 1 ∨ 9 ≤ n) (c : ConfigRegs) (v : Word64) : c.store n v = c := by
  unfold ConfigRegs.store
  split
  any_goals omega
  rfl

theorem hostWriteReg_noRegister {n : Nat} (h : 13 < n) (v : Word64) (s : State) :
    hostWriteReg n v s = .refused .noSuchRegister := by
  rw [hostWriteReg, regWidth_above h]

theorem hostReadReg_noRegister {n : Nat} (h : 13 < n) (s : State) :
    hostReadReg n s = .refused .noSuchRegister := by
  rw [hostReadReg, regValue_above h]

/-- R42: a read of STATUS is what the host orders itself by. -/
theorem hostReadReg_status (s : State) :
    hostReadReg 1 s = .next (s.received (s.status.word.setWidth 64)).sawStatus := rfl

/-- R148: a result register reads as a free value until the end of the job is read. -/
theorem hostReadReg_unread {n w : Nat} {s : State} (hw : regWidth n = some w) (h9 : 9 ≤ n)
    (hu : s.resultsUnread = true) : hostReadReg n s = .next (s.receivedFree w) := by
  obtain ⟨-, v, -, hv, -⟩ := exists_register (regWidth_le hw).1 s
  rw [hostReadReg, hv, hw]
  dsimp only
  rw [if_neg (by omega), if_pos ⟨h9, hu⟩]; rfl

theorem hostReadReg_value {n : Nat} {v : Word64} {s : State} (hv : regValue s n = some v) (h1 : n ≠ 1)
    (hu : ¬(9 ≤ n ∧ s.resultsUnread = true)) : hostReadReg n s = .next (s.received v) := by
  rw [hostReadReg, hv]
  dsimp only
  rw [if_neg h1, if_neg hu]

/-- Settles O32: a read of STATUS, a read of a result register not yet defined, and any other read, each a state that
differs from the one before in what the host holds. -/
theorem registerReadHasNoSideEffect : Obligations.RegisterReadHasNoSideEffect := by
  unfold Obligations.RegisterReadHasNoSideEffect
  intro s n
  refine ⟨fun hturn => ⟨fun h13 => ?read, fun h => ?noRead⟩, fun v hturn h => ?noWrite⟩
  case noRead => rw [step_of_HostTurn hturn]; exact hostReadReg_noRegister h _
  case noWrite => rw [step_of_HostTurn hturn]; exact hostWriteReg_noRegister h v _
  obtain ⟨w, v, hw, hv, hfits⟩ := exists_register h13 (turnTaken s)
  have hwidth (x : Word64) (hx : x.toNat < 2 ^ w) (w' : Nat) (hw' : regWidth n = some w') : x.toNat < 2 ^ w' := by
    cases hw.symm.trans hw'; exact hx
  rw [step_of_HostTurn hturn]
  by_cases h1 : n = 1
  · subst h1
    cases hv
    exact ⟨_, hostReadReg_status _, rfl, hwidth _ hfits, fun h => absurd rfl h, fun _ => ⟨rfl, regValue_spec rfl⟩⟩
  by_cases hu : 9 ≤ n ∧ (turnTaken s).resultsUnread = true
  · have hfree := toNat_setWidth_64_lt (regWidth_le hw).2 (Config.freeBits w (turnTaken s).draws 0)
    refine ⟨_, hostReadReg_unread hw hu.1 hu.2, rfl, hwidth _ hfree, fun _ => rfl,
      fun hdefined => absurd ⟨hu.1, (resultsUnread_eq_true_iff (turnTaken s)).1 hu.2⟩ hdefined⟩
  · exact ⟨_, hostReadReg_value hv h1 hu, rfl, hwidth _ hfits, fun _ => rfl, fun _ => ⟨rfl, regValue_spec hv⟩⟩

/-- R16: STATUS is below 256, and each field stands at its place in the concatenation. -/
theorem status_word_fields : ∀ (busy done err : Bool) (code : BitVec 4),
    let word := Status.word ⟨busy, done, err, code⟩
    word.toNat < 2 ^ 8 ∧ word.getLsbD 0 = busy ∧ word.getLsbD 1 = done ∧ word.getLsbD 2 = err ∧
      word.getLsbD 3 = false ∧ word.extractLsb' 4 4 = code := by decide

/-- Settles O33: the fields, and no bit at or above a power of two that bounds the word. -/
theorem statusWordBits : Obligations.StatusWordBits := by
  unfold Obligations.StatusWordBits
  intro t
  obtain ⟨hlt, hbusy, hdone, herr, hzero, hcode⟩ := status_word_fields t.busy t.done t.err t.code
  refine ⟨hbusy, hdone, herr, hzero, hcode, fun k hk => ?_⟩
  exact Nat.testBit_lt_two_pow (hlt.trans_le (Nat.pow_le_pow_right (by decide) hk))

/-- Settles O34: the write is a store to the configuration. -/
theorem configurationIsPlainStorage : Obligations.ConfigurationIsPlainStorage := by
  unfold Obligations.ConfigurationIsPlainStorage
  intro s n w v hturn hb h2 h8 hw hv
  rw [step_of_HostTurn hturn, hostStep, hostWriteReg_idle hw hv (by simpa using hb), if_neg (by omega)]
  exact ⟨_, rfl, regValue_store_same h2 h8 hw hv, fun k hk => regValue_store_other (s := turnTaken s) hk, rfl⟩

/-- Settles O35: while BUSY every write is ignored, and else the store is to a register that takes none. -/
theorem readOnlyRegistersIgnoreWrites : Obligations.ReadOnlyRegistersIgnoreWrites := by
  unfold Obligations.ReadOnlyRegistersIgnoreWrites
  intro s n w v hturn hn hw hv
  rw [step_of_HostTurn hturn, hostStep]
  cases hb : s.status.busy with
  | true => exact hostWriteReg_busy hw hv hb
  | false => rw [hostWriteReg_idle (s := turnTaken s) hw hv hb, if_neg (by omega), store_readOnly hn]

/-- A CTRL write without START changes nothing, while BUSY or not. -/
theorem hostWriteReg_noStart {v : Word64} {s : State} (hv : v.toNat < 2 ^ 32) (hstart : ctrlStart v = false) :
    hostWriteReg 0 v s = .next s := by
  cases hb : s.status.busy with
  | true => exact hostWriteReg_busy rfl hv hb
  | false => rw [hostWriteReg_idle rfl hv hb, if_pos rfl, writeCtrl, if_neg (by simp [hstart])]

/-- Settles O37: a CTRL write looks at its value through START and MODE only. -/
theorem ctrlSeesOnlyStartAndMode : Obligations.CtrlSeesOnlyStartAndMode := by
  unfold Obligations.CtrlSeesOnlyStartAndMode
  refine ⟨fun s v mode hturn hv => ?_, fun s v v' start mode hv hv' => ?_⟩
  · obtain ⟨hwidth, hstart, -⟩ := hv
    rw [step_of_HostTurn hturn]
    exact hostWriteReg_noStart hwidth hstart
  · obtain ⟨hwidth, hstart, hmode⟩ := hv
    obtain ⟨hwidth', hstart', hmode'⟩ := hv'
    have hseen : writeCtrl v s = writeCtrl v' s := by
      unfold writeCtrl ctrlStart ctrlDecodes
      rw [hstart, hstart', hmode, hmode']
    simp only [hostStep]
    cases hb : s.status.busy with
    | true => rw [hostWriteReg_busy rfl hwidth hb, hostWriteReg_busy rfl hwidth' hb]
    | false => rw [hostWriteReg_idle rfl hwidth hb, hostWriteReg_idle rfl hwidth' hb, if_pos rfl, if_pos rfl, hseen]

/-! ### The spaces (R46, LP3 of R147) -/

/-- Settles O39: each of the three moves asks first whether the spaces are held. -/
theorem hostHasNoMemoryMoveWhileBusy : Obligations.HostHasNoMemoryMoveWhileBusy := by
  unfold Obligations.HostHasNoMemoryMoveWhileBusy
  intro s a v h
  have hheld : (turnTaken s).spacesHeld = true := (spacesHeld_eq_true_iff s).2 h
  refine ⟨fun hturn => ?_, fun hturn => ?_, fun hturn => ?_⟩ <;> rw [step_of_HostTurn hturn] <;> exact if_pos hheld

theorem hostWriteIn_free {a : Nat} {v : Byte} {s : State} (hheld : s.spacesHeld = false) (ha : a < s.inp.size) :
    hostWriteIn a v s = .next { s with inp := s.inp.write a v } := by
  rw [hostWriteIn, if_neg (by simp [hheld]), if_pos ha]

theorem hostWriteOut_free {a : Nat} {v : Byte} {s : State} (hheld : s.spacesHeld = false) (ha : a < s.out.size) :
    hostWriteOut a v s = .next { s with out := s.out.write a v } := by
  rw [hostWriteOut, if_neg (by simp [hheld]), storeOut_fits ha]; rfl

theorem hostReadOut_free {a : Nat} {s : State} (hheld : s.spacesHeld = false) (ha : a < s.out.size) :
    hostReadOut a s = .next (s.received ((s.out.read a).setWidth 64)) := by
  rw [hostReadOut, if_neg (by simp [hheld]), if_pos ha]

/-- Settles O40: the spaces are free, so each move is one write or one read of a byte. -/
theorem idleHostReachesInAndOut : Obligations.IdleHostReachesInAndOut := by
  unfold Obligations.IdleHostReachesInAndOut
  intro s a v hb hu
  have hheld : (turnTaken s).spacesHeld = false := (spacesHeld_eq_false_iff s).2 ⟨hb, hu⟩
  have hread (m : Memory) : (m.write a v).read a = v ∧ ∀ b, b ≠ a → (m.write a v).read b = m.read b :=
    ⟨by rw [Memory.read_write, if_pos rfl], fun b hne => by rw [Memory.read_write, if_neg hne]⟩
  refine ⟨fun hturn ha => ?_, fun hturn ha => ?_, fun hturn ha => ?_⟩ <;> rw [step_of_HostTurn hturn]
  · exact ⟨_, hostWriteIn_free hheld ha, (hread s.inp).1, (hread s.inp).2, rfl⟩
  · exact ⟨_, hostWriteOut_free hheld ha, (hread s.out).1, (hread s.out).2, rfl⟩
  · exact ⟨_, hostReadOut_free hheld ha, toNat_setWidth_64 (by decide) _, rfl⟩

/-! ### Reset (R144) -/

theorem cleared_word : Status.cleared.word = 0 := by decide

theorem regValue_resetBlock {s : State} {n : Nat} {v : Word64} (h : regValue (resetBlock s) n = some v) : v = 0 := by
  unfold regValue at h
  rw [resetBlock_status, cleared_word] at h
  split at h <;> cases h <;> rfl

/-- Settles O42: reset's own equations; only an abandoned job's bytes below its OUT_CAP are forgotten. -/
theorem resetPutsTheBlockInIdle : Obligations.ResetPutsTheBlockInIdle := by
  unfold Obligations.ResetPutsTheBlockInIdle
  intro s hturn
  rw [step_of_HostTurn hturn]
  refine ⟨_, rfl, rfl, cleared_word, fun n v h => regValue_resetBlock h, rfl, fun hb => ?_, fun a ha => ?_, rfl, rfl,
    rfl⟩
  · rw [resetBlock_out, if_neg (by simp [hb])]; rfl
  · rw [resetBlock_out]
    split
    · exact Memory.read_forget_outside _ _ _ _ ha
    · rfl

/-! ### What a move of the host can do -/

/-- The state `t` that a move of the host makes of `s`, where it answers a next state. -/
inductive HostEffect (s : State) : HostMove → State → Prop
  /-- A write that is ignored: while BUSY (R19), or CTRL without START (R15). -/
  | ignored (n : Nat) (v : Word64) : HostEffect s (.writeReg n v) s
  /-- A START (R15, R34). -/
  | start {v : Word64} {t : State} (hstart : ctrlStart v = true) (hidle : s.status.busy = false) (hbuf : BuffersExist s)
      (h : (if ctrlDecodes v = true then startDecode s.awaitDone else startEncode s.awaitDone) = .next t) :
      HostEffect s (.writeReg 0 v) t
  /-- A write of a register that is no command (R17). -/
  | configure (n : Nat) (v : Word64) : HostEffect s (.writeReg n v) { s with cfg := s.cfg.store n v }
  /-- A read of STATUS (R42). -/
  | readStatus (v : Word64) : HostEffect s (.readReg 1) (s.received v).sawStatus
  /-- A read of another register (R14). -/
  | readValue (n : Nat) (v : Word64) : HostEffect s (.readReg n) (s.received v)
  /-- A read of a result register that is not yet defined (R148). -/
  | readFree (n w : Nat) : HostEffect s (.readReg n) (s.receivedFree w)
  /-- A byte of IN is filled. -/
  | fill {a : Nat} {v : Byte} (hheld : s.spacesHeld = false) (ha : a < s.inp.size) :
      HostEffect s (.writeIn a v) { s with inp := s.inp.write a v }
  /-- A byte of OUT is written. -/
  | store {a : Nat} {v : Byte} (hheld : s.spacesHeld = false) (ha : a < s.out.size) :
      HostEffect s (.writeOut a v) { s with out := s.out.write a v }
  /-- A byte of OUT is read. -/
  | fetch (a : Nat) (v : Word64) : HostEffect s (.readOut a) (s.received v)
  /-- Reset (R144). -/
  | reset : HostEffect s .reset (resetBlock s)

theorem hostEffect_of_writeReg {n : Nat} {v : Word64} {s t : State} (h : hostWriteReg n v s = .next t) :
    HostEffect s (.writeReg n v) t := by
  cases hw : regWidth n with
  | none => simp [hostWriteReg, hw] at h
  | some w =>
    by_cases hv : v.toNat < 2 ^ w
    · cases hb : s.status.busy with
      | true =>
        rw [hostWriteReg_busy hw hv hb] at h
        cases h
        exact .ignored n v
      | false =>
        rw [hostWriteReg_idle hw hv hb] at h
        split at h
        · next hn =>
          subst hn
          cases hstart : ctrlStart v with
          | false =>
            rw [writeCtrl, if_neg (by simp [hstart])] at h
            cases h
            exact .ignored 0 v
          | true =>
            by_cases hbuf : BuffersExist s
            · exact .start hstart hb hbuf (writeCtrl_start_eq_next hstart h)
            · rw [writeCtrl_start_buffersMissing hstart hbuf] at h
              cases h
        · cases h
          exact .configure n v
    · simp [hostWriteReg, hw, Nat.not_lt.1 hv] at h

theorem hostEffect_of_readReg {n : Nat} {s t : State} (h : hostReadReg n s = .next t) :
    HostEffect s (.readReg n) t := by
  by_cases h13 : n ≤ 13
  · obtain ⟨w, v, hw, hv, -⟩ := exists_register h13 s
    by_cases h1 : n = 1
    · subst h1
      cases h
      exact .readStatus _
    · by_cases hu : 9 ≤ n ∧ s.resultsUnread = true
      · rw [hostReadReg_unread hw hu.1 hu.2] at h
        cases h
        exact .readFree n w
      · rw [hostReadReg_value hv h1 hu] at h
        cases h
        exact .readValue n v
  · rw [hostReadReg_noRegister (by omega)] at h
    cases h

/-- Everything a move of the host can do when it answers a next state. -/
theorem hostEffect_of_next {m : HostMove} {s t : State} (h : hostStep m s = .next t) : HostEffect s m t := by
  cases m with
  | writeReg n v => exact hostEffect_of_writeReg h
  | readReg n => exact hostEffect_of_readReg h
  | reset => cases h; exact .reset
  | writeIn a v =>
    by_cases hheld : s.spacesHeld = true
    · rw [hostStep, hostWriteIn, if_pos hheld] at h
      cases h
    · rw [hostStep, hostWriteIn, if_neg hheld] at h
      split at h <;> cases h
      exact .fill (by simpa using hheld) ‹_›
  | writeOut a v =>
    by_cases hheld : s.spacesHeld = true
    · rw [hostStep, hostWriteOut, if_pos hheld] at h
      cases h
    · rw [hostStep, hostWriteOut, if_neg hheld] at h
      obtain ⟨hfit, rfl⟩ := storeOut_eq_next.1 h
      exact .store (by simpa using hheld) hfit
  | readOut a =>
    by_cases hheld : s.spacesHeld = true
    · rw [hostStep, hostReadOut, if_pos hheld] at h
      cases h
    · rw [hostStep, hostReadOut, if_neg hheld] at h
      split at h <;> cases h
      exact .fetch a _

/-- A START makes the hand-over wait, whichever job it starts and whether or not the job begins (R42). -/
theorem start_doneUnread {v : Word64} {s t : State}
    (h : (if ctrlDecodes v = true then startDecode s.awaitDone else startEncode s.awaitDone) = .next t) :
    t.doneUnread = true := by
  split at h
  · exact startDecode_doneUnread h
  · exact startEncode_doneUnread h

/-- Settles O59: the read of DONE = 1 ends the wait; of the effects a turn can have, only a START, that read and a reset
touch the hand-over. -/
theorem handOverChangesOnlyAtOrderingPoints : Obligations.HandOverChangesOnlyAtOrderingPoints := by
  unfold Obligations.HandOverChangesOnlyAtOrderingPoints
  refine ⟨fun s hturn hb hd => ?_, fun s t h hchange => ?_⟩
  · rw [step_of_HostTurn hturn]
    have hread (v : Word64) : ((turnTaken s).received v).sawStatus.doneUnread = false := by simp [hb, hd]
    refine ⟨_, hostReadReg_status _, ?_, ?_, toNat_setWidth_64 (by decide) _, ?_⟩
    · exact (spacesHeld_eq_false_iff _).2 ⟨hb, hread _⟩
    · rw [State.resultsUnread, hread, Bool.false_and]
    · exact State.eq_of_fields rfl rfl rfl rfl rfl rfl rfl (hread _) rfl rfl rfl
  · rcases turn_cases s with hcore | ⟨m, rest, hagenda⟩
    · rw [step_of_coreTurn hcore] at h
      exact absurd (coreStep_doneUnread h) hchange
    · have hturn : HostTurn m s := ⟨rest, hagenda⟩
      rw [step_of_HostTurn hturn] at h
      cases hostEffect_of_next h with
      | start hstart hidle hbuf ht => exact .inl ⟨hidle, start_doneUnread ht, _, hturn, hstart⟩
      | readStatus v =>
        have hended : (!s.status.busy && s.status.done) = true := by
          by_contra hnot
          apply hchange
          change (s.doneUnread && !(!s.status.busy && s.status.done)) = s.doneUnread
          rw [Bool.eq_false_iff.2 hnot, Bool.not_false, Bool.and_true]
        obtain ⟨hb, hd⟩ : s.status.busy = false ∧ s.status.done = true := by simpa using hended
        exact .inr (.inl ⟨hb, hd, by simp [hb, hd], hturn⟩)
      | reset => exact .inr (.inr ⟨rfl, hturn⟩)
      | ignored | configure | readValue | readFree | fill | store | fetch => exact absurd rfl hchange

end Sys2Proof.Machine
end

section
/-! PROOFS. START (41_encoder.md R83, R84, 42_decoder.md R104, R105): the first failing check, and the job that
begins. -/

namespace Sys2Proof.Machine

open Sys2Proof.Claims

/-! ### The checks -/

/-- R83: what a configuration that passes validation says. -/
theorem encodeCheck_eq_none {c : ConfigRegs} (h : encodeCheck c = none) :
    c.width ≠ 0 ∧ c.height ≠ 0 ∧ (c.channels = 3 ∨ c.channels = 4) ∧
      c.inLen.toNat = c.width.toNat * c.height.toNat * c.channels.toNat ∧
      22 + c.width.toNat * c.height.toNat * (c.channels.toNat + 1) ≤ c.outCap.toNat := by
  unfold encodeCheck at h
  split_ifs at h with h1 h2 h3 h4
  exact ⟨fun hw => h1 (.inl hw), fun hh => h1 (.inr hh), by tauto, not_not.1 h3, Nat.not_lt.1 h4⟩

theorem encodeCheck_of_valid {c : ConfigRegs} (hw : c.width ≠ 0) (hh : c.height ≠ 0)
    (hc : c.channels = 3 ∨ c.channels = 4) (hin : c.inLen.toNat = c.width.toNat * c.height.toNat * c.channels.toNat)
    (hout : 22 + c.width.toNat * c.height.toNat * (c.channels.toNat + 1) ≤ c.outCap.toNat) : encodeCheck c = none := by
  rw [encodeCheck, if_neg (not_or.2 ⟨hw, hh⟩), if_neg (by tauto), if_neg (not_not.2 hin), if_neg (by omega)]

theorem eq_zero_iff_toNat_eq_zero {w : Nat} (x : BitVec w) : x = 0 ↔ x.toNat = 0 :=
  ⟨fun h => by simp [h], fun h => BitVec.eq_of_toNat_eq (by simpa using h)⟩

/-- R104: the decoder's checks, with the header's numbers as big-endian sums. -/
theorem decodeCheck_eq (c : ConfigRegs) (m : Memory) :
    decodeCheck c m =
      if c.inLen.toNat < 14 then some .headerTooShort
      else if ¬(m.read 0 = 0x71 ∧ m.read 1 = 0x6F ∧ m.read 2 = 0x69 ∧ m.read 3 = 0x66) then some .badMagic
      else if headerNumber m 4 = 0 ∨ headerNumber m 8 = 0 then some .invalidDimensions
      else if m.read 12 ≠ 3 ∧ m.read 12 ≠ 4 then some .invalidChannelCount
      else if c.reqChannels ≠ 3 ∧ c.reqChannels ≠ 4 then some .invalidChannelCount
      else if c.outCap.toNat < headerNumber m 4 * headerNumber m 8 * c.reqChannels.toNat then some .outputTooSmall
      else none := by
  have hmagic : ([m.read 0, m.read 1, m.read 2, m.read 3] ≠ magic) =
      ¬(m.read 0 = 0x71 ∧ m.read 1 = 0x6F ∧ m.read 2 = 0x69 ∧ m.read 3 = 0x66) := by
    simp [magic]
  have hzero : ((headerOf m).width = 0 ∨ (headerOf m).height = 0) =
      (headerNumber m 4 = 0 ∨ headerNumber m 8 = 0) := by
    rw [eq_zero_iff_toNat_eq_zero, eq_zero_iff_toNat_eq_zero, headerOf_width, headerOf_height]
  simp only [decodeCheck, headerOf_width, headerOf_height, hmagic, hzero]
  rfl

theorem decodeCheck_eq_none {c : ConfigRegs} {m : Memory} (h : decodeCheck c m = none) :
    14 ≤ c.inLen.toNat ∧ headerNumber m 4 ≠ 0 ∧ headerNumber m 8 ≠ 0 ∧ (m.read 12 = 3 ∨ m.read 12 = 4) ∧
      (c.reqChannels = 3 ∨ c.reqChannels = 4) ∧
      headerNumber m 4 * headerNumber m 8 * c.reqChannels.toNat ≤ c.outCap.toNat := by
  rw [decodeCheck_eq] at h
  split_ifs at h with h1 h2 h3 h4 h5 h6
  exact ⟨Nat.not_lt.1 h1, fun h => h3 (.inl h), fun h => h3 (.inr h), by tauto, by tauto, Nat.not_lt.1 h6⟩

/-! ### What a START that has a step does -/

theorem writeCtrl_start {v : Word64} {s : State} (hv : ctrlStart v = true) (hbuf : BuffersExist s) :
    writeCtrl v s = if ctrlDecodes v = true then startDecode s.awaitDone else startEncode s.awaitDone := by
  obtain ⟨hin, hout⟩ := hbuf
  rw [writeCtrl, if_pos hv, if_neg (by omega)]

/-- The host's START of an encode job, while no job runs. -/
theorem step_startEncode {s : State} {v : Word64} (hturn : HostTurn (.writeReg 0 v) s) (hv : CtrlWrite v true false)
    (hb : s.status.busy = false) (hbuf : BuffersExist s) : step s = startEncode (turnTaken s).awaitDone := by
  have ⟨_, hstart, hmode⟩ := hv
  rw [step_ctrlWrite_idle hturn hv hb, writeCtrl_start hstart ((buffersExist_turnTaken s).2 hbuf), ctrlDecodes, hmode,
    if_neg Bool.false_ne_true]

/-- The host's START of a decode job, while no job runs. -/
theorem step_startDecode {s : State} {v : Word64} (hturn : HostTurn (.writeReg 0 v) s) (hv : CtrlWrite v true true)
    (hb : s.status.busy = false) (hbuf : BuffersExist s) : step s = startDecode (turnTaken s).awaitDone := by
  have ⟨_, hstart, hmode⟩ := hv
  rw [step_ctrlWrite_idle hturn hv hb, writeCtrl_start hstart ((buffersExist_turnTaken s).2 hbuf), ctrlDecodes, hmode,
    if_pos rfl]

/-- R130, R131: a failed START records its code, and OUT is unchanged since no decode step raised it. -/
theorem raiseError_failsAtStart {s : State} (hphase : s.phase = .idle) (e : ErrorCode) :
    FailsAtStart s (raiseError e s.awaitDone) e.number.toNat where
  status := failed_word_toNat e
  outLen := rfl
  phase := rfl
  job := rfl
  out := raiseError_out_of_ne_decPixel (s := s.awaitDone) (by simp [hphase]) e
  frame := raiseError_coreFrame e s.awaitDone
  agenda := rfl

theorem running_word : Status.running.word = 1 := by decide

/-- R35: byte `j` of a word, most significant first. -/
theorem bytes32_getElem_toNat (w : Word32) {j : Nat} (hj : j < 4) :
    ((bytes32 w)[j]'hj).toNat = w.toNat / 256 ^ (3 - j) % 256 := by
  interval_cases j <;> simp [bytes32, BitVec.extractLsb'_toNat, Nat.shiftRight_eq_div_pow]

/-- The four parts of a header that lies at the start of a space (R49). -/
theorem holds_headerBytes {h : Header} {m : Memory} (hm : m.Holds 0 (headerBytes h)) :
    m.Holds 0 magic ∧ m.Holds 4 (bytes32 h.width) ∧ m.Holds 8 (bytes32 h.height) ∧
      m.Holds 12 [h.channels, h.colorspace] := by
  obtain ⟨hm, hlast⟩ := Memory.holds_append.1 hm
  obtain ⟨hm, hheight⟩ := Memory.holds_append.1 hm
  obtain ⟨hmagic, hwidth⟩ := Memory.holds_append.1 hm
  exact ⟨hmagic, hwidth, hheight, hlast⟩

theorem encodeStarted_out (s : State) : s.encodeStarted.out = s.out.writeBytes 0 (headerBytes
    { width := s.cfg.width, height := s.cfg.height, channels := s.cfg.channels, colorspace := s.cfg.colorspace }) := rfl

theorem encodeStarted_startsEncode (s : State) : StartsEncode s s.awaitDone.encodeStarted := by
  have hout := encodeStarted_out s.awaitDone
  obtain ⟨hmagic, hwidth, hheight, hlast⟩ := holds_headerBytes (hout ▸ Memory.holds_writeBytes _ _ _)
  exact {
    status := running_word
    inLen := rfl
    outCap := rfl
    cache := cacheRead_clearedCache
    prev := rfl
    pixPos := rfl
    res := rfl
    frame := ⟨rfl, rfl, rfl, rfl⟩
    modelSide := ⟨rfl, rfl⟩
    phase := rfl
    width := rfl
    height := rfl
    channels := rfl
    colorspace := rfl
    total := rfl
    run := rfl
    outPos := rfl
    magicBytes := ⟨hmagic 0 (by decide), hmagic 1 (by decide), hmagic 2 (by decide), hmagic 3 (by decide)⟩
    widthBytes := fun j hj => (congrArg BitVec.toNat (hwidth j hj)).trans (bytes32_getElem_toNat _ hj)
    heightBytes := fun j hj => (congrArg BitVec.toNat (hheight j hj)).trans (bytes32_getElem_toNat _ hj)
    lastBytes := ⟨hlast 0 (by simp), hlast 1 (by simp)⟩
    otherBytes := fun a ha => by rw [hout]; exact Memory.read_writeBytes_outside _ _ _ _ (.inr (by simpa using ha))
    decoderSide := ⟨rfl, rfl, rfl⟩ }

theorem decodeStarted_startsDecode (s : State) : StartsDecode s s.awaitDone.decodeStarted where
  status := running_word
  inLen := rfl
  outCap := rfl
  cache := cacheRead_clearedCache
  prev := rfl
  pixPos := rfl
  res := rfl
  frame := ⟨rfl, rfl, rfl, rfl⟩
  modelSide := ⟨rfl, rfl⟩
  phase := rfl
  width := headerOf_width s.inp
  height := headerOf_height s.inp
  channels := rfl
  colorspace := rfl
  request := rfl
  total := congrArg₂ (· * ·) (headerOf_width s.inp) (headerOf_height s.inp)
  runRem := rfl
  inPos := rfl
  out := rfl
  encoderSide := ⟨rfl, rfl⟩

/-- Settles O24: the chain of the statement is the chain of the check, each failing branch an error at START; past the
last, OUT has the 14 header bytes since OUT_CAP is at least 22. -/
theorem encodeStartValidatesThenBegins : Obligations.EncodeStartValidatesThenBegins := by
  unfold Obligations.EncodeStartValidatesThenBegins
  intro s v hturn hv hb hphase hbuf
  have hidle : (turnTaken s).phase = .idle := hphase
  have hfail {e : ErrorCode} (hc : encodeCheck s.cfg = some e) :
      startEncode (turnTaken s).awaitDone = .next (raiseError e (turnTaken s).awaitDone) := startEncode_of_error hc
  rw [step_startEncode hturn hv hb hbuf]
  split_ifs with h1 h2 h3 h4
  · exact ⟨_, hfail (by rw [encodeCheck, if_pos h1]), raiseError_failsAtStart hidle _⟩
  · exact ⟨_, hfail (by rw [encodeCheck, if_neg h1, if_pos h2]), raiseError_failsAtStart hidle _⟩
  · exact ⟨_, hfail (by rw [encodeCheck, if_neg h1, if_neg h2, if_pos h3]), raiseError_failsAtStart hidle _⟩
  · exact ⟨_, hfail (by rw [encodeCheck, if_neg h1, if_neg h2, if_neg h3, if_pos h4]), raiseError_failsAtStart hidle _⟩
  · have hnone : encodeCheck s.cfg = none := by rw [encodeCheck, if_neg h1, if_neg h2, if_neg h3, if_neg h4]
    have hroom : 14 ≤ s.out.size := by have := hbuf.2; omega
    exact ⟨_, (startEncode_valid_eq_next (s := (turnTaken s).awaitDone) hnone).2 ⟨hroom, rfl⟩,
      encodeStarted_startsEncode _⟩

/-- Settles O25: the chain of the statement is the chain of the check, each failing branch an error at START. -/
theorem decodeStartValidatesThenBegins : Obligations.DecodeStartValidatesThenBegins := by
  unfold Obligations.DecodeStartValidatesThenBegins
  intro s v hturn hv hb hphase hbuf
  have hidle : (turnTaken s).phase = .idle := hphase
  have hcheck := decodeCheck_eq s.cfg s.inp
  have hfail {e : ErrorCode} (hc : decodeCheck s.cfg s.inp = some e) :
      startDecode (turnTaken s).awaitDone = .next (raiseError e (turnTaken s).awaitDone) := startDecode_of_error hc
  rw [step_startDecode hturn hv hb hbuf]
  -- the magic test is a negation, so its failing branch comes last
  split_ifs at hcheck ⊢
  · exact ⟨_, hfail hcheck, raiseError_failsAtStart hidle _⟩
  · exact ⟨_, hfail hcheck, raiseError_failsAtStart hidle _⟩
  · exact ⟨_, hfail hcheck, raiseError_failsAtStart hidle _⟩
  · exact ⟨_, hfail hcheck, raiseError_failsAtStart hidle _⟩
  · exact ⟨_, hfail hcheck, raiseError_failsAtStart hidle _⟩
  · exact ⟨_, startDecode_valid hcheck, decodeStarted_startsDecode _⟩
  · exact ⟨_, hfail hcheck, raiseError_failsAtStart hidle _⟩

/-- Settles O43: the state after reset is idle and has the buffers of its zero configuration, so each START fails its
first check. -/
theorem jobsAfterResetRunOnZeros : Obligations.JobsAfterResetRunOnZeros := by
  unfold Obligations.JobsAfterResetRunOnZeros
  intro inSize outSize s
  have hbuf : BuffersExist s := ⟨Nat.zero_le _, Nat.zero_le _⟩
  constructor
  · exact encodeStartValidatesThenBegins { s with agenda := [.host (.writeReg 0 1)] } 1 ⟨[], rfl⟩
      ⟨by decide, by decide, by decide⟩ rfl rfl hbuf
  · exact decodeStartValidatesThenBegins { s with agenda := [.host (.writeReg 0 3)] } 3 ⟨[], rfl⟩
      ⟨by decide, by decide, by decide⟩ rfl rfl hbuf

end Sys2Proof.Machine
end

section
/-! PROOFS. What the bounds of a running job give (41_encoder.md R99, 42_decoder.md R104): every step of the core has
room in OUT, and the bounds hold again after it. -/

namespace Sys2Proof.Machine

open Sys2Proof.Claims

/-! ### Channels -/

/-- Three or four channels, as a byte and as a number. -/
theorem channels_toNat {c : Byte} (h : c = 3 ∨ c = 4) : (c = 3 ∧ c.toNat = 3) ∨ (c = 4 ∧ c.toNat = 4) :=
  h.imp (fun h => ⟨h, h ▸ rfl⟩) fun h => ⟨h, h ▸ rfl⟩

theorem pixelStride_eq {c : Byte} (h : c = 3 ∨ c = 4) : pixelStride c = c.toNat := by
  rcases h with rfl | rfl <;> rfl

theorem lanes_eq {c : Byte} (h : c = 3 ∨ c = 4) : lanes c = c.toNat := pixelStride_eq h

/-- An element below `n` of a row of `n` elements of width `c` ends within the row. -/
theorem mul_add_le_mul {k n c : Nat} (h : k < n) : k * c + c ≤ n * c := by
  rw [← Nat.succ_mul]
  exact Nat.mul_le_mul_right c h

/-- R85: a pixel is determined by the buffer's bytes. -/
theorem pixelAt_congr {m m' : Memory} {c : Byte} {k n : Nat} (hc : c = 3 ∨ c = 4) (hk : k < n)
    (h : ∀ a, a < n * c.toNat → m'.read a = m.read a) : pixelAt m' c k = pixelAt m c k := by
  have hrow := mul_add_le_mul (c := c.toNat) hk
  have hread (j : Nat) (hj : j < c.toNat) : m'.read (k * c.toNat + j) = m.read (k * c.toNat + j) := h _ (by omega)
  have hthree : 3 ≤ c.toNat := by obtain ⟨-, hn⟩ | ⟨-, hn⟩ := channels_toNat hc <;> omega
  have hread0 : m'.read (k * c.toNat) = m.read (k * c.toNat) := hread 0 (by omega)
  unfold pixelAt
  rw [hread0, hread 1 (by omega), hread 2 (by omega)]
  split
  · next hc4 => rw [hread 3 (by rw [hc4]; decide)]
  · rfl

/-! ### The bounds of a job do not see what they do not name -/

theorem EncodeOk.congr {s t : State} (h : EncodeOk s) (hjob : t.job = s.job) (hin : t.inp.size = s.inp.size)
    (hread : ∀ a, a < s.job.jInLen.toNat → t.inp.read a = s.inp.read a) (hout : t.out.size = s.out.size) :
    EncodeOk t where
  total := by rw [hjob]; exact h.total
  channels := by rw [hjob]; exact h.channels
  input := by rw [hjob, hin]; exact h.input
  capacity := by rw [hjob, hout]; exact h.capacity
  position := by rw [hjob]; exact h.position
  previous := by
    rw [hjob, h.previous]
    split
    · rfl
    · have hpos := h.position
      rw [h.input.1] at hread
      rw [pixelAt_congr h.channels (show s.job.pixPos - 1 < s.job.jN by omega) hread]
  runCap := by rw [hjob]; exact h.runCap
  lower := by rw [hjob]; exact h.lower
  upper := by rw [hjob]; exact h.upper

theorem DecodeOk.congr {s t : State} (h : DecodeOk s) (hjob : t.job = s.job) (hin : t.inp.size = s.inp.size)
    (hout : t.out.size = s.out.size) : DecodeOk t where
  total := by rw [hjob]; exact h.total
  channels := by rw [hjob]; exact h.channels
  request := by rw [hjob]; exact h.request
  input := by rw [hjob, hin]; exact h.input
  capacity := by rw [hjob, hout]; exact h.capacity
  position := by rw [hjob]; exact h.position
  runCap := by rw [hjob]; exact h.runCap

/-! ### The encoder's pixel step -/

/-- R85: at three channels the current pixel and the previous one both have alpha 255. -/
theorem EncodeOk.alphas_eq {s : State} (h : EncodeOk s) (hc : s.job.jC = 3) :
    (currentPixel s).a = 255 ∧ s.job.prev.a = 255 := by
  refine ⟨by rw [currentPixel, hc]; rfl, ?_⟩
  rw [h.previous, hc]
  split <;> rfl

/-- R99: what a pixel step writes, with the byte that a run pending after it still takes, is paid for by the pixel's
`J_C + 1` bytes and the byte of the run pending before it. -/
theorem EncodeOk.bytes_le {s : State} (h : EncodeOk s) :
    (encodeStepBytes (currentPixel s) s.job).length +
        (if 0 < (encodeStepJob (currentPixel s) s.job).run then 1 else 0) ≤
      (if 0 < s.job.run then 1 else 0) + (s.job.jC.toNat + 1) := by
  have hrunCap := h.runCap
  by_cases hp : currentPixel s = s.job.prev
  · by_cases hr : s.job.run + 1 = 62
    · rw [encodeStepBytes_run_full hp hr, encodeStepJob_run_full hp hr]
      simp only [List.length_singleton, Nat.lt_irrefl, if_false]; omega
    · rw [encodeStepBytes_run_counts hp hr, encodeStepJob_run_counts hp hr]
      simp only [List.length_nil, Nat.succ_pos, if_true]; omega
  · have hlength := encodeStepBytes_length (currentPixel s) s.job
    have hrun : (encodeStepJob (currentPixel s) s.job).run = 0 := by rw [encodeStepJob_other hp]
    rw [flushBytes_length] at hlength
    rw [hrun]
    obtain ⟨hc, hn⟩ | ⟨-, hn⟩ := channels_toNat h.channels
    · obtain ⟨hcur, hprev⟩ := h.alphas_eq hc
      rw [if_pos (hcur.trans hprev.symm)] at hlength
      simp only [Nat.lt_irrefl, if_false]; omega
    · have hchunk : (if (currentPixel s).a = s.job.prev.a then 4 else 5) ≤ 5 := by split <;> omega
      simp only [Nat.lt_irrefl, if_false]; omega

/-- R99: after a pixel step a chunk is written or a run is pending. -/
theorem encodeStep_progress (p : Pixel) (j : Job) :
    0 < (encodeStepJob p j).run ∨ 1 ≤ (encodeStepBytes p j).length := by
  by_cases hp : p = j.prev
  · by_cases hr : j.run + 1 = 62
    · rw [encodeStepBytes_run_full hp hr]; exact .inr (Nat.le_refl 1)
    · rw [encodeStepJob_run_counts hp hr]; exact .inl (Nat.succ_pos _)
  · rw [encodeStepBytes, if_neg hp, List.length_append]
    exact .inr ((encode_length_le _).1.trans (Nat.le_add_left _ _))

/-- R87: a pixel step leaves a pending run of at most 61. -/
theorem encodeStepJob_run_le {p : Pixel} {j : Job} (h : j.run ≤ 61) : (encodeStepJob p j).run ≤ 61 := by
  simp only [encodeStepJob]
  split_ifs <;> omega

theorem EncodeOk.step_upper {s : State} (h : EncodeOk s) :
    s.job.outPos + (encodeStepBytes (currentPixel s) s.job).length +
      (if 0 < (encodeStepJob (currentPixel s) s.job).run then 1 else 0) ≤
        14 + (s.job.pixPos + 1) * (s.job.jC.toNat + 1) := by
  have hupper := h.upper
  have hbytes := h.bytes_le
  rw [Nat.succ_mul]
  omega

/-- R40: a pixel step stays below the latched OUT_CAP. -/
theorem EncodeOk.step_fits {s : State} (h : EncodeOk s) (hpos : s.job.pixPos < s.job.jN) :
    s.job.outPos + (encodeStepBytes (currentPixel s) s.job).length ≤ s.job.jOutCap.toNat := by
  have hupper := h.step_upper
  have hcapacity := h.capacity.1
  have hrows := Nat.mul_le_mul_right (s.job.jC.toNat + 1) hpos
  rw [Nat.succ_eq_add_one] at hrows
  omega

theorem EncodeOk.pixelExists {s : State} (h : EncodeOk s) (hpos : s.job.pixPos < s.job.jN) :
    s.job.pixPos * s.job.jC.toNat + pixelStride s.job.jC ≤ s.inp.size := by
  have hrow := mul_add_le_mul (c := s.job.jC.toNat) hpos
  obtain ⟨hlen, hsize⟩ := h.input
  rw [pixelStride_eq h.channels]
  omega

theorem EncodeOk.encoded {s : State} (h : EncodeOk s) (hpos : s.job.pixPos < s.job.jN) :
    EncodeOk (s.encoded (currentPixel s)) where
  total := h.total
  channels := h.channels
  input := h.input
  capacity := ⟨h.capacity.1, h.capacity.2.trans_eq (Memory.writeBytes_size _ _ _).symm⟩
  position := hpos
  previous := (if_neg (Nat.succ_ne_zero _)).symm
  runCap := encodeStepJob_run_le h.runCap
  lower := by
    have hlower := h.lower.1
    have hprogress := encodeStep_progress (currentPixel s) s.job
    refine ⟨?_, fun _ => hprogress.imp_right fun hbytes => ?_⟩ <;>
      simp only [State.encoded, encodeStepJob] <;> omega
  upper := h.step_upper

/-! ### The encoder's tail step -/

/-- R99: the tail step stays below the latched OUT_CAP. -/
theorem EncodeOk.tail_fits {s : State} (h : EncodeOk s) (hpos : s.job.pixPos = s.job.jN) :
    s.job.outPos + (flushBytes s.job.run ++ endMarker).length ≤ 22 + s.job.jN * (s.job.jC.toNat + 1) := by
  have hupper := h.upper
  rw [hpos] at hupper
  rw [List.length_append, flushBytes_length, endMarker_length]
  omega

/-- R99: with a pixel at least, header, chunks and end marker are 23 bytes or more. -/
theorem EncodeOk.tail_lower {s : State} (h : EncodeOk s) (hpos : s.job.pixPos = s.job.jN) :
    23 ≤ s.job.outPos + (flushBytes s.job.run ++ endMarker).length := by
  obtain ⟨hheader, hbyte⟩ := h.lower
  have hpixels : 0 < s.job.pixPos := by rw [hpos]; exact h.total.2
  rw [List.length_append, flushBytes_length, endMarker_length]
  rcases hbyte hpixels with hrun | hout
  · rw [if_pos hrun]; omega
  · omega

/-! ### The decoder's step -/

theorem DecodeOk.step_fits {s : State} (h : DecodeOk s) : pixelAddress s + lanes s.job.jReq ≤ s.job.jOutCap.toNat := by
  rw [lanes_eq h.request]
  exact (mul_add_le_mul h.position).trans h.capacity.1

theorem DecodeOk.hasRoom {s : State} (h : DecodeOk s) : HasRoom s := h.step_fits.trans h.capacity.2

theorem DecodeOk.produced {s : State} (h : DecodeOk s) {px : Pixel} {used owed : Nat} (howed : owed ≤ 61)
    (hused : s.job.inPos + used ≤ s.job.jInLen.toNat) (hlast : s.job.pixPos + 1 ≠ s.job.jN) :
    DecodeOk (s.produced px used owed) := by
  have hjob := produced_job s px used owed
  obtain ⟨h14, -, hin⟩ := h.input
  have hpos := h.position
  exact {
    total := by rw [hjob]; exact h.total
    channels := by rw [hjob]; exact h.channels
    request := by rw [hjob]; exact h.request
    input := by
      rw [hjob, show (s.produced px used owed).inp = s.inp by simp [State.produced]]
      exact ⟨h14.trans (Nat.le_add_right _ _), hused, hin⟩
    capacity := by rw [hjob, produced_out, Memory.writeBytes_size]; exact h.capacity
    position := by rw [hjob]; exact Nat.lt_of_le_of_ne hpos hlast
    runCap := by rw [hjob]; exact howed }

end Sys2Proof.Machine
end

section
/-! PROOFS. The invariant of the machine (10_state.md R16, R21, R81): the five things a turn of the core can do under
it, and that every turn of core or host keeps it. -/

namespace Sys2Proof.Machine

open Sys2Proof.Claims

/-! ### The core's turn under the invariant -/

/-- The state that a turn of the core makes of `s`, with the bounds that hold of a running job. -/
inductive CoreEffect (s : State) : State → Prop
  /-- No job runs (R142). -/
  | rests (hphase : s.phase = .idle) : CoreEffect s (turnTaken s)
  /-- An encode job consumes a pixel (R86). -/
  | pixel (hphase : s.phase = .encPixel) (hok : EncodeOk s) (hpos : s.job.pixPos < s.job.jN) :
      CoreEffect s ((turnTaken s).encoded (currentPixel s))
  /-- An encode job ends (R98). -/
  | tail (hphase : s.phase = .encTail) (hok : EncodeOk s) (hpos : s.job.pixPos = s.job.jN) :
      CoreEffect s (turnTaken s).ended
  /-- A decode job ends for want of bytes (R107). -/
  | cut (hphase : s.phase = .decPixel) (hok : DecodeOk s) (hnone : decodedPixel s = none) :
      CoreEffect s (raiseError .unexpectedEndOfStream (turnTaken s))
  /-- A decode job produces a pixel (R116). -/
  | produces (hphase : s.phase = .decPixel) (hok : DecodeOk s) {px : Pixel} {used owed : Nat}
      (hsome : decodedPixel s = some (px, used, owed)) : CoreEffect s ((turnTaken s).produced px used owed)

theorem coreStep_idle {s : State} (h : s.phase = .idle) : coreStep s = .next s := by simp only [coreStep, h]

theorem coreStep_encTail {s : State} (h : s.phase = .encTail) : coreStep s = encTailStep s := by
  simp only [coreStep, h]

theorem DecodeOk.turnTaken {s : State} (h : DecodeOk s) : DecodeOk (turnTaken s) := h.congr rfl rfl rfl

/-- A pixel step of an encode job within its bounds goes on. -/
theorem step_encPixel {s : State} (hturn : CoreTurn s) (hphase : s.phase = .encPixel) (hok : EncodeOk s)
    (hpos : s.job.pixPos < s.job.jN) : step s = .next ((turnTaken s).encoded (currentPixel s)) := by
  have hfits := (hok.step_fits hpos).trans hok.capacity.2
  rw [step_of_coreTurn hturn]
  exact (coreStep_encPixel (s := turnTaken s) hphase).trans (encPixelStep_fits hphase (hok.pixelExists hpos) hfits)

/-- A tail step with room for its bytes ends the job. -/
theorem step_encTail {s : State} (hturn : CoreTurn s) (hphase : s.phase = .encTail)
    (hroom : s.job.outPos + (flushBytes s.job.run ++ endMarker).length ≤ s.out.size) :
    step s = .next (turnTaken s).ended := by
  rw [List.length_append, endMarker_length, ← Nat.add_assoc] at hroom
  rw [step_of_coreTurn hturn]
  exact (coreStep_encTail (s := turnTaken s) hphase).trans (encTailStep_fits hroom)

theorem EncodeOk.tail_room {s : State} (h : EncodeOk s) (hpos : s.job.pixPos = s.job.jN) :
    s.job.outPos + (flushBytes s.job.run ++ endMarker).length ≤ s.out.size :=
  (h.tail_fits hpos).trans (h.capacity.1.trans h.capacity.2)

/-- A decode step whose stream lies in IN is the end of the stream or a produced pixel. -/
theorem step_decPixel {s : State} (hturn : CoreTurn s) (hphase : s.phase = .decPixel)
    (hpos : s.job.inPos ≤ s.job.jInLen.toNat) (hin : s.job.jInLen.toNat ≤ s.inp.size) :
    step s =
      match decodedPixel s with
      | none => .next (raiseError .unexpectedEndOfStream (turnTaken s))
      | some (px, used, owed) => produce px (((turnTaken s).advanceIn used).setRunRem owed) := by
  rw [step_of_coreTurn hturn]
  exact (coreStep_decPixel (s := turnTaken s) hphase).trans (decPixelStep_eq hpos hin)

theorem step_decPixel_none {s : State} (hturn : CoreTurn s) (hphase : s.phase = .decPixel)
    (hpos : s.job.inPos ≤ s.job.jInLen.toNat) (hin : s.job.jInLen.toNat ≤ s.inp.size) (hnone : decodedPixel s = none) :
    step s = .next (raiseError .unexpectedEndOfStream (turnTaken s)) := by
  rw [step_decPixel hturn hphase hpos hin, hnone]

theorem produce_room {s : State} (hroom : HasRoom s) (px : Pixel) (used owed : Nat) :
    produce px ((s.advanceIn used).setRunRem owed) = .next (s.produced px used owed) :=
  produce_fits (by rw [pixelBytes_length]; exact hroom)

theorem step_decPixel_some {s : State} (hturn : CoreTurn s) (hphase : s.phase = .decPixel) (hok : DecodeOk s)
    {px : Pixel} {used owed : Nat} (hsome : decodedPixel s = some (px, used, owed)) :
    step s = .next ((turnTaken s).produced px used owed) := by
  rw [step_decPixel hturn hphase hok.input.2.1 hok.input.2.2, hsome]
  exact produce_room hok.turnTaken.hasRoom px used owed

/-- R143 (c): under the invariant the core's turn always answers a next state, in one of the five ways. -/
theorem coreEffect_of_inv {s : State} (hinv : MachineInv s) (hturn : CoreTurn s) :
    ∃ t, step s = .next t ∧ CoreEffect s t := by
  cases hphase : s.phase with
  | idle =>
    refine ⟨_, ?_, .rests hphase⟩
    rw [step_of_coreTurn hturn]
    exact coreStep_idle (s := turnTaken s) hphase
  | encPixel =>
    obtain ⟨hok, hpos⟩ := hinv.encPixel hphase
    exact ⟨_, step_encPixel hturn hphase hok hpos, .pixel hphase hok hpos⟩
  | encTail =>
    obtain ⟨hok, hpos⟩ := hinv.encTail hphase
    exact ⟨_, step_encTail hturn hphase (hok.tail_room hpos), .tail hphase hok hpos⟩
  | decPixel =>
    have hok := hinv.decPixel hphase
    cases hd : decodedPixel s with
    | none => exact ⟨_, step_decPixel_none hturn hphase hok.input.2.1 hok.input.2.2 hd, .cut hphase hok hd⟩
    | some x => exact ⟨_, step_decPixel_some hturn hphase hok hd, .produces hphase hok hd⟩

theorem coreEffect_of_step {s t : State} (hinv : MachineInv s) (hturn : CoreTurn s) (h : step s = .next t) :
    CoreEffect s t := by
  obtain ⟨u, hu, heffect⟩ := coreEffect_of_inv hinv hturn
  cases hu.symm.trans h
  exact heffect

/-- Settles O41: the core does nothing in IDLE. -/
theorem idleCoreTakesNoStep : Obligations.IdleCoreTakesNoStep := by
  unfold Obligations.IdleCoreTakesNoStep
  intro s hturn hphase
  rw [step_of_coreTurn hturn]
  exact coreStep_idle (s := turnTaken s) hphase

/-- Settles O48: the core's turn has one of its five effects. -/
theorem coreStepIsAlwaysEnabled : Obligations.CoreStepIsAlwaysEnabled := by
  unfold Obligations.CoreStepIsAlwaysEnabled
  intro s hinv hturn
  obtain ⟨t, ht, -⟩ := coreEffect_of_inv hinv hturn
  exact ⟨t, ht⟩

/-! ### States that meet the invariant -/

/-- The invariant does not see the configuration, the results, or the model's own fields. -/
theorem MachineInv.congr {s t : State} (h : MachineInv s) (hphase : t.phase = s.phase) (hstatus : t.status = s.status)
    (hjob : t.job = s.job) (hinp : t.inp = s.inp) (hout : t.out = s.out) (hunread : t.doneUnread = s.doneUnread) :
    MachineInv t := by
  have henc (hok : EncodeOk s) : EncodeOk t :=
    hok.congr hjob (by rw [hinp]) (fun _ _ => by rw [hinp]) (by rw [hout])
  exact {
    inpWf := by rw [hinp]; exact h.inpWf
    outWf := by rw [hout]; exact h.outWf
    status := by rw [hstatus]; exact h.status
    busy := by rw [hstatus, hphase]; exact h.busy
    unread := by rw [hstatus, hunread]; exact h.unread
    cache := by rw [hphase, hjob]; exact h.cache
    encPixel := by rw [hphase, hjob]; exact fun hp => (h.encPixel hp).imp_left henc
    encTail := by rw [hphase, hjob]; exact fun hp => (h.encTail hp).imp_left henc
    decPixel := by rw [hphase]; exact fun hp => (h.decPixel hp).congr hjob (by rw [hinp]) (by rw [hout]) }

theorem MachineInv.turnTaken {s : State} (h : MachineInv s) : MachineInv (turnTaken s) :=
  h.congr rfl rfl rfl rfl rfl rfl

/-- While no job runs, the invariant is about the spaces, STATUS and the hand-over alone. -/
theorem machineInv_of_idle {t : State} (hinp : t.inp.wf = true) (hout : t.out.wf = true) (hphase : t.phase = .idle)
    (hlegal : t.status.legal = true) (hbusy : t.status.busy = false)
    (hunread : t.doneUnread = true → t.status.done = true) : MachineInv t where
  inpWf := hinp
  outWf := hout
  status := hlegal
  busy := by simp [hphase, hbusy]
  unread := ⟨fun h => by simp [hbusy] at h, fun h => .inr (hunread h)⟩
  cache h := absurd hphase h
  encPixel h := by simp [hphase] at h
  encTail h := by simp [hphase] at h
  decPixel h := by simp [hphase] at h

theorem running_legal : Status.running.legal = true := by decide
theorem succeeded_legal : Status.succeeded.legal = true := by decide
theorem failed_legal (e : ErrorCode) : (Status.failed e).legal = true := by cases e <;> decide

/-- A running job meets the invariant where its bounds hold. -/
theorem machineInv_of_running {t : State} (hinp : t.inp.wf = true) (hout : t.out.wf = true) (hphase : t.phase ≠ .idle)
    (hstatus : t.status = Status.running) (hunread : t.doneUnread = true) (hcache : CacheHashed t.job.cache)
    (hencPixel : t.phase = .encPixel → EncodeOk t ∧ t.job.pixPos < t.job.jN)
    (hencTail : t.phase = .encTail → EncodeOk t ∧ t.job.pixPos = t.job.jN)
    (hdecPixel : t.phase = .decPixel → DecodeOk t) : MachineInv t where
  inpWf := hinp
  outWf := hout
  status := by rw [hstatus]; exact running_legal
  busy := by simp [hstatus, Status.running, hphase]
  unread := ⟨fun _ => hunread, fun _ => .inl (by rw [hstatus]; rfl)⟩
  cache _ := hcache
  encPixel := hencPixel
  encTail := hencTail
  decPixel := hdecPixel

theorem MachineInv.busy_of_running {s : State} (h : MachineInv s) (hphase : s.phase ≠ .idle) : s.status.busy = true :=
  h.busy.2 hphase

theorem MachineInv.idle_of_not_busy {s : State} (h : MachineInv s) (hb : s.status.busy = false) : s.phase = .idle := by
  by_contra hphase
  rw [h.busy_of_running hphase] at hb
  cases hb

/-- R16: BUSY stands alone. -/
theorem MachineInv.status_of_running {s : State} (h : MachineInv s) (hphase : s.phase ≠ .idle) :
    s.status = Status.running := by
  have hb := h.busy_of_running hphase
  have hlegal := h.status
  simp only [Status.legal, Bool.or_eq_true, decide_eq_true_eq, hb, Bool.not_true, Bool.false_and,
    Bool.false_eq_true, or_false] at hlegal
  obtain (hs | hs) | hs := hlegal
  · rw [hs] at hb; cases hb
  · exact hs
  · rw [hs] at hb; cases hb

theorem MachineInv.unread_of_running {s : State} (h : MachineInv s) (hphase : s.phase ≠ .idle) : s.doneUnread = true :=
  h.unread.1 (h.busy_of_running hphase)

/-- Settles O46: no job runs, and the spaces list nothing. -/
theorem invariantHoldsAfterReset : Obligations.InvariantHoldsAfterReset := by
  unfold Obligations.InvariantHoldsAfterReset
  exact fun inSize outSize => machineInv_of_idle rfl rfl rfl rfl rfl (fun h => nomatch h)

/-! ### The core keeps the invariant -/

theorem encoded_keeps_inv {s : State} (hinv : MachineInv s) (hphase : s.phase = .encPixel) :
    MachineInv (s.encoded (currentPixel s)) := by
  have hrunning : s.phase ≠ .idle := by simp [hphase]
  obtain ⟨hok, hpos⟩ := hinv.encPixel hphase
  have hfits := (hok.step_fits hpos).trans hok.capacity.2
  have hnext : (s.encoded (currentPixel s)).phase = if s.job.pixPos + 1 = s.job.jN then .encTail else .encPixel := rfl
  apply machineInv_of_running (t := s.encoded _) hinv.inpWf (Memory.writeBytes_wf hfits hinv.outWf)
  · rw [hnext]; split <;> simp
  · exact hinv.status_of_running hrunning
  · exact hinv.unread_of_running hrunning
  · have hcache := hinv.cache hrunning
    simp only [State.encoded, encodeStepJob]
    split
    · exact hcache
    · exact hcache.store _
  · refine fun h => ⟨hok.encoded hpos, Nat.lt_of_le_of_ne hpos fun hlast => ?_⟩
    rw [hnext, if_pos (show s.job.pixPos + 1 = s.job.jN from hlast)] at h
    cases h
  · refine fun h => ⟨hok.encoded hpos, by_contra fun hlast => ?_⟩
    rw [hnext, if_neg (show ¬s.job.pixPos + 1 = s.job.jN from hlast)] at h
    cases h
  · intro h
    rw [hnext] at h
    split at h <;> cases h

theorem ended_out (s : State) : s.ended.out = s.out.writeBytes s.job.outPos (flushBytes s.job.run ++ endMarker) := rfl

theorem ended_keeps_inv {s : State} (hinv : MachineInv s) (hphase : s.phase = .encTail) : MachineInv s.ended := by
  obtain ⟨hok, hpos⟩ := hinv.encTail hphase
  exact machineInv_of_idle hinv.inpWf (Memory.writeBytes_wf (hok.tail_room hpos) hinv.outWf) rfl succeeded_legal rfl
    (fun _ => rfl)

/-- An error ends the job in IDLE, whatever it left of OUT. -/
theorem raiseError_keeps_inv {s : State} (hinp : s.inp.wf = true) (hout : s.out.wf = true) (e : ErrorCode) :
    MachineInv (raiseError e s) := by
  refine machineInv_of_idle hinp ?_ rfl (failed_legal e) rfl (fun _ => rfl)
  rw [raiseError_out]
  split
  · exact Memory.forget_wf hout
  · exact hout

theorem produced_keeps_inv {s : State} (hinv : MachineInv s) (hphase : s.phase = .decPixel) {px : Pixel}
    {used owed : Nat} (hsome : decodedPixel s = some (px, used, owed)) : MachineInv (s.produced px used owed) := by
  have hrunning : s.phase ≠ .idle := by simp [hphase]
  have hok := hinv.decPixel hphase
  obtain ⟨howed, hused⟩ := decodedPixel_range hsome hok.input.2.1 hok.runCap
  have hproduces := produced_produces s px used owed
  have hinp : (s.produced px used owed).inp.wf = true := by rw [hproduces.frame.inp]; exact hinv.inpWf
  have hout : (s.produced px used owed).out.wf = true := by
    rw [produced_out]
    exact Memory.writeBytes_wf (by rw [pixelBytes_length]; exact hok.hasRoom) hinv.outWf
  by_cases hlast : s.job.pixPos + 1 = s.job.jN
  · rw [produced_last hlast] at hinp hout ⊢
    exact machineInv_of_idle hinp hout rfl succeeded_legal rfl (fun _ => rfl)
  · obtain ⟨-, hstatus, hphase'⟩ := hproduces.notLast hlast
    have hdec : (s.produced px used owed).phase = .decPixel := hphase'.trans hphase
    apply machineInv_of_running hinp hout
    · simp [hdec]
    · rw [hstatus]; exact hinv.status_of_running hrunning
    · rw [hproduces.frame.doneUnread]; exact hinv.unread_of_running hrunning
    · rw [produced_job]; exact (hinv.cache hrunning).store px
    · simp [hdec]
    · simp [hdec]
    · exact fun _ => hok.produced howed hused hlast

theorem coreEffect_keeps_inv {s t : State} (hinv : MachineInv s) (h : CoreEffect s t) : MachineInv t := by
  have hinv' := hinv.turnTaken
  cases h with
  | rests => exact hinv'
  | pixel hphase => exact encoded_keeps_inv hinv' hphase
  | tail hphase => exact ended_keeps_inv hinv' hphase
  | cut => exact raiseError_keeps_inv hinv'.inpWf hinv'.outWf _
  | produces hphase _ hsome => exact produced_keeps_inv hinv' hphase hsome

/-! ### The host keeps the invariant -/

/-- R84: the bounds of an encode job hold when it begins. -/
theorem encodeStarted_ok {s : State} (hcheck : encodeCheck s.cfg = none) (hbuf : BuffersExist s) :
    EncodeOk s.encodeStarted := by
  obtain ⟨hw, hh, hc, hin, hout⟩ := encodeCheck_eq_none hcheck
  rw [Ne, eq_zero_iff_toNat_eq_zero] at hw hh
  exact {
    total := ⟨rfl, Nat.mul_pos (Nat.pos_of_ne_zero hw) (Nat.pos_of_ne_zero hh)⟩
    channels := hc
    input := ⟨hin, hbuf.1⟩
    capacity := ⟨hout, hbuf.2.trans_eq (Memory.writeBytes_size _ _ _).symm⟩
    position := Nat.zero_le _
    previous := rfl
    runCap := Nat.zero_le _
    lower := ⟨Nat.le_refl 14, fun h => absurd h (Nat.lt_irrefl 0)⟩
    upper := Nat.le_add_right 14 _ }

/-- R105: the bounds of a decode job hold when it begins. -/
theorem decodeStarted_ok {s : State} (hcheck : decodeCheck s.cfg s.inp = none) (hbuf : BuffersExist s) :
    DecodeOk s.decodeStarted := by
  obtain ⟨hin, hw, hh, hc, hreq, hout⟩ := decodeCheck_eq_none hcheck
  rw [← headerOf_width] at hw hout
  rw [← headerOf_height] at hh hout
  exact {
    total := rfl
    channels := hc
    request := hreq
    input := ⟨Nat.le_refl 14, hin, hbuf.1⟩
    capacity := ⟨hout, hbuf.2⟩
    position := Nat.mul_pos (Nat.pos_of_ne_zero hw) (Nat.pos_of_ne_zero hh)
    runCap := Nat.zero_le _ }

theorem startEncode_keeps_inv {s t : State} (hinp : s.inp.wf = true) (hout : s.out.wf = true) (hbuf : BuffersExist s)
    (hunread : s.doneUnread = true) (h : startEncode s = .next t) : MachineInv t := by
  cases hcheck : encodeCheck s.cfg with
  | some e =>
    rw [startEncode_of_error hcheck] at h
    cases h
    exact raiseError_keeps_inv hinp hout e
  | none =>
    obtain ⟨hroom, rfl⟩ := (startEncode_valid_eq_next hcheck).1 h
    have hok := encodeStarted_ok hcheck hbuf
    exact machineInv_of_running hinp (Memory.writeBytes_wf hroom hout) (by simp [State.encodeStarted]) rfl hunread
      CacheHashed_clearedCache (fun _ => ⟨hok, hok.total.2⟩) (fun h => nomatch h) (fun h => nomatch h)

theorem startDecode_keeps_inv {s t : State} (hinp : s.inp.wf = true) (hout : s.out.wf = true) (hbuf : BuffersExist s)
    (hunread : s.doneUnread = true) (h : startDecode s = .next t) : MachineInv t := by
  cases hcheck : decodeCheck s.cfg s.inp with
  | some e =>
    rw [startDecode_of_error hcheck] at h
    cases h
    exact raiseError_keeps_inv hinp hout e
  | none =>
    rw [startDecode_valid hcheck] at h
    cases h
    exact machineInv_of_running hinp hout (by simp [State.decodeStarted]) rfl hunread CacheHashed_clearedCache
      (fun h => nomatch h) (fun h => nomatch h) (fun _ => decodeStarted_ok hcheck hbuf)

/-- R42: a read of STATUS ends the wait only where no job runs. -/
theorem sawStatus_keeps_inv {s : State} (hinv : MachineInv s) : MachineInv s.sawStatus := by
  cases hb : s.status.busy with
  | true => exact hinv.congr rfl rfl rfl rfl rfl (by simp [hb])
  | false =>
    refine machineInv_of_idle hinv.inpWf hinv.outWf (hinv.idle_of_not_busy hb) hinv.status hb fun h => ?_
    have hbefore : s.doneUnread = true := by
      rw [State.sawStatus_doneUnread, Bool.and_eq_true] at h
      exact h.1
    exact (hinv.unread.2 hbefore).resolve_left (by simp [hb])

/-- A host that may touch the spaces finds no job running, so a byte written keeps the invariant where its space keeps
the canonical form. -/
theorem hostWrite_keeps_inv {s : State} {inp out : Memory} (hinv : MachineInv s) (hheld : s.spacesHeld = false)
    (hinp : inp.wf = true) (hout : out.wf = true) : MachineInv { s with inp := inp, out := out } := by
  obtain ⟨hb, hu⟩ := (spacesHeld_eq_false_iff s).1 hheld
  exact machineInv_of_idle hinp hout (hinv.idle_of_not_busy hb) hinv.status hb fun h => by simp [hu] at h

theorem resetBlock_keeps_inv {s : State} (hinv : MachineInv s) : MachineInv (resetBlock s) := by
  refine machineInv_of_idle hinv.inpWf ?_ rfl rfl rfl (fun h => nomatch h)
  rw [resetBlock_out]
  split
  · exact Memory.forget_wf hinv.outWf
  · exact hinv.outWf

theorem hostEffect_keeps_inv {m : HostMove} {s t : State} (hinv : MachineInv s) (h : HostEffect s m t) :
    MachineInv t := by
  cases h with
  | ignored => exact hinv
  | start hstart hidle hbuf ht =>
    split at ht
    · exact startDecode_keeps_inv (s := s.awaitDone) hinv.inpWf hinv.outWf hbuf rfl ht
    · exact startEncode_keeps_inv (s := s.awaitDone) hinv.inpWf hinv.outWf hbuf rfl ht
  | configure | readValue | readFree | fetch => exact hinv.congr rfl rfl rfl rfl rfl rfl
  | readStatus v => exact sawStatus_keeps_inv (s := s.received v) (hinv.congr rfl rfl rfl rfl rfl rfl)
  | fill hheld ha => exact hostWrite_keeps_inv hinv hheld (Memory.write_wf ha hinv.inpWf) hinv.outWf
  | store hheld ha => exact hostWrite_keeps_inv hinv hheld hinv.inpWf (Memory.write_wf ha hinv.outWf)
  | reset => exact resetBlock_keeps_inv hinv

/-- Every turn of core or host keeps the invariant. -/
theorem MachineInv.step {s t : State} (hinv : MachineInv s) (h : Machine.step s = .next t) : MachineInv t := by
  rcases turn_cases s with hcore | ⟨m, rest, hagenda⟩
  · exact coreEffect_keeps_inv hinv (coreEffect_of_step hinv hcore h)
  · rw [step_of_HostTurn ⟨rest, hagenda⟩] at h
    exact hostEffect_keeps_inv hinv.turnTaken (hostEffect_of_next h)

/-- Settles O47: the five effects of a turn of the core and the ten of a move of the host, each with its own lemma. -/
theorem everyStepKeepsTheInvariant : Obligations.EveryStepKeepsTheInvariant := by
  unfold Obligations.EveryStepKeepsTheInvariant
  exact fun s t hinv h => hinv.step h

/-! ### What a turn of the core leaves -/

theorem sameParameters_refl (j : Job) : SameParameters j j := ⟨rfl, rfl, rfl, rfl, rfl, rfl, rfl, rfl⟩

/-- Settles O49: an encode step writes from `out_pos` on and a decode step one pixel, both within the bounds of the job;
the end of the stream forgets bytes below OUT_CAP only. -/
theorem coreStaysInsideItsBuffers : Obligations.CoreStaysInsideItsBuffers := by
  unfold Obligations.CoreStaysInsideItsBuffers
  intro s t hinv hturn h
  have hwrite {p : Nat} {bs : List Byte} {a : Nat} (hrunning : s.phase ≠ .idle)
      (hfits : p + bs.length ≤ s.job.jOutCap.toNat) (ha : s.phase = .idle ∨ s.job.jOutCap.toNat ≤ a) :
      (s.out.writeBytes p bs).read a = s.out.read a :=
    Memory.read_writeBytes_outside _ _ _ _ (.inr (hfits.trans (ha.resolve_left hrunning)))
  cases coreEffect_of_step hinv hturn h with
  | rests => exact ⟨⟨rfl, rfl, rfl, rfl⟩, sameParameters_refl _, rfl, fun _ _ => rfl⟩
  | pixel hphase hok hpos =>
    exact ⟨⟨rfl, rfl, rfl, rfl⟩, ⟨rfl, rfl, rfl, rfl, rfl, rfl, rfl, rfl⟩, Memory.writeBytes_size _ _ _,
      fun a => hwrite (by simp [hphase]) (hok.step_fits hpos)⟩
  | tail hphase hok hpos =>
    exact ⟨⟨rfl, rfl, rfl, rfl⟩, ⟨rfl, rfl, rfl, rfl, rfl, rfl, rfl, rfl⟩, Memory.writeBytes_size _ _ _,
      fun a => hwrite (by simp [hphase]) ((hok.tail_fits hpos).trans hok.capacity.1)⟩
  | cut hphase =>
    have hcut := raiseError_truncates (turnTaken s)
    exact ⟨⟨rfl, rfl, rfl, rfl⟩, sameParameters_refl _, hcut.outSize,
      fun a ha => hcut.outAbove a (ha.resolve_left (by simp [hphase]))⟩
  | @produces hphase hok px used owed hsome =>
    have hproduces := produced_produces (turnTaken s) px used owed
    obtain ⟨hcfg, hinp, hread, hunread⟩ := hproduces.frame
    refine ⟨⟨hcfg, hinp, hread, hunread⟩, hproduces.parameters, hproduces.outSize, fun a ha => ?_⟩
    exact hproduces.otherBytes a (.inr (hok.step_fits.trans (ha.resolve_left (by simp [hphase]))))

/-- Settles O50: of the effects of a turn, only a START, a reset and the three ends of a job touch STATUS or a
result. -/
theorem statusAndResultsChangeOnlyAtJobEdges : Obligations.StatusAndResultsChangeOnlyAtJobEdges := by
  unfold Obligations.StatusAndResultsChangeOnlyAtJobEdges
  intro s t hinv h hchange
  have hsame : ¬(t.status = s.status ∧ t.res = s.res) := not_and_or.2 hchange
  rcases turn_cases s with hcore | ⟨m, rest, hagenda⟩
  · cases coreEffect_of_step hinv hcore h with
    | rests => exact absurd ⟨rfl, rfl⟩ hsame
    | pixel => exact absurd ⟨rfl, rfl⟩ hsame
    | tail hphase => exact .inr (.inr ⟨hcore, by simp [hphase], rfl⟩)
    | cut hphase => exact .inr (.inr ⟨hcore, by simp [hphase], rfl⟩)
    | @produces hphase hok px used owed hsome =>
      have hproduces := produced_produces (turnTaken s) px used owed
      by_cases hlast : s.job.pixPos + 1 = s.job.jN
      · obtain ⟨-, -, -, -, -, -, hidle⟩ := hproduces.last hlast
        exact .inr (.inr ⟨hcore, by simp [hphase], hidle⟩)
      · obtain ⟨hres, hstatus, -⟩ := hproduces.notLast hlast
        exact absurd ⟨hstatus, hres⟩ hsame
  · have hturn : HostTurn m s := ⟨rest, hagenda⟩
    rw [step_of_HostTurn hturn] at h
    cases hostEffect_of_next h with
    | start hstart hidle => exact .inl ⟨hinv.idle_of_not_busy hidle, _, hturn, hstart⟩
    | reset => exact .inr (.inl hturn)
    | ignored | configure | readStatus | readValue | readFree | fill | store | fetch => exact absurd ⟨rfl, rfl⟩ hsame

end Sys2Proof.Machine
end

section
/-! PROOFS. The encode job's own statements (41_encoder.md R98 to R102): the tail step, the length reported, three
channels, and what a step sees of IN. -/

namespace Sys2Proof.Machine

open Sys2Proof.Claims

/-! ### The tail step -/

theorem ended_job (s : State) :
    s.ended.job =
      { s.job with run := 0, outPos := s.job.outPos + (flushBytes s.job.run ++ endMarker).length } := rfl

theorem ended_outLen (s : State) :
    s.ended.res.outLen = BitVec.ofNat 64 (s.job.outPos + (flushBytes s.job.run ++ endMarker).length) := rfl

/-- Settles O29: the bytes of the tail are the flush and the end marker, and the step reports where they end. -/
theorem tailStepEndsTheJob : Obligations.TailStepEndsTheJob := by
  unfold Obligations.TailStepEndsTheJob
  intro s hturn hphase hrun hroom
  rw [← flushBytes_eq_flushed hrun] at hroom ⊢
  exact ⟨_, step_encTail hturn hphase hroom, emits_of_out_eq_writeBytes (ended_out _), ended_outLen _, succeeded_word,
    rfl, ⟨rfl, rfl, rfl, rfl⟩, rfl, ended_job _⟩

/-- Settles O30: both bounds are the job's own, and the length fits its register since it is at most OUT_CAP. -/
theorem encodedLengthIsBounded : Obligations.EncodedLengthIsBounded := by
  unfold Obligations.EncodedLengthIsBounded
  intro s hinv hturn hphase
  obtain ⟨hok, hpos⟩ := hinv.encTail hphase
  have hupper := hok.tail_fits hpos
  have hfits := (hupper.trans hok.capacity.1).trans_lt s.job.jOutCap.isLt
  have hlen : (turnTaken s).ended.res.outLen.toNat = s.job.outPos + (flushBytes s.job.run ++ endMarker).length := by
    rw [ended_outLen, BitVec.toNat_ofNat]
    exact Nat.mod_eq_of_lt hfits
  refine ⟨_, step_encTail hturn hphase (hok.tail_room hpos), succeeded_word, ?_, ?_⟩
  · rw [hlen]; exact hok.tail_lower hpos
  · rw [hlen]; exact hupper

/-! ### Three channels (R102) -/

theorem chooseChunk_ne_rgba {p q : Pixel} (ha : p.a = q.a) (hit : Pixel) (r g b a : Byte) :
    chooseChunk p q hit ≠ .rgba r g b a := by
  obtain ⟨-, h⟩ | ⟨-, -, h⟩ | ⟨-, -, h⟩ | ⟨-, -, h⟩ | ⟨-, hne, -⟩ := chooseChunk_cases p q hit
  · rw [h]; exact fun h => nomatch h
  · rw [h]; exact fun h => nomatch h
  · rw [h]; exact fun h => nomatch h
  · rw [h]; exact fun h => nomatch h
  · exact absurd ha hne

/-- Settles O31: at three channels every alpha is 255, so RGBA is never chosen and no pixel is (0,0,0,0). -/
theorem threeChannelsNeverNeedRgba : Obligations.ThreeChannelsNeverNeedRgba := by
  unfold Obligations.ThreeChannelsNeverNeedRgba
  intro s hinv hphase hc
  obtain ⟨hcur, hprev⟩ := (hinv.encPixel hphase).1.alphas_eq hc
  refine ⟨chooseChunk_ne_rgba (hcur.trans hprev.symm), fun hzero => ?_⟩
  rw [hzero] at hcur
  exact absurd hcur (by decide)

/-! ### What an encode step sees (R101) -/

/-- The pixel step is a function of the pixel, the job and OUT. -/
theorem encoded_congr {s s' : State} (p : Pixel) (hjob : s'.job = s.job) (hout : s'.out = s.out) :
    (s'.encoded p).job = (s.encoded p).job ∧ (s'.encoded p).out = (s.encoded p).out ∧
      (s'.encoded p).phase = (s.encoded p).phase := by
  simp only [State.encoded, hjob, hout, and_self]

/-- The tail step is a function of the job and OUT. -/
theorem ended_congr {s s' : State} (hjob : s'.job = s.job) (hout : s'.out = s.out) :
    s'.ended.job = s.ended.job ∧ s'.ended.out = s.ended.out ∧ s'.ended.res.outLen = s.ended.res.outLen := by
  simp only [ended_job, ended_out, ended_outLen, hjob, hout, and_self]

/-- Settles O53: the bounds of the job hold of both machines, so each takes the one step of its phase; a pixel step sees
IN through the current pixel, whose bytes lie below J_IN_LEN. -/
theorem encodeStepSeesOnlyJobAndInput : Obligations.EncodeStepSeesOnlyJobAndInput := by
  unfold Obligations.EncodeStepSeesOnlyJobAndInput
  intro s s' t t' hinv hturn hturn' hphase hphase' hjob hout hsize hread h h'
  have hok' (hok : EncodeOk s) : EncodeOk s' := hok.congr hjob hsize.symm hread (by rw [hout])
  rcases hphase with hpixel | htail
  · obtain ⟨hok, hpos⟩ := hinv.encPixel hpixel
    have hsame : currentPixel s' = currentPixel s := by
      rw [hok.input.1] at hread
      unfold currentPixel
      rw [hjob]
      exact pixelAt_congr hok.channels hpos hread
    have hstep := step_encPixel hturn hpixel hok hpos
    have hstep' := step_encPixel hturn' (hphase'.trans hpixel) (hok' hok) (hjob ▸ hpos)
    rw [hsame] at hstep'
    cases h.symm.trans hstep
    cases h'.symm.trans hstep'
    obtain ⟨hj, ho, hp⟩ := encoded_congr (s := turnTaken s) (s' := turnTaken s') (currentPixel s) hjob hout
    exact ⟨hj, ho, hp, fun htail => by rw [hpixel] at htail; cases htail⟩
  · obtain ⟨hok, hpos⟩ := hinv.encTail htail
    cases h.symm.trans (step_encTail hturn htail (hok.tail_room hpos))
    cases h'.symm.trans (step_encTail hturn' (hphase'.trans htail) ((hok' hok).tail_room (hjob ▸ hpos)))
    obtain ⟨hj, ho, hlen⟩ := ended_congr (s := turnTaken s) (s' := turnTaken s') hjob hout
    exact ⟨hj, ho, rfl, fun _ => ⟨hlen, rfl⟩⟩

end Sys2Proof.Machine
end

section
/-! PROOFS. The decode job's own statements (42_decoder.md R106, R107, R117, R124): the chunk at `in_pos`, the chunk cut
by the end of the stream, and what a step sees. -/

namespace Sys2Proof.Machine

open Sys2Proof.Claims

/-! ### The bytes in view of a step (R107) -/

theorem availableBytes_length (s : State) : (availableBytes s).length = availableLength s := by
  rw [availableBytes, List.length_map, List.length_range]

theorem availableBytes_getElem (s : State) {j : Nat} (hj : j < (availableBytes s).length) :
    (availableBytes s)[j] = s.inp.read (s.job.inPos + j) := by
  simp only [availableBytes, List.getElem_map, List.getElem_range]

/-- Bytes that lie at `in_pos` below J_IN_LEN, no more than the longest chunk's, are the first in view. -/
theorem availableBytes_eq_append {s : State} {bs : List Byte} (hlen : bs.length ≤ maxChunkLength)
    (hbelow : s.job.inPos + bs.length ≤ s.job.jInLen.toNat) (hholds : s.inp.Holds s.job.inPos bs) :
    ∃ rest, availableBytes s = bs ++ rest := by
  have hfirst : (availableBytes s).take bs.length = bs := by
    have hview : bs.length ≤ (availableBytes s).length := by
      rw [availableBytes_length, availableLength]; omega
    apply List.ext_getElem (by rw [List.length_take, Nat.min_eq_left hview])
    intro j hj hj'
    rw [List.getElem_take, availableBytes_getElem, hholds j hj']
  exact ⟨_, (hfirst ▸ List.take_append_drop bs.length (availableBytes s)).symm⟩

/-- A well-formed chunk that lies at `in_pos` is what a step with no run pending decodes. -/
theorem decode_availableBytes {s : State} {i : Instr} (hwf : i.wf = true)
    (hbelow : s.job.inPos + (encode i).length ≤ s.job.jInLen.toNat) (hholds : s.inp.Holds s.job.inPos (encode i)) :
    ∃ rest, decode (availableBytes s) = .ok (i, rest) := by
  obtain ⟨rest, hview⟩ := availableBytes_eq_append (encode_length_le i).2 hbelow hholds
  exact ⟨rest, by rw [hview, decode_encode_append hwf]⟩

theorem decodedPixel_of_holds {s : State} {i : Instr} (hrun : s.job.runRem = 0) (hwf : i.wf = true)
    (hbelow : s.job.inPos + (encode i).length ≤ s.job.jInLen.toNat) (hholds : s.inp.Holds s.job.inPos (encode i)) :
    decodedPixel s = some (chunkPixel i s.job, (encode i).length, chunkOwes i s.job) := by
  obtain ⟨rest, hdecode⟩ := decode_availableBytes hwf hbelow hholds
  rw [decodedPixel, if_neg (by omega), hdecode]

/-- Settles O20: the chunk is what the step decodes, and a chunk wholly below J_IN_LEN is run as its pixel. -/
theorem stepRunsTheDecodedChunk : Obligations.StepRunsTheDecodedChunk := by
  unfold Obligations.StepRunsTheDecodedChunk
  intro s i hturn hphase hrun hwf hbelow hin hholds
  rw [step_decPixel hturn hphase (by omega) hin, decodedPixel_of_holds hrun hwf hbelow hholds]
  exact (exec_enough (s := turnTaken s) hbelow).symm

/-! ### A cut chunk (R107) -/

/-- Where the chunk of the first byte does not lie wholly below J_IN_LEN, no chunk is decoded. -/
theorem decodedPixel_cut {s : State} (hrun : s.job.runRem = 0) (hpos : s.job.inPos ≤ s.job.jInLen.toNat)
    (hcut : s.job.inPos = s.job.jInLen.toNat ∨
      s.job.jInLen.toNat < s.job.inPos + chunkLength (s.inp.read s.job.inPos)) : decodedPixel s = none := by
  rw [decodedPixel, if_neg (by omega)]
  have hlength := availableBytes_length s
  unfold availableLength at hlength
  cases hview : availableBytes s with
  | nil => rfl
  | cons b0 tail =>
    have hb0 : b0 = s.inp.read s.job.inPos := by
      have hget := availableBytes_getElem s (j := 0) (by rw [hview]; exact Nat.succ_pos _)
      simpa [hview] using hget
    rw [hview, List.length_cons] at hlength
    have hmax := chunkLength_le b0
    rw [← hb0] at hcut
    rw [decode_short (by omega)]

/-- Settles O22: nothing is decoded, so the step is the end of the stream. -/
theorem cutChunkEndsTheJob : Obligations.CutChunkEndsTheJob := by
  unfold Obligations.CutChunkEndsTheJob
  intro s hturn hphase hrun hpos hin hcut
  exact ⟨_, step_decPixel_none hturn hphase hpos hin (decodedPixel_cut hrun hpos hcut), raiseError_truncates _⟩

/-! ### What a decode step sees -/

/-- A chunk's pixel is made of `prev` and the cache. -/
theorem chunkPixel_congr {j j' : Job} (i : Instr) (hprev : j'.prev = j.prev) (hcache : j'.cache = j.cache) :
    chunkPixel i j' = chunkPixel i j := by
  cases i <;> simp only [chunkPixel, hprev, hcache]

theorem chunkOwes_congr {j j' : Job} (i : Instr) (hrun : j'.runRem = j.runRem) : chunkOwes i j' = chunkOwes i j := by
  cases i <;> simp only [chunkOwes, hrun]

/-- What a step makes of the stream is a function of the decoder's registers and the bytes below J_IN_LEN. -/
theorem decodedPixel_congr {s s' : State} (hprev : s'.job.prev = s.job.prev) (hcache : s'.job.cache = s.job.cache)
    (hrun : s'.job.runRem = s.job.runRem) (hpos : s'.job.inPos = s.job.inPos) (hlen : s'.job.jInLen = s.job.jInLen)
    (hread : ∀ a, a < s.job.jInLen.toNat → s'.inp.read a = s.inp.read a) : decodedPixel s' = decodedPixel s := by
  have hview : availableBytes s' = availableBytes s := by
    unfold availableBytes availableLength
    rw [hpos, hlen]
    refine List.map_congr_left fun j hj => hread _ ?_
    have := List.mem_range.1 hj
    omega
  unfold decodedPixel
  rw [hrun, hprev, hview]
  split
  · rfl
  · cases decode (availableBytes s) with
    | error e => rfl
    | ok x => simp only [chunkPixel_congr x.1 hprev hcache, chunkOwes_congr x.1 hrun]

/-- Under the invariant a decode step is the end of the stream, or the pixel of `decodedPixel` produced. -/
theorem decodeStep_eq_next {s t : State} (hinv : MachineInv s) (hturn : CoreTurn s) (hphase : s.phase = .decPixel)
    (h : step s = .next t) :
    (decodedPixel s = none ∧ t = raiseError .unexpectedEndOfStream (turnTaken s)) ∨
      ∃ px used owed, decodedPixel s = some (px, used, owed) ∧ t = (turnTaken s).produced px used owed := by
  cases coreEffect_of_step hinv hturn h with
  | rests hp => rw [hp] at hphase; cases hphase
  | pixel hp => rw [hp] at hphase; cases hphase
  | tail hp => rw [hp] at hphase; cases hphase
  | cut _ _ hnone => exact .inl ⟨hnone, rfl⟩
  | produces _ _ hsome => exact .inr ⟨_, _, _, hsome, rfl⟩

/-- A produced pixel ends both of two jobs or neither: their STATUS and phase stay equal. -/
theorem produced_status_phase {s s' : State} (px : Pixel) (used owed : Nat) (hpos : s'.job.pixPos = s.job.pixPos)
    (hn : s'.job.jN = s.job.jN) (hstatus : s'.status = s.status) (hphase : s'.phase = s.phase) :
    (s'.produced px used owed).status = (s.produced px used owed).status ∧
      (s'.produced px used owed).phase = (s.produced px used owed).phase := by
  have hboth : s'.job.pixPos + 1 = s'.job.jN ↔ s.job.pixPos + 1 = s.job.jN := by rw [hpos, hn]
  by_cases hlast : s.job.pixPos + 1 = s.job.jN
  · rw [produced_last hlast, produced_last (hboth.2 hlast)]
    simp only [finishDecode_status, finishDecode_phase, and_self]
  · rw [produced_notLast hlast, produced_notLast (mt hboth.1 hlast)]
    simpa using ⟨hstatus, hphase⟩

/-- R118: the results of the step that produces the last pixel. -/
theorem produced_res {s : State} (hlast : s.job.pixPos + 1 = s.job.jN) (px : Pixel) (used owed : Nat) :
    (s.produced px used owed).res =
      { outLen := BitVec.ofNat 64 (s.job.jN * s.job.jReq.toNat)
        width := s.job.jW
        height := s.job.jH
        channels := s.job.jC
        colorspace := s.job.jCS } := by
  rw [produced_last hlast, finishDecode_res]; rfl

/-- Settles O54: both machines decode the same pixel or neither does. -/
theorem decodeStepSeesOnlyJobAndStream : Obligations.DecodeStepSeesOnlyJobAndStream := by
  unfold Obligations.DecodeStepSeesOnlyJobAndStream
  intro s s' t t' hinv hturn hturn' hphase hphase' hjob hout hstatus hsize hread h h'
  have hsame : decodedPixel s' = decodedPixel s :=
    decodedPixel_congr (by rw [hjob]) (by rw [hjob]) (by rw [hjob]) (by rw [hjob]) (by rw [hjob]) hread
  have hok := hinv.decPixel hphase
  have hok' : DecodeOk s' := hok.congr hjob hsize.symm (by rw [hout])
  obtain ⟨hnone, rfl⟩ | ⟨px, used, owed, hsome, rfl⟩ := decodeStep_eq_next hinv hturn hphase h
  · have hstep' := step_decPixel_none hturn' hphase' hok'.input.2.1 hok'.input.2.2 (hsame.trans hnone)
    cases h'.symm.trans hstep'
    exact ⟨hjob, rfl, rfl, fun hword => absurd failed_unexpectedEndOfStream_word hword⟩
  · have hstep' := step_decPixel_some hturn' hphase' hok' (hsame.trans hsome)
    cases h'.symm.trans hstep'
    obtain ⟨hst, hph⟩ := produced_status_phase (s := turnTaken s) (s' := turnTaken s') px used owed
      (congrArg Job.pixPos hjob) (congrArg Job.jN hjob) hstatus (hphase'.trans hphase.symm)
    refine ⟨?_, hph, hst, fun _ => ?_⟩
    · simp only [produced_job, turnTaken_job, hjob]
    · simp only [produced_out, pixelAddress, turnTaken_job, turnTaken_out, hjob, hout]

/-- STATUS after a produced pixel of a running job: DONE after the last, else BUSY. -/
theorem produced_word {s : State} (hrunning : s.status = Status.running) (px : Pixel) (used owed : Nat) :
    (s.produced px used owed).status.word = if s.job.pixPos + 1 = s.job.jN then 2 else 1 := by
  have hproduces := produced_produces s px used owed
  split
  · next hlast =>
    obtain ⟨-, -, -, -, -, hword, -⟩ := hproduces.last hlast
    exact hword
  · next hlast => rw [(hproduces.notLast hlast).2.1, hrunning, running_word]

/-- R117: one pixel produced at four and at three requested channels: the same colours, each at its own stride, and the
alpha in the wider space alone. -/
theorem produced_stores {s s' : State} (px : Pixel) (used owed : Nat) (hreq : s.job.jReq = 4)
    (hreq' : s'.job.jReq = 3) (hpos : s'.job.pixPos = s.job.pixPos) :
    (∀ c, c < 3 → (s'.produced px used owed).out.read (s.job.pixPos * 3 + c) =
        (s.produced px used owed).out.read (s.job.pixPos * 4 + c)) ∧
      (s.produced px used owed).out.read (s.job.pixPos * 4 + 3) = (s.produced px used owed).job.prev.a ∧
      ∀ a, s.job.pixPos * 3 + 3 ≤ a → (s'.produced px used owed).out.read a = s'.out.read a := by
  have hwide := produced_produces s px used owed
  have hnarrow := produced_produces s' px used owed
  have haddr : pixelAddress s = s.job.pixPos * 4 := by rw [pixelAddress, hreq]; rfl
  have haddr' : pixelAddress s' = s.job.pixPos * 3 := by rw [pixelAddress, hreq', hpos]; rfl
  rw [← haddr, ← haddr']
  refine ⟨fun c hc => ?_, by rw [hwide.prev]; exact hwide.alpha hreq, fun a ha => hnarrow.otherBytes a (.inr ?_)⟩
  · interval_cases c
    · exact hnarrow.red.trans hwide.red.symm
    · exact hnarrow.green.trans hwide.green.symm
    · exact hnarrow.blue.trans hwide.blue.symm
  · rw [hreq']; exact ha

/-- Settles O51: the two machines decode the same pixel or neither does. Where the stream is cut both fail alike; else
each stores the pixel's lanes at its own stride and counts it alike. -/
theorem requestedChannelsOnlyChangeTheStores : Obligations.RequestedChannelsOnlyChangeTheStores := by
  unfold Obligations.RequestedChannelsOnlyChangeTheStores
  intro s s' t t' hinv hinv' hturn hturn' hphase hphase' hreq hjob hinp hstatus h h'
  have hsame : decodedPixel s' = decodedPixel s :=
    decodedPixel_congr (by rw [hjob]) (by rw [hjob]) (by rw [hjob]) (by rw [hjob]) (by rw [hjob])
      (fun _ _ => by rw [hinp])
  obtain ⟨hnone, rfl⟩ | ⟨px, used, owed, hsome, rfl⟩ := decodeStep_eq_next hinv hturn hphase h
  · obtain ⟨-, rfl⟩ | ⟨px, used, owed, hsome, -⟩ := decodeStep_eq_next hinv' hturn' hphase' h'
    · have hword := failed_unexpectedEndOfStream_word
      exact ⟨hjob, rfl, rfl, fun hne => absurd hword hne, fun hrun => absurd rfl hrun,
        fun h2 => absurd (hword.symm.trans h2) (by decide), fun _ => ⟨rfl, rfl⟩⟩
    · rw [hsame, hnone] at hsome
      cases hsome
  · obtain ⟨hnone, -⟩ | ⟨px', used', owed', hsome', rfl⟩ := decodeStep_eq_next hinv' hturn' hphase' h'
    · rw [hsame, hsome] at hnone
      cases hnone
    rw [hsame, hsome] at hsome'
    cases hsome'
    have hreq' : s'.job.jReq = 3 := by rw [hjob]
    have hpos : s'.job.pixPos = s.job.pixPos := by rw [hjob]
    have hn : s'.job.jN = s.job.jN := by rw [hjob]
    have hrunning : (turnTaken s).status = Status.running := hinv.status_of_running (by simp [hphase])
    obtain ⟨hst, hph⟩ := produced_status_phase (s := turnTaken s) (s' := turnTaken s') px used owed hpos hn hstatus
      (hphase'.trans hphase.symm)
    have hboth : s'.job.pixPos + 1 = s'.job.jN ↔ s.job.pixPos + 1 = s.job.jN := by rw [hpos, hn]
    have hwide := produced_produces (turnTaken s) px used owed
    have hnarrow := produced_produces (turnTaken s') px used owed
    have hstores := produced_stores (s := turnTaken s) (s' := turnTaken s') px used owed hreq hreq' hpos
    refine ⟨?job, hph, hst, fun _ => hstores, fun hrun => ?results, fun h2 => ?ended, fun h66 => ?cut⟩
    case job => rw [produced_job, produced_job, turnTaken_job, turnTaken_job, hjob]
    case results =>
      have hlast : s.job.pixPos + 1 ≠ s.job.jN := fun hlast => by
        obtain ⟨-, -, -, -, -, -, hidle⟩ := hwide.last hlast
        exact hrun hidle
      exact ⟨(hwide.notLast hlast).1, (hnarrow.notLast (mt hboth.1 hlast)).1⟩
    case ended =>
      have hlast : s.job.pixPos + 1 = s.job.jN := by
        by_contra hlast
        rw [produced_word hrunning, turnTaken_job, if_neg hlast] at h2
        cases h2
      rw [produced_res (s := turnTaken s) hlast, produced_res (s := turnTaken s') (hboth.2 hlast)]
      simp only [turnTaken_job, hreq, hreq', hn]
      exact ⟨rfl, by rw [hjob]; rfl⟩
    case cut =>
      rw [produced_word hrunning] at h66
      split at h66 <;> cases h66

end Sys2Proof.Machine
end

section
/-! PROOFS. Runs of the core left alone (42_decoder.md R119, R125, 70_reset_and_hazards.md R154): how many steps a job
takes, and how it ends. -/

namespace Sys2Proof.Machine

open Sys2Proof.Claims

/-! ### Runs -/

/-- A step that answers a next state is the first of a run. -/
theorem coreRun_succ (M : Host.Core) {s t : M.State} (h : M.step s = .next t) (k : Nat) :
    M.run (k + 1) s = M.run k t := by
  rw [Host.Core.run, h]

/-- A run goes on from where its first part ends. -/
theorem coreRun_add (M : Host.Core) {m : Nat} (n : Nat) {s t : M.State} (h : M.run m s = .next t) :
    M.run (m + n) s = M.run n t := by
  induction m generalizing s with
  | zero =>
    cases h
    rw [Nat.zero_add]
  | succ m ih =>
    rw [Nat.add_right_comm]
    cases hstep : M.step s with
    | next u =>
      rw [coreRun_succ M hstep] at h ⊢
      exact ih h
    | fault r =>
      rw [Host.Core.run, hstep] at h
      cases h
    | refused r =>
      rw [Host.Core.run, hstep] at h
      cases h

theorem run_succ {s t : State} (h : step s = .next t) (k : Nat) :
    Host.Core.run core (k + 1) s = Host.Core.run core k t := coreRun_succ core h k

theorem run_one {s t : State} (h : step s = .next t) : Host.Core.run core 1 s = .next t := run_succ h 0

theorem run_add {m : Nat} (n : Nat) {s t : State} (h : Host.Core.run core m s = .next t) :
    Host.Core.run core (m + n) s = Host.Core.run core n t := coreRun_add core n h

theorem turnTaken_of_agenda_nil {s : State} (h : s.agenda = []) : turnTaken s = s :=
  State.eq_of_fields rfl rfl rfl rfl rfl rfl rfl rfl (by rw [turnTaken, State.popTurn_agenda, h, List.tail_nil]) rfl rfl

/-- R142: left alone in IDLE, the machine stays as it is. -/
theorem run_idle {s : State} (hagenda : s.agenda = []) (hphase : s.phase = .idle) (k : Nat) :
    Host.Core.run core k s = .next s := by
  have hstep : step s = .next s := by
    rw [idleCoreTakesNoStep s (.inl hagenda) hphase, turnTaken_of_agenda_nil hagenda]
  induction k with
  | zero => rfl
  | succ k ih => rw [run_succ hstep, ih]

/-! ### An encode job (R154) -/

/-- The pixel steps of an encode job: after `k` of them `k` more pixels are consumed, and what each step keeps still
holds. -/
theorem run_encode {P : State → Prop}
    (hkeep : ∀ u, MachineInv u → u.phase = .encPixel → P u → P (u.encoded (currentPixel u))) {s : State}
    (hinv : MachineInv s) (hagenda : s.agenda = []) (hphase : s.phase = .encPixel) (hP : P s) {k : Nat}
    (hk : k ≤ s.job.jN - s.job.pixPos) :
    ∃ t : State, Host.Core.run core k s = .next t ∧ MachineInv t ∧ t.agenda = [] ∧ P t ∧ t.job.jN = s.job.jN ∧
      t.job.pixPos = s.job.pixPos + k ∧
      t.phase = if s.job.pixPos + k = s.job.jN then .encTail else .encPixel := by
  have hpos := (hinv.encPixel hphase).2
  induction k with
  | zero => exact ⟨s, rfl, hinv, hagenda, hP, rfl, rfl, by rw [if_neg (by omega), hphase]⟩
  | succ k ih =>
    obtain ⟨u, hrun, huinv, huagenda, hPu, hun, hupos, huphase⟩ := ih (by omega)
    rw [if_neg (by omega)] at huphase
    obtain ⟨hok, howed⟩ := huinv.encPixel huphase
    have hstep := step_encPixel (.inl huagenda) huphase hok howed
    rw [turnTaken_of_agenda_nil huagenda] at hstep
    refine ⟨_, (run_add 1 hrun).trans (run_one hstep), huinv.step hstep, huagenda, hkeep u huinv huphase hPu, hun,
      ?_, ?_⟩
    · rw [← Nat.add_assoc, ← hupos]; rfl
    · rw [← Nat.add_assoc, ← hupos, ← hun]; rfl

theorem MachineInv.word_of_running {s : State} (h : MachineInv s) (hphase : s.phase ≠ .idle) : s.status.word = 1 := by
  rw [h.status_of_running hphase, running_word]

/-- Settles O55: a pixel step for each pixel owed, all of them of a running job, then the tail step. -/
theorem encodeJobEndsInItsStepCount : Obligations.EncodeJobEndsInItsStepCount := by
  unfold Obligations.EncodeJobEndsInItsStepCount
  intro s hinv hagenda hphase
  have hpos := (hinv.encPixel hphase).2
  have hpixels {k : Nat} (hk : k ≤ s.job.jN - s.job.pixPos) :=
    run_encode (P := fun _ => True) (fun _ _ _ _ => trivial) hinv hagenda hphase trivial hk
  constructor
  · obtain ⟨u, hrun, huinv, huagenda, -, -, -, huphase⟩ := hpixels (Nat.le_refl _)
    rw [if_pos (by omega)] at huphase
    obtain ⟨hok, hend⟩ := huinv.encTail huphase
    have hstep := step_encTail (.inl huagenda) huphase (hok.tail_room hend)
    exact ⟨_, (run_add 1 hrun).trans (run_one hstep), rfl, succeeded_word⟩
  · intro k hk
    obtain ⟨u, hrun, huinv, -, -, -, -, huphase⟩ := hpixels hk
    have hrunning : u.phase ≠ .idle := by rw [huphase]; split <;> simp
    exact ⟨u, hrun, hrunning, huinv.word_of_running hrunning⟩

/-! ### A decode job (R125) -/

/-- A decode job ends well, or for want of bytes, when as many steps are done as pixels were owed. -/
theorem run_decode_ends {m : Nat} {s : State} (hinv : MachineInv s) (hagenda : s.agenda = [])
    (hphase : s.phase = .decPixel) (hm : s.job.jN - s.job.pixPos = m) :
    ∃ t : State, Host.Core.run core m s = .next t ∧ t.phase = .idle ∧
      ((t.status.word = 2 ∧ t.res.outLen = BitVec.ofNat 64 (s.job.jN * s.job.jReq.toNat)) ∨
        (t.status.word = 0x66 ∧ t.res.outLen = 0)) := by
  induction m generalizing s with
  | zero => exact absurd (hinv.decPixel hphase).position (by omega)
  | succ m ih =>
    obtain ⟨u, hstep, heffect⟩ := coreEffect_of_inv hinv (.inl hagenda)
    have hturn := turnTaken_of_agenda_nil hagenda
    rw [run_succ hstep]
    obtain ⟨-, rfl⟩ | ⟨px, used, owed, -, rfl⟩ := decodeStep_eq_next hinv (.inl hagenda) hphase hstep
    · rw [hturn]
      exact ⟨_, run_idle (s := raiseError _ s) hagenda rfl m, rfl, .inr ⟨failed_unexpectedEndOfStream_word, rfl⟩⟩
    · rw [hturn] at hstep ⊢
      have hproduces := produced_produces s px used owed
      by_cases hlast : s.job.pixPos + 1 = s.job.jN
      · obtain ⟨hlen, -, -, -, -, hword, hidle⟩ := hproduces.last hlast
        obtain rfl : m = 0 := by omega
        exact ⟨_, rfl, hidle, .inl ⟨hword, hlen⟩⟩
      · have howed : (s.produced px used owed).job.jN - (s.produced px used owed).job.pixPos = m := by
          rw [hproduces.parameters.jN, hproduces.pixPos]; omega
        have hnext := ih (hinv.step hstep) (hproduces.modelSide.1.trans hagenda)
          ((hproduces.notLast hlast).2.2.trans hphase) howed
        rwa [hproduces.parameters.jN, hproduces.parameters.jReq] at hnext

/-- Settles O56: by induction on the pixels owed, one step each. -/
theorem decodeJobEndsWithinItsStepCount : Obligations.DecodeJobEndsWithinItsStepCount := by
  unfold Obligations.DecodeJobEndsWithinItsStepCount
  exact fun s hinv hagenda hphase => run_decode_ends hinv hagenda hphase rfl

/-! ### A run that outlasts the image (R119) -/

/-- A step that has produced `prev` and owes as many more as the image has ends the job with them, whatever the stream
holds. -/
theorem run_owed_ends {m used owed : Nat} {s u : State} (hproduces : Produces s u s.job.prev used owed)
    (hm : s.job.pixPos + 1 + m = s.job.jN) (howed : m ≤ owed) (hagenda : s.agenda = []) (hphase : s.phase = .decPixel)
    (hreq : s.job.jReq = 3 ∨ s.job.jReq = 4) (hroom : s.job.jN * s.job.jReq.toNat ≤ s.out.size) :
    ∃ t : State, Host.Core.run core m u = .next t ∧ t.status.word = 2 ∧ t.phase = .idle ∧ t.job.pixPos = s.job.jN ∧
      t.job.prev = s.job.prev ∧ t.res.outLen = BitVec.ofNat 64 (s.job.jN * s.job.jReq.toNat) := by
  induction m generalizing s u used owed with
  | zero =>
    obtain ⟨hlen, -, -, -, -, hword, hidle⟩ := hproduces.last hm
    exact ⟨u, rfl, hword, hidle, hproduces.pixPos.trans hm, hproduces.prev, hlen⟩
  | succ m ih =>
    have hnotLast := hproduces.notLast (by omega)
    have hn := hproduces.parameters.jN
    have hr := hproduces.parameters.jReq
    have huagenda := hproduces.modelSide.1.trans hagenda
    have hupos := hproduces.pixPos
    have huroom : HasRoom u := by
      unfold HasRoom pixelAddress
      rw [hr, hupos, hproduces.outSize, lanes_eq hreq]
      exact (mul_add_le_mul (by omega)).trans hroom
    obtain ⟨v, hstep, hv⟩ := pendingRunNeedsNoByte u (.inl huagenda) (hnotLast.2.2.trans hphase)
      (by rw [hproduces.runRem]; omega) huroom
    rw [turnTaken_of_agenda_nil huagenda] at hv
    rw [run_succ hstep]
    have hend := ih hv (by rw [hn, hupos]; omega) (by rw [hproduces.runRem]; omega) huagenda
      (hnotLast.2.2.trans hphase) (by rw [hr]; exact hreq) (by rw [hn, hr, hproduces.outSize]; exact hroom)
    rwa [hn, hr, hproduces.prev] at hend

/-- Settles O23: the chunk's own step produces the first pixel, and the run goes on to the last. -/
theorem runOvershootIsCut : Obligations.RunOvershootIsCut := by
  unfold Obligations.RunOvershootIsCut
  intro s n hinv hagenda hphase hn
  have hok := hinv.decPixel hphase
  have hpos := hok.position
  obtain ⟨u, hexec, hproduces⟩ := exec_produces (i := .run n) (s := s) (.inl rfl) hok.hasRoom
  obtain ⟨t, hend⟩ := run_owed_ends (m := s.job.jN - s.job.pixPos - 1) hproduces (by omega)
    (by rw [chunkOwes]; omega) hagenda hphase hok.request (hok.capacity.1.trans hok.capacity.2)
  exact ⟨u, t, hexec, hend⟩

end Sys2Proof.Machine
end

section
/-! PROOFS. The decoder follows the encoder (40_datapath.md R81, 42_decoder.md R123): the chunk chosen for a pixel makes
that pixel again, and a stream of chunks as the pixels it stands for. -/

namespace Sys2Proof.Machine

open Sys2Proof.Claims

/-! ### One chunk (R81) -/

/-- The pixel (0,0,0,0) belongs to slot 0, so slot 53 never answers it as a hit. -/
theorem pixelHash_zeroPixel_ne : pixelHash zeroPixel ≠ 53 := by decide

/-- Where the encoder's slot is a hit, the decoder's slot holds the same pixel. -/
theorem cachesAgree_hit {enc dec : Cache} (h : CachesAgree enc dec) {p : Pixel}
    (hhit : cacheRead enc (pixelHash p) = p) : cacheRead dec (pixelHash p) = p := by
  obtain heq | ⟨h53, hzero, -⟩ := h (pixelHash p)
  · exact heq.trans hhit
  · have hp : p = zeroPixel := hhit.symm.trans hzero
    rw [hp] at h53
    exact absurd h53 pixelHash_zeroPixel_ne

theorem cachesAgree_store {enc dec : Cache} (h : CachesAgree enc dec) (p : Pixel) :
    CachesAgree (cacheStore enc p) (cacheStore dec p) := by
  intro i
  rw [cacheRead_cacheStore, cacheRead_cacheStore]
  split
  · exact .inl rfl
  · exact h i

/-- R77, R81: the chunk chosen for a pixel stands for that pixel in a decode job whose cache agrees. -/
theorem chunkPixel_chooseChunk {enc : Cache} {j : Job} (hagree : CachesAgree enc j.cache) (p : Pixel) :
    chunkPixel (chooseChunk p j.prev (cacheRead enc (pixelHash p))) j = p := by
  obtain ⟨hhit, h⟩ | ⟨-, hfits, h⟩ | ⟨-, hfits, h⟩ | ⟨-, ha, h⟩ | ⟨-, -, h⟩ :=
    chooseChunk_cases p j.prev (cacheRead enc (pixelHash p)) <;> rw [h]
  · exact cachesAgree_hit hagree hhit
  · exact applyDIFF_deltas ((fitsDIFF_iff p j.prev).1 hfits).1
  · exact applyLUMA_deltas ((fitsLUMA_iff p j.prev).1 hfits).1
  · rw [chunkPixel, ← ha]
  · rfl

/-- The cache after a produced pixel is the cache with that pixel stored. -/
theorem produces_cache {s t : State} {px : Pixel} {used owed : Nat} (h : Produces s t px used owed) :
    t.job.cache = cacheStore s.job.cache px := by
  apply cache_ext
  intro i
  rw [cacheRead_cacheStore]
  split
  · next hi => rw [hi, h.ownSlot]
  · next hi => exact h.otherSlots i hi

/-- Settles O57: the chunk is produced as the pixel it was chosen for, and both caches store that pixel. -/
theorem decoderFollowsTheEncoder : Obligations.DecoderFollowsTheEncoder := by
  unfold Obligations.DecoderFollowsTheEncoder
  intro s d p i hagree hprev hbelow hroom
  have hpixel : chunkPixel i d.job = p := by
    rw [show i = chooseChunk p d.job.prev (cacheRead s.job.cache (pixelHash p)) by rw [← hprev]]
    exact chunkPixel_chooseChunk hagree p
  obtain ⟨e, hexec, hproduces⟩ := exec_produces (.inr (encode_length i ▸ hbelow)) hroom
  rw [hpixel] at hproduces
  refine ⟨e, hexec, hproduces.prev, ?_⟩
  rw [produces_cache hproduces]
  exact cachesAgree_store hagree p

/-! ### A stream of chunks as pixels -/

/-- The decoder's registers after a pixel is committed (R116). -/
def Job.seen (j : Job) (p : Pixel) : Job := { j with cache := cacheStore j.cache p, prev := p }

/-- How many pixels a chunk stands for (R114). -/
def chunkCount : Instr → Nat
  | .run n => n
  | _ => 1

/-- The decoder's registers after a list of chunks. -/
def streamJob : List Instr → Job → Job
  | [], j => j
  | i :: is, j => streamJob is (j.seen (chunkPixel i j))

/-- The pixels that a list of chunks stands for (R109 to R114). -/
def streamPixels : List Instr → Job → List Pixel
  | [], _ => []
  | i :: is, j => List.replicate (chunkCount i) (chunkPixel i j) ++ streamPixels is (j.seen (chunkPixel i j))

theorem streamJob_append (is is' : List Instr) (j : Job) :
    streamJob (is ++ is') j = streamJob is' (streamJob is j) := by
  induction is generalizing j with
  | nil => rfl
  | cons i is ih => exact ih _

theorem streamPixels_append (is is' : List Instr) (j : Job) :
    streamPixels (is ++ is') j = streamPixels is j ++ streamPixels is' (streamJob is j) := by
  induction is generalizing j with
  | nil => rfl
  | cons i is ih => rw [List.cons_append, streamPixels, ih, streamPixels, streamJob, List.append_assoc]

/-- The pixels of a stream are made of `prev` and the cache it is read from. -/
theorem streamPixels_congr {j j' : Job} (is : List Instr) (hprev : j'.prev = j.prev) (hcache : j'.cache = j.cache) :
    streamPixels is j' = streamPixels is j := by
  induction is generalizing j j' with
  | nil => rfl
  | cons i is ih =>
    rw [streamPixels, streamPixels, chunkPixel_congr i hprev hcache]
    rw [ih (j := j.seen _) (j' := j'.seen _) rfl (congrArg (cacheStore · _) hcache)]

theorem chunkCount_pos {i : Instr} (hwf : i.wf = true) : 0 < chunkCount i := by
  cases i with
  | run n => exact ((wf_run_iff n).1 hwf).1
  | rgb | rgba | index | diff | luma => exact Nat.one_pos

theorem chunkCount_chooseChunk (p q hit : Pixel) : chunkCount (chooseChunk p q hit) = 1 := by
  obtain ⟨-, h⟩ | ⟨-, -, h⟩ | ⟨-, -, h⟩ | ⟨-, -, h⟩ | ⟨-, -, h⟩ := chooseChunk_cases p q hit <;> rw [h] <;> rfl

/-! ### The encoder's chunks -/

/-- The registers of a decode job that has just begun (R105). -/
def freshJob : Job := (State.resetSized 0 0).decodeStarted.job

/-- The chunks stand for the pixels `ps` but for the `run` pending ones at their end, with `q` the last pixel and `c`
the encoder's cache. -/
structure Coded (chunks : List Instr) (q : Pixel) (run : Nat) (c : Cache) (ps : List Pixel) : Prop where
  wf : ∀ i ∈ chunks, i.wf = true
  pixels : streamPixels chunks freshJob ++ List.replicate run q = ps
  prev : (streamJob chunks freshJob).prev = q
  agree : CachesAgree c (streamJob chunks freshJob).cache
  /-- Why a decoder that records a run keeps agreeing: the pixel is in the encoder's slot too, or it is the (0,0,0,255)
  of the very start (R81). -/
  slot : cacheRead c (pixelHash q) = q ∨ q = initialPixel ∧ cacheRead c 53 = zeroPixel

theorem Coded.start : Coded [] initialPixel 0 clearedCache [] where
  wf _ h := absurd h List.not_mem_nil
  pixels := rfl
  prev := rfl
  agree _ := .inl rfl
  slot := .inr ⟨rfl, cacheRead_clearedCache 53⟩

section
variable {chunks : List Instr} {p q : Pixel} {run : Nat} {c : Cache} {ps : List Pixel}

/-- R87: a pixel of the run is one more pending. -/
theorem Coded.extend (h : Coded chunks q run c ps) : Coded chunks q (run + 1) c (ps ++ [q]) where
  wf := h.wf
  pixels := by rw [List.replicate_succ', ← List.append_assoc, h.pixels]
  prev := h.prev
  agree := h.agree
  slot := h.slot

theorem pixelHash_initialPixel : pixelHash initialPixel = 53 := by decide

/-- Storing the last pixel on the decoder's side alone keeps the caches in agreement (R81). -/
theorem Coded.agree_store (h : Coded chunks q run c ps) :
    CachesAgree c (cacheStore (streamJob chunks freshJob).cache q) := by
  intro i
  rw [cacheRead_cacheStore]
  split
  · next hi =>
    obtain hslot | ⟨rfl, hzero⟩ := h.slot
    · exact .inl (by rw [hi, hslot])
    · rw [pixelHash_initialPixel] at hi
      exact .inr ⟨hi, by rw [hi]; exact hzero, rfl⟩
  · exact h.agree i

/-- R88: a pending run becomes a RUN chunk. -/
theorem Coded.flush (h : Coded chunks q run c ps) (h1 : 1 ≤ run) (h62 : run ≤ 62) :
    Coded (chunks ++ [.run run]) q 0 c ps where
  wf := by
    simp only [List.mem_append, List.mem_singleton]
    rintro i (hi | rfl)
    · exact h.wf i hi
    · exact (wf_run_iff run).2 ⟨h1, h62⟩
  pixels := by
    rw [streamPixels_append, ← h.pixels, ← h.prev]
    simp [streamPixels, chunkCount, chunkPixel]
  prev := by rw [streamJob_append]; exact h.prev
  agree := by
    rw [streamJob_append]
    have hstore := h.agree_store
    rw [← h.prev] at hstore
    exact hstore
  slot := h.slot

/-- R86, R96: with no run pending, the chosen chunk stands for the pixel it was chosen for. -/
theorem Coded.chunk (h : Coded chunks q 0 c ps) (p : Pixel) :
    Coded (chunks ++ [chooseChunk p q (cacheRead c (pixelHash p))]) p 0 (cacheStore c p) (ps ++ [p]) := by
  have hpixel : chunkPixel (chooseChunk p q (cacheRead c (pixelHash p))) (streamJob chunks freshJob) = p := by
    rw [← h.prev]
    exact chunkPixel_chooseChunk h.agree p
  exact {
    wf := by
      simp only [List.mem_append, List.mem_singleton]
      rintro i (hi | rfl)
      · exact h.wf i hi
      · exact chooseChunk_wf _ _ _
    pixels := by
      rw [streamPixels_append, ← h.pixels]
      simp [streamPixels, chunkCount_chooseChunk, hpixel]
    prev := by rw [streamJob_append, streamJob, hpixel]; rfl
    agree := by
      rw [streamJob_append, streamJob, hpixel]
      exact cachesAgree_store h.agree p
    slot := .inl (by rw [cacheRead_cacheStore, if_pos rfl]) }

end

/-- The chunk that a pending run is flushed as (R89): none without one. -/
def flushChunks (run : Nat) : List Instr := if 0 < run then [.run run] else []

theorem flushBytes_eq_flatMap (run : Nat) : flushBytes run = (flushChunks run).flatMap encode := by
  unfold flushBytes flushChunks
  split
  · rw [List.flatMap_singleton]
  · rfl

theorem Coded.flushed {chunks : List Instr} {q : Pixel} {run : Nat} {c : Cache} {ps : List Pixel}
    (h : Coded chunks q run c ps) (hrun : run ≤ 62) : Coded (chunks ++ flushChunks run) q 0 c ps := by
  unfold flushChunks
  split
  · next h0 => exact h.flush h0 hrun
  · next h0 =>
    obtain rfl : run = 0 := by omega
    rwa [List.append_nil]

/-- The chunks that a pixel step writes (R86 to R94). -/
def encodeStepChunks (p : Pixel) (j : Job) : List Instr :=
  if p = j.prev then (if j.run + 1 = 62 then [.run 62] else [])
  else flushChunks j.run ++ [chooseChunk p j.prev (cacheRead j.cache (pixelHash p))]

theorem encodeStepBytes_eq_flatMap (p : Pixel) (j : Job) :
    encodeStepBytes p j = (encodeStepChunks p j).flatMap encode := by
  unfold encodeStepBytes encodeStepChunks
  split
  · split
    · rw [List.flatMap_singleton]
    · rfl
  · rw [List.flatMap_append, List.flatMap_singleton, flushBytes_eq_flatMap]

/-- A pixel step's chunks stand for one pixel more. -/
theorem Coded.step {chunks : List Instr} {j : Job} {ps : List Pixel} (h : Coded chunks j.prev j.run j.cache ps)
    (hrun : j.run ≤ 61) (p : Pixel) :
    Coded (chunks ++ encodeStepChunks p j) (encodeStepJob p j).prev (encodeStepJob p j).run (encodeStepJob p j).cache
      (ps ++ [p]) := by
  unfold encodeStepChunks
  by_cases hp : p = j.prev
  · subst hp
    by_cases hr : j.run + 1 = 62
    · have hfull := h.extend.flush (Nat.succ_pos _) (by omega)
      rw [hr] at hfull
      simpa [encodeStepJob, hr] using hfull
    · simpa [encodeStepJob, hr] using h.extend
  · have hchunk := (h.flushed (by omega)).chunk p
    rw [List.append_assoc] at hchunk
    simpa [encodeStepJob, hp] using hchunk

end Sys2Proof.Machine
end

section
/-! PROOFS. Round trip (42_decoder.md R123): an encode job writes a stream that stands for its image, and a decode job
makes of a stream the pixels it stands for. -/

namespace Sys2Proof.Machine

open Sys2Proof.Claims

/-! ### The image -/

/-- The pixels of a raw buffer of `n` pixels of `c` channels (R85). -/
def imagePixels (m : Memory) (c : Byte) (n : Nat) : List Pixel := (List.range n).map (pixelAt m c)

theorem imagePixels_succ (m : Memory) (c : Byte) (n : Nat) :
    imagePixels m c (n + 1) = imagePixels m c n ++ [pixelAt m c n] := by
  simp [imagePixels, List.range_succ]

theorem imagePixels_length (m : Memory) (c : Byte) (n : Nat) : (imagePixels m c n).length = n := by
  simp [imagePixels]

/-- Pixels of `c` channels take `c` bytes each (R117). -/
theorem flatMap_pixelBytes_length {c : Byte} (hc : c = 3 ∨ c = 4) (ps : List Pixel) :
    (ps.flatMap (pixelBytes c)).length = ps.length * c.toNat := by
  induction ps with
  | nil => simp
  | cons p ps ih =>
    have hlanes : (pixelBytes c p).length = c.toNat := (pixelBytes_length c p).trans (lanes_eq hc)
    rw [List.flatMap_cons, List.length_append, ih, hlanes, List.length_cons, Nat.succ_mul, Nat.add_comm]

/-- A raw buffer holds the bytes of its pixels (R85, R117). -/
theorem holds_pixelBytes_pixelAt (m : Memory) (c : Byte) (k : Nat) :
    m.Holds (k * c.toNat) (pixelBytes c (pixelAt m c k)) := by
  unfold pixelBytes
  split
  · next hc => simp [Memory.holds_cons, Memory.holds_nil, pixelAt, hc, Nat.add_assoc]
  · simp [Memory.holds_cons, Memory.holds_nil, pixelAt, Nat.add_assoc]

theorem holds_imagePixels {c : Byte} (hc : c = 3 ∨ c = 4) (m : Memory) (n : Nat) :
    m.Holds 0 ((imagePixels m c n).flatMap (pixelBytes c)) := by
  induction n with
  | zero => exact Memory.holds_nil m 0
  | succ n ih =>
    rw [imagePixels_succ, List.flatMap_append, List.flatMap_singleton, Memory.holds_append,
      flatMap_pixelBytes_length hc, imagePixels_length, Nat.zero_add]
    exact ⟨ih, holds_pixelBytes_pixelAt m c n⟩

/-! ### The encode job -/

/-- The descriptor of a job's image. -/
def jobHeader (j : Job) : Header := { width := j.jW, height := j.jH, channels := j.jC, colorspace := j.jCS }

/-- OUT holds the header and these chunks, which stand for the pixels consumed but for the pending run. -/
structure Streamed (chunks : List Instr) (t : State) : Prop where
  coded : Coded chunks t.job.prev t.job.run t.job.cache (imagePixels t.inp t.job.jC t.job.pixPos)
  outPos : t.job.outPos = (headerBytes (jobHeader t.job) ++ chunks.flatMap encode).length
  bytes : t.out.Holds 0 (headerBytes (jobHeader t.job) ++ chunks.flatMap encode)

theorem streamed_encodeStarted (s : State) : Streamed [] s.encodeStarted where
  coded := Coded.start
  outPos := rfl
  bytes := by
    rw [encodeStarted_out, List.flatMap_nil, List.append_nil]
    exact Memory.holds_writeBytes _ _ _

/-- A pixel step keeps the stream in OUT and adds its own chunks to it. -/
theorem Streamed.encoded {chunks : List Instr} {t : State} (h : Streamed chunks t) (hrun : t.job.run ≤ 61) :
    Streamed (chunks ++ encodeStepChunks (currentPixel t) t.job) (t.encoded (currentPixel t)) where
  coded := by
    have hstep := h.coded.step hrun (currentPixel t)
    rw [currentPixel, ← imagePixels_succ] at hstep
    exact hstep
  outPos := by
    rw [List.flatMap_append, ← encodeStepBytes_eq_flatMap, ← List.append_assoc, List.length_append]
    exact congrArg (· + _) h.outPos
  bytes := by
    rw [List.flatMap_append, ← encodeStepBytes_eq_flatMap, ← List.append_assoc, Memory.holds_append, Nat.zero_add]
    have hbehind : (headerBytes (jobHeader t.job) ++ chunks.flatMap encode).length = t.job.outPos := h.outPos.symm
    constructor
    · exact h.bytes.writeBytes_behind (by rw [Nat.zero_add, hbehind])
    · change (t.out.writeBytes t.job.outPos _).Holds (headerBytes (jobHeader t.job) ++ chunks.flatMap encode).length _
      rw [hbehind]
      exact Memory.holds_writeBytes _ _ _

/-- The tail step completes the stream of R48. -/
theorem Streamed.ended {chunks : List Instr} {t : State} (h : Streamed chunks t) :
    t.ended.job.outPos = (streamBytes (jobHeader t.job) (chunks ++ flushChunks t.job.run)).length ∧
      t.ended.out.Holds 0 (streamBytes (jobHeader t.job) (chunks ++ flushChunks t.job.run)) := by
  have hstream : streamBytes (jobHeader t.job) (chunks ++ flushChunks t.job.run) =
      (headerBytes (jobHeader t.job) ++ chunks.flatMap encode) ++ (flushBytes t.job.run ++ endMarker) := by
    simp only [streamBytes, List.flatMap_append, flushBytes_eq_flatMap, List.append_assoc]
  rw [hstream, ended_job, ended_out, Memory.holds_append, Nat.zero_add, List.length_append (as := _ ++ _), ← h.outPos]
  exact ⟨rfl, h.bytes.writeBytes_behind (by rw [Nat.zero_add, h.outPos]), Memory.holds_writeBytes _ _ _⟩

/-- The image that an encode job is started on. -/
def configHeader (c : ConfigRegs) : Header :=
  { width := c.width, height := c.height, channels := c.channels, colorspace := c.colorspace }

/-- The machine whose one turn to come is the host's write of `v` to CTRL. -/
def State.commanded (s : State) (v : Word64) : State := { s with agenda := [.host (.writeReg 0 v)] }

/-- The machine on which a START begins a job, with the core left alone after it. -/
def State.launched (s : State) : State := { s with agenda := [], doneUnread := true }

theorem MachineInv.commanded {s : State} (h : MachineInv s) (v : Word64) : MachineInv (s.commanded v) :=
  h.congr rfl rfl rfl rfl rfl rfl

theorem step_commanded_encode {s : State} (hb : s.status.busy = false) (hbuf : BuffersExist s)
    (hcheck : encodeCheck s.cfg = none) : step (s.commanded 1) = .next s.launched.encodeStarted := by
  obtain ⟨-, -, -, -, hcap⟩ := encodeCheck_eq_none hcheck
  have hroom : 14 ≤ s.out.size := by have := hbuf.2; omega
  rw [step_startEncode (s := s.commanded 1) (v := 1) ⟨[], rfl⟩ ⟨by decide, by decide, by decide⟩ hb hbuf]
  exact (startEncode_valid_eq_next (s := s.launched) hcheck).2 ⟨hroom, rfl⟩

theorem step_commanded_decode {s : State} (hb : s.status.busy = false) (hbuf : BuffersExist s)
    (hcheck : decodeCheck s.cfg s.inp = none) : step (s.commanded 3) = .next s.launched.decodeStarted := by
  rw [step_startDecode (s := s.commanded 3) (v := 3) ⟨[], rfl⟩ ⟨by decide, by decide, by decide⟩ hb hbuf]
  exact startDecode_valid (s := s.launched) hcheck

/-- What an encode job keeps while it runs, said of the machine `s` it was started on. -/
def EncodesImageOf (s t : State) : Prop :=
  (∃ chunks, Streamed chunks t) ∧ t.inp = s.inp ∧ jobHeader t.job = configHeader s.cfg ∧ t.job.jC = s.cfg.channels

/-- R123, the encoder's half: an accepted image becomes a stream of well-formed chunks that stands for its pixels. -/
theorem encode_job_writes_stream {s : State} {n : Nat} (hinv : MachineInv s) (hb : s.status.busy = false)
    (hcheck : encodeCheck s.cfg = none) (hbuf : BuffersExist s) (hn : s.cfg.width.toNat * s.cfg.height.toNat = n) :
    ∃ (e : State) (chunks : List Instr), Host.Core.run core (n + 2) (s.commanded 1) = .next e ∧ e.status.word = 2 ∧
      (∀ i ∈ chunks, i.wf = true) ∧ streamPixels chunks freshJob = imagePixels s.inp s.cfg.channels n ∧
      e.res.outLen.toNat = (streamBytes (configHeader s.cfg) chunks).length ∧
      e.out.Holds 0 (streamBytes (configHeader s.cfg) chunks) := by
  have hstart := step_commanded_encode hb hbuf hcheck
  have hjN : s.launched.encodeStarted.job.jN = n := hn
  have hpos : s.launched.encodeStarted.job.pixPos = 0 := rfl
  obtain ⟨t, hrun, htinv, htagenda, ⟨⟨chunks, ht⟩, hinp, hheader, hchannels⟩, -, htpos, htphase⟩ :=
    run_encode (P := EncodesImageOf s)
      (fun v hvinv hvphase ⟨⟨chunks, hv⟩, hsame⟩ => ⟨⟨_, hv.encoded (hvinv.encPixel hvphase).1.runCap⟩, hsame⟩)
      ((hinv.commanded 1).step hstart) rfl rfl ⟨⟨[], streamed_encodeStarted _⟩, rfl, rfl, rfl⟩ (k := n) (by omega)
  rw [hpos, hjN, Nat.zero_add, if_pos rfl] at htphase
  rw [hpos, Nat.zero_add] at htpos
  obtain ⟨hok, hend⟩ := htinv.encTail htphase
  have hstep := step_encTail (.inl htagenda) htphase (hok.tail_room hend)
  rw [turnTaken_of_agenda_nil htagenda] at hstep
  obtain ⟨hlen, hbytes⟩ := ht.ended
  have hflushed := ht.coded.flushed (hok.runCap.trans (by decide))
  rw [hheader] at hlen hbytes
  refine ⟨t.ended, chunks ++ flushChunks t.job.run, ?_, succeeded_word, hflushed.wf, ?_, ?_, hbytes⟩
  · exact (run_succ hstart (n + 1)).trans ((run_add 1 hrun).trans (run_one hstep))
  · have hpixels := hflushed.pixels
    rwa [List.replicate_zero, List.append_nil, hinp, hchannels, htpos] at hpixels
  · have hfits := ((hok.tail_fits hend).trans hok.capacity.1).trans_lt t.job.jOutCap.isLt
    rw [ended_outLen, BitVec.toNat_ofNat, Nat.mod_eq_of_lt hfits, ← hlen]; rfl

/-! ### The decode job -/

theorem header_wf_iff (h : Header) :
    h.wf = true ↔ h.width ≠ 0 ∧ h.height ≠ 0 ∧ (h.channels = 3 ∨ h.channels = 4) := by
  simp only [Header.wf, Bool.and_eq_true, decide_eq_true_eq, and_assoc]

/-- R104: a header at the start of IN that passes every check. -/
theorem decodeCheck_of_header {c : ConfigRegs} {m : Memory} {h : Header} (hm : m.Holds 0 (headerBytes h))
    (hwf : h.wf = true) (hlen : 14 ≤ c.inLen.toNat) (hreq : c.reqChannels = 3 ∨ c.reqChannels = 4)
    (hcap : h.width.toNat * h.height.toNat * c.reqChannels.toNat ≤ c.outCap.toNat) : decodeCheck c m = none := by
  obtain ⟨hheader, hmagic⟩ := headerOf_of_holds hm
  obtain ⟨hw, hh, hc⟩ := (header_wf_iff h).1 hwf
  simp only [decodeCheck, hheader]
  rw [if_neg (by omega), if_neg (not_not.2 hmagic), if_neg (not_or.2 ⟨hw, hh⟩), if_neg (by tauto), if_neg (by tauto),
    if_neg (by omega)]

/-- The pixels `ps` are still to come: the pending run, then those of the chunks at `in_pos`. -/
structure Remaining (chunks : List Instr) (u : State) (ps : List Pixel) : Prop where
  wf : ∀ i ∈ chunks, i.wf = true
  bytes : u.inp.Holds u.job.inPos (chunks.flatMap encode)
  below : u.job.inPos + (chunks.flatMap encode).length ≤ u.job.jInLen.toNat
  pixels : List.replicate u.job.runRem u.job.prev ++ streamPixels chunks u.job = ps
  /-- The pixel of a pending run is in its slot: the chunk's own step stored it (R116). -/
  stored : 0 < u.job.runRem → cacheRead u.job.cache (pixelHash u.job.prev) = u.job.prev

theorem cacheStore_self {c : Cache} {p : Pixel} (h : cacheRead c (pixelHash p) = p) : cacheStore c p = c := by
  apply cache_ext
  intro i
  rw [cacheRead_cacheStore]
  split
  · next hi => rw [hi, h]
  · rfl

theorem produced_inp (s : State) (px : Pixel) (used owed : Nat) : (s.produced px used owed).inp = s.inp :=
  (produced_produces s px used owed).frame.inp

/-- A step of a pending run produces the first of the pixels to come. -/
theorem Remaining.step_run {chunks : List Instr} {u : State} {p : Pixel} {ps : List Pixel} {r : Nat}
    (h : Remaining chunks u (p :: ps)) (hr : u.job.runRem = r + 1) :
    decodedPixel u = some (p, 0, r) ∧ Remaining chunks (u.produced p 0 r) ps := by
  have hpixels := h.pixels
  rw [hr, List.replicate_succ, List.cons_append, List.cons_eq_cons] at hpixels
  obtain ⟨rfl, hrest⟩ := hpixels
  have hstored := h.stored (by omega)
  have hjob := produced_job u u.job.prev 0 r
  rw [cacheStore_self hstored] at hjob
  refine ⟨by rw [decodedPixel, if_pos (by omega), hr]; rfl, h.wf, ?_, ?_, ?_, ?_⟩
  · rw [produced_inp, hjob]; exact h.bytes
  · rw [hjob]; exact h.below
  · rw [streamPixels_congr chunks (j := u.job) (by rw [hjob]) (by rw [hjob]), hjob]
    exact hrest
  · rw [hjob]; exact fun _ => hstored

/-- A step that reads a chunk produces the first of the pixels to come, and owes what the chunk stands for beside it. -/
theorem Remaining.step_chunk {i : Instr} {chunks : List Instr} {u : State} {p : Pixel} {ps : List Pixel}
    (h : Remaining (i :: chunks) u (p :: ps)) (hr : u.job.runRem = 0) :
    decodedPixel u = some (p, (encode i).length, chunkCount i - 1) ∧
      Remaining chunks (u.produced p (encode i).length (chunkCount i - 1)) ps := by
  have hwf := h.wf i List.mem_cons_self
  obtain ⟨m, hm⟩ : ∃ m, chunkCount i = m + 1 := ⟨chunkCount i - 1, by have := chunkCount_pos hwf; omega⟩
  have hpixels := h.pixels
  rw [hr, streamPixels, hm, List.replicate_succ, List.replicate_zero, List.nil_append, List.cons_append,
    List.cons_eq_cons] at hpixels
  obtain ⟨rfl, hrest⟩ := hpixels
  obtain ⟨hbytes, hbehind⟩ := Memory.holds_append.1 h.bytes
  have hbelow := h.below
  rw [List.flatMap_cons, List.length_append] at hbelow
  have howes : chunkOwes i u.job = chunkCount i - 1 := by
    cases i with
    | run n => rfl
    | rgb | rgba | index | diff | luma => exact hr
  have hjob := produced_job u (chunkPixel i u.job) (encode i).length (chunkCount i - 1)
  refine ⟨by rw [decodedPixel_of_holds hr hwf (by omega) hbytes, howes],
    fun i' hi' => h.wf i' (List.mem_cons_of_mem _ hi'), ?_, ?_, ?_, ?_⟩
  · rw [produced_inp, hjob]; exact hbehind
  · rw [hjob]; simpa [Nat.add_assoc] using hbelow
  · have hseen := streamPixels_congr chunks (j := u.job.seen (chunkPixel i u.job))
      (j' := (u.produced (chunkPixel i u.job) (encode i).length (chunkCount i - 1)).job) (by rw [hjob]; rfl)
      (by rw [hjob]; rfl)
    rw [hseen, hjob, hm]
    exact hrest
  · rw [hjob]; exact fun _ => by rw [cacheRead_cacheStore, if_pos rfl]

theorem Remaining.step {chunks : List Instr} {u : State} {p : Pixel} {ps : List Pixel}
    (h : Remaining chunks u (p :: ps)) :
    ∃ used owed chunks', decodedPixel u = some (p, used, owed) ∧ Remaining chunks' (u.produced p used owed) ps := by
  cases hr : u.job.runRem with
  | succ r => exact ⟨_, _, _, h.step_run hr⟩
  | zero =>
    cases chunks with
    | nil =>
      have hnone := h.pixels
      rw [hr] at hnone
      cases hnone
    | cons i chunks => exact ⟨_, _, _, h.step_chunk hr⟩

/-- A decode job of the parameters of `j` that has produced `done` and has `ps` to come. -/
structure Decoding (j : Job) (u : State) (done ps : List Pixel) : Prop where
  parameters : SameParameters j u.job
  remaining : ∃ chunks, Remaining chunks u ps
  pixPos : u.job.pixPos = done.length
  written : u.out.Holds 0 (done.flatMap (pixelBytes u.job.jReq))

/-- A step produces the first pixel to come, behind those produced. -/
theorem Decoding.step {j : Job} {u : State} {p : Pixel} {done ps : List Pixel} (h : Decoding j u done (p :: ps))
    (hreq : u.job.jReq = 3 ∨ u.job.jReq = 4) :
    ∃ used owed, decodedPixel u = some (p, used, owed) ∧ Decoding j (u.produced p used owed) (done ++ [p]) ps := by
  obtain ⟨chunks, hremaining⟩ := h.remaining
  obtain ⟨used, owed, chunks', hdecoded, hnext⟩ := hremaining.step
  have hjob := produced_job u p used owed
  have haddress : (done.flatMap (pixelBytes u.job.jReq)).length = pixelAddress u := by
    rw [flatMap_pixelBytes_length hreq, pixelAddress, h.pixPos]
  obtain ⟨h1, h2, h3, h4, h5, h6, h7, h8⟩ := h.parameters
  refine ⟨used, owed, hdecoded, ?_, ⟨chunks', hnext⟩, ?_, ?_⟩
  · rw [hjob]; exact ⟨h1, h2, h3, h4, h5, h6, h7, h8⟩
  · rw [hjob, List.length_append, ← h.pixPos]; rfl
  · rw [hjob, produced_out, List.flatMap_append, List.flatMap_singleton, Memory.holds_append, Nat.zero_add, haddress]
    exact ⟨h.written.writeBytes_behind (by rw [Nat.zero_add, haddress]), Memory.holds_writeBytes _ _ _⟩

/-- R118: what a decode job reports. -/
def reported (j : Job) : ResultRegs :=
  { outLen := BitVec.ofNat 64 (j.jN * j.jReq.toNat)
    width := j.jW
    height := j.jH
    channels := j.jC
    colorspace := j.jCS }

/-- A decode job whose pixels to come are those it owes ends well, with all of them in OUT. -/
theorem run_decode {j : Job} {p : Pixel} {done ps : List Pixel} {u : State} (hinv : MachineInv u)
    (hagenda : u.agenda = []) (hphase : u.phase = .decPixel) (h : Decoding j u done (p :: ps))
    (hn : done.length + (p :: ps).length = j.jN) :
    ∃ t : State, Host.Core.run core (p :: ps).length u = .next t ∧ t.status.word = 2 ∧ t.res = reported j ∧
      t.out.Holds 0 ((done ++ p :: ps).flatMap (pixelBytes j.jReq)) := by
  induction ps generalizing p done u with
  | nil =>
    have hok := hinv.decPixel hphase
    obtain ⟨used, owed, hdecoded, hnext⟩ := h.step hok.request
    have hstep := step_decPixel_some (.inl hagenda) hphase hok hdecoded
    rw [turnTaken_of_agenda_nil hagenda] at hstep
    have hpar := h.parameters
    have hlast : u.job.pixPos + 1 = u.job.jN := by rw [h.pixPos, hpar.jN]; exact hn
    obtain ⟨-, -, -, -, -, hword, -⟩ := (produced_produces u p used owed).last hlast
    refine ⟨_, run_one hstep, hword, ?_, ?_⟩
    · rw [produced_res hlast, hpar.jN, hpar.jReq, hpar.jW, hpar.jH, hpar.jC, hpar.jCS]; rfl
    · have hwritten := hnext.written
      rwa [hnext.parameters.jReq] at hwritten
  | cons q qs ih =>
    have hok := hinv.decPixel hphase
    obtain ⟨used, owed, hdecoded, hnext⟩ := h.step hok.request
    have hstep := step_decPixel_some (.inl hagenda) hphase hok hdecoded
    rw [turnTaken_of_agenda_nil hagenda] at hstep
    have hproduces := produced_produces u p used owed
    have hnotLast : u.job.pixPos + 1 ≠ u.job.jN := by
      rw [h.pixPos, h.parameters.jN, ← hn]; simp
    obtain ⟨t, hrun, ht⟩ := ih (hinv.step hstep) (hproduces.modelSide.1.trans hagenda)
      ((hproduces.notLast hnotLast).2.2.trans hphase) hnext (by rw [← hn]; simp; omega)
    rw [List.append_assoc] at ht
    exact ⟨t, (run_succ hstep _).trans hrun, ht⟩

/-- R123, the decoder's half: a stream that stands for the pixels its header tells of is decoded to them. -/
theorem decode_job_reads_stream {d : State} {h : Header} {chunks : List Instr} {n : Nat} (hinv : MachineInv d)
    (hb : d.status.busy = false) (hbuf : BuffersExist d) (hwf : h.wf = true)
    (hstream : d.inp.Holds 0 (streamBytes h chunks)) (hlen : d.cfg.inLen.toNat = (streamBytes h chunks).length)
    (hchunks : ∀ i ∈ chunks, i.wf = true) (hn : h.width.toNat * h.height.toNat = n)
    (hcount : (streamPixels chunks freshJob).length = n) (hreq : d.cfg.reqChannels = 3 ∨ d.cfg.reqChannels = 4)
    (hcap : n * d.cfg.reqChannels.toNat ≤ d.cfg.outCap.toNat) :
    ∃ t : State, Host.Core.run core (n + 1) (d.commanded 3) = .next t ∧ t.status.word = 2 ∧
      t.res.outLen.toNat = n * d.cfg.reqChannels.toNat ∧ t.res.width = h.width ∧ t.res.height = h.height ∧
      t.res.channels = h.channels ∧ t.res.colorspace = h.colorspace ∧
      t.out.Holds 0 ((streamPixels chunks freshJob).flatMap (pixelBytes d.cfg.reqChannels)) := by
  obtain ⟨hparts, -⟩ := Memory.holds_append.1 hstream
  obtain ⟨hheader, hbytes⟩ := Memory.holds_append.1 hparts
  have htotal : (streamBytes h chunks).length = 14 + (chunks.flatMap encode).length + 8 := by
    simp only [streamBytes, List.length_append, headerBytes_length, endMarker_length]
  have hcheck : decodeCheck d.cfg d.inp = none :=
    decodeCheck_of_header hheader hwf (by omega) hreq (by rw [hn]; exact hcap)
  have hread : headerOf d.inp = h := (headerOf_of_holds hheader).1
  have hstart := step_commanded_decode hb hbuf hcheck
  have hinv' := (hinv.commanded 3).step hstart
  have hjN : d.launched.decodeStarted.job.jN = n := by rw [← hn, ← hread]; rfl
  have hremaining : Remaining chunks d.launched.decodeStarted (streamPixels chunks freshJob) :=
    { wf := hchunks
      bytes := hbytes
      below := by
        change 14 + (chunks.flatMap encode).length ≤ d.cfg.inLen.toNat
        omega
      pixels := streamPixels_congr chunks rfl rfl
      stored := fun h0 => absurd h0 (Nat.lt_irrefl 0) }
  have hposn : 0 < n := by
    have hpos := (hinv'.decPixel rfl).position
    rw [hjN] at hpos
    omega
  cases hpixels : streamPixels chunks freshJob with
  | nil =>
    rw [hpixels] at hcount
    exact absurd hcount (Nat.ne_of_lt hposn)
  | cons p ps =>
    rw [hpixels] at hremaining hcount
    have hdecoding : Decoding d.launched.decodeStarted.job d.launched.decodeStarted [] (p :: ps) :=
      ⟨sameParameters_refl _, ⟨chunks, hremaining⟩, rfl, Memory.holds_nil _ 0⟩
    obtain ⟨t, hrun, hword, hres, hout⟩ := run_decode hinv' rfl rfl hdecoding
      (by rw [hjN, hcount]; exact Nat.zero_add n)
    rw [hcount] at hrun
    have hfits : n * d.cfg.reqChannels.toNat < 2 ^ 64 := hcap.trans_lt d.cfg.outCap.isLt
    refine ⟨t, (run_succ hstart n).trans hrun, hword, ?_, ?_, ?_, ?_, ?_, hout⟩
    · rw [hres, reported, hjN, BitVec.toNat_ofNat]
      exact Nat.mod_eq_of_lt hfits
    · rw [hres, ← hread]; rfl
    · rw [hres, ← hread]; rfl
    · rw [hres, ← hread]; rfl
    · rw [hres, ← hread]; rfl

/-- Settles O58: the encode job writes a stream that stands for the image's pixels; the decode job makes of it those
pixels, and both buffers hold their bytes. -/
theorem decodingTheEncodedStreamGivesTheImage : Obligations.DecodingTheEncodedStreamGivesTheImage := by
  unfold Obligations.DecodingTheEncodedStreamGivesTheImage
  intro s n hinv hb hw hh hc hin hcap hbuf
  have hcheck := encodeCheck_of_valid hw hh hc hin hcap
  obtain ⟨e, chunks, hrun, hword, hchunks, hpixels, hlen, hstream⟩ :=
    encode_job_writes_stream hinv hb hcheck hbuf (n := n) rfl
  refine ⟨e, hrun, hword, fun d hdinv hdb hdlen hdreq hdcap hdbuf hdread => ?_⟩
  have hwf : (configHeader s.cfg).wf = true := (header_wf_iff _).2 ⟨hw, hh, hc⟩
  have hdstream : d.inp.Holds 0 (streamBytes (configHeader s.cfg) chunks) :=
    hstream.congr fun a _ ha => hdread a (by rw [hlen]; omega)
  rw [← hdreq] at hc hdcap hpixels
  obtain ⟨t, htrun, htword, htlen, htw, hth, htc, htcs, htout⟩ :=
    decode_job_reads_stream (n := n) hdinv hdb hdbuf hwf hdstream (by rw [hdlen, hlen]) hchunks rfl
      (by rw [hpixels, imagePixels_length]) hc hdcap
  rw [hpixels] at htout
  rw [← hdreq]
  refine ⟨t, htrun, htword, htlen, htw, hth, hdreq ▸ htc, htcs, fun a ha => ?_⟩
  have himage := holds_imagePixels hc s.inp n
  have hj : a < ((imagePixels s.inp d.cfg.reqChannels n).flatMap (pixelBytes d.cfg.reqChannels)).length := by
    rwa [flatMap_pixelBytes_length hc, imagePixels_length]
  have hboth := (htout a hj).trans (himage a hj).symm
  rwa [Nat.zero_add] at hboth

end Sys2Proof.Machine
end
